-- ==== Sys2Proof/Word.lean ====
section
/-! DEFINITION. The word types of the block: what the spec treats as bits (00_scope.md section 6, `uN` and `sN`). -/

namespace Sys2Proof

/-- A byte of register data (20_memory.md R47). -/
abbrev Byte := BitVec 8

/-- A register address: 9 bits, bit 8 the bank (30_encoding.md R61). -/
abbrev Addr := BitVec 9

/-- A command word `W` (30_encoding.md R60). -/
abbrev Word := BitVec 32

/-- A signed 16-bit value (`s16`), as its two's-complement pattern; read with `toInt`. -/
abbrev S16 := BitVec 16

/-- A signed 32-bit value (`s32`). -/
abbrev S32 := BitVec 32

/-- The bit as a number: 1 or 0. -/
abbrev bitNat (b : Bool) : Nat := if b then 1 else 0

end Sys2Proof
end

