-- ==== Sys2Proof/Config.lean ====
section
/-! DEFINITION. The parameters of the block that the spec leaves to a configuration: those with a stated default and a stated
alternative, and the rhythm phase function (00_scope.md R3, 93_implementation_defined.md U7, U8, U11 to U13). The machine runs
`Sys2Proof.Machine.params`, in Machine/Tables.lean, where the constant tables stand too. -/

namespace Sys2Proof

/-- The rhythm latches (10_state.md R16): `RM_HH_BIT2`, `3`, `7`, `8` and `RM_TC_BIT3`, `5`. They are state of the block
(Machine/Chip.lean) and what the parameter RHYTHM_PHASE reads. -/
structure Machine.RhythmLatches where
  hh2 : Bool
  hh3 : Bool
  hh7 : Bool
  hh8 : Bool
  tc3 : Bool
  tc5 : Bool
deriving DecidableEq, Repr

/-- The open choices of 00_scope.md R3. Every field of type Bool is `false` in the default the spec takes. -/
structure Params where
  /-- RHYTHM_PHASE: the phase output of operator 13, 16 or 17 in rhythm mode, from the rhythm latches and `NOISE[0]`
  (42_phase_noise_rhythm.md R150: "a model must take `RHYTHM_PHASE` as a configuration field"). -/
  rhythmPhase : Fin 36 → Machine.RhythmLatches → Bool → BitVec 16
  /-- NOISE_PER_OPERATOR: the noise register steps after every operator's phase step, not once per tick
  (42_phase_noise_rhythm.md R147). -/
  noisePerOperator : Bool := false
  /-- MIX_INTERLEAVED: the operator loop and the mixer in the order of 45_mixer_lfo.md R199, not R190. -/
  mixInterleaved : Bool := false
  /-- RSM_PREV_AT_ZERO: a zero remainder selects the previous native sample, and RSM_ACC resets to 0
  (47_resampler.md R228, R234). -/
  rsmPrevAtZero : Bool := false
  /-- EG_SUBSTEP_FROM_EG_TIMER: the coarse-rate sub-step index is EG_TIMER[1:0], not TIMER[1:0] (41_envelope.md R125). -/
  egSubstepFromEgTimer : Bool := false
  /-- RHYTHM_TAPS: the alternative taps of 44_router.md R183, every drum output counted twice (log 21). -/
  rhythmTapsDoubled : Bool := false

end Sys2Proof
end

