-- ==== Sys2Proof/Machine/Chip.lean ====
section
/-! DEFINITION. The block's own state, all of it and nothing else (10_state.md R10): plain data. The model's own fields around
it (the host's commands and the frames handed out) are in Machine/State.lean. -/

namespace Sys2Proof.Machine

/-- Four like things, one per output lane (A left, B right, C rear left, D rear right) or one per tap 0 to 3. -/
structure Quad (α : Type) where
  a : α
  b : α
  c : α
  d : α
deriving DecidableEq, Repr

/-- Where a modulation input or an output tap comes from (R21): silence, the feedback buffer of operator `j`, the last output
of operator `j`. -/
inductive Source where
  | zero
  | fb (j : Fin 36)
  | out (j : Fin 36)
deriving DecidableEq, Repr

/-- `EG_GEN` (R20). -/
inductive EgGen where
  | attack | decay | sustain | release
deriving DecidableEq, Repr

/-- `CHTYPE` (R18). -/
inductive ChType where
  | t2op | t4opA | t4opB | tdrum
deriving DecidableEq, Repr

/-- `ALG`, the seven codes R18 lists: 0 and 1 the two-operator topologies, 4 to 7 the four merged ones, 8 a channel whose wiring
its pair owns (44_router.md R176). -/
inductive Alg where
  | two0 | two1 | four4 | four5 | four6 | four7 | merged8
deriving DecidableEq, Repr

/-- An operator: the register fields of R19, the dynamic state of R20 and its modulation source (R21). -/
structure Operator where
  /-- `REG_TREM` -/
  regTrem : Bool
  /-- `REG_VIB` -/
  regVib : Bool
  /-- `REG_TYPE`, 1 = hold in Sustain -/
  regType : Bool
  /-- `REG_KSR` -/
  regKsr : Bool
  /-- `REG_MULT` -/
  regMult : BitVec 4
  /-- `REG_KSL` -/
  regKsl : BitVec 2
  /-- `REG_TL` -/
  regTl : BitVec 6
  /-- `REG_AR` -/
  regAr : BitVec 4
  /-- `REG_DR` -/
  regDr : BitVec 4
  /-- `REG_SL`, 0 to 14 or 31 -/
  regSl : BitVec 5
  /-- `REG_RR` -/
  regRr : BitVec 4
  /-- `REG_WF` -/
  regWf : BitVec 3
  /-- `EG_GEN` -/
  egGen : EgGen
  /-- `EG_ROUT`, an attenuation: 0x1FF is silence -/
  egRout : BitVec 9
  /-- `EG_OUT` -/
  egOut : BitVec 16
  /-- `EG_KSL` -/
  egKsl : BitVec 8
  /-- `KEY`, bit 0 the normal key, bit 1 the rhythm key -/
  key : BitVec 2
  /-- `PG_PHASE` -/
  pgPhase : BitVec 32
  /-- `PG_PHASE_OUT` -/
  pgPhaseOut : BitVec 16
  /-- `PG_RESET` -/
  pgReset : Bool
  /-- `OUT`, the last computed output sample -/
  out : S16
  /-- `PROUT`, the output before it -/
  prout : S16
  /-- `FBMOD`, the feedback buffer -/
  fbmod : S16
  /-- `MODSRC` -/
  modsrc : Source
deriving DecidableEq, Repr

/-- A channel: the fields of R18 and its output taps (R21). -/
structure Channel where
  /-- `F_NUM` -/
  fNum : BitVec 10
  /-- `BLOCK` -/
  block : BitVec 3
  /-- `FB` -/
  fb : BitVec 3
  /-- `CON` -/
  con : Bool
  /-- `ALG` -/
  alg : Alg
  /-- `KSV` -/
  ksv : BitVec 4
  /-- `CHA`, enable of lane A -/
  cha : Bool
  /-- `CHB`, enable of lane B -/
  chb : Bool
  /-- `CHC`, enable of lane C -/
  chc : Bool
  /-- `CHD`, enable of lane D -/
  chd : Bool
  /-- `LEFTPAN`, 0 to 0x10000 -/
  leftpan : BitVec 17
  /-- `RIGHTPAN`, 0 to 0x10000 -/
  rightpan : BitVec 17
  /-- `CHTYPE` -/
  chtype : ChType
  /-- `TAP[0..3]` -/
  tap : Quad Source
deriving DecidableEq, Repr

/-- The chip-global registers (R14). -/
structure GlobalRegs where
  /-- `NEWM` -/
  newm : Bool
  /-- `STEREOEXT` -/
  stereoext : Bool
  /-- `NTS` -/
  nts : Bool
  /-- `RHY`, bit 5 the rhythm enable, bits 4 to 0 the drum keys -/
  rhy : BitVec 6
  /-- `FOUROP` -/
  fourop : BitVec 6
  /-- `TREMSHIFT`, 2 or 4 -/
  tremshift : BitVec 3
  /-- `VIBSHIFT` -/
  vibshift : BitVec 1
deriving DecidableEq, Repr

/-- The global oscillators (R15). -/
structure Oscillators where
  /-- `NOISE` -/
  noise : BitVec 23
  /-- `TIMER` -/
  timer : BitVec 16
  /-- `TREMPOS`, 0 to 209 -/
  trempos : BitVec 8
  /-- `TREMOLO`, 0 to 26 -/
  tremolo : BitVec 8
  /-- `VIBPOS` -/
  vibpos : BitVec 3
  /-- `EG_TIMER` -/
  egTimer : BitVec 36
  /-- `EG_TIMERREM` -/
  egTimerrem : Bool
  /-- `EG_STATE` -/
  egState : Bool
  /-- `EG_ADD`, 0 to 13 -/
  egAdd : BitVec 4
deriving DecidableEq, Repr

/-- A pending buffered write (R22). -/
structure WbEntry where
  addr : Addr
  data : Byte
  time : Nat
deriving DecidableEq, Repr

/-- The resampler's state (R23). -/
structure Resampler where
  /-- `RSM_RATIO`, never 0 -/
  ratio : BitVec 32
  /-- `RSM_ACC` -/
  acc : Nat
  /-- `RSM_PREV` -/
  prev : Quad S16
  /-- `RSM_CUR` -/
  cur : Quad S16
  /-- `RSM_OUT` -/
  out : Quad S16
deriving DecidableEq, Repr

/-- The state of the block (R10). -/
structure Chip where
  /-- `OP[0..35]` (R19, R20, R21) -/
  ops : Vector Operator 36
  /-- `CH[0..17]` (R18, R21) -/
  chs : Vector Channel 18
  /-- the chip-global registers (R14) -/
  reg : GlobalRegs
  /-- the global oscillators (R15) -/
  osc : Oscillators
  /-- the rhythm latches (R16; their type is in Config.lean, since a parameter reads them) -/
  latch : RhythmLatches
  /-- `MIX[0..3]` (R17) -/
  mix : Quad S32
  /-- `OUTP[0..3]` (R17) -/
  outp : Quad S16
  /-- `WB`, oldest first (R22) -/
  wb : List WbEntry
  /-- `WB_SAMPLECNT` (R22) -/
  wbSamplecnt : Nat
  /-- `WB_LASTTIME` (R22) -/
  wbLasttime : Nat
  /-- the resampler (R23) -/
  rsm : Resampler
deriving DecidableEq, Repr

end Sys2Proof.Machine
end

