-- ==== Sys2Proof/Machine/Tables.lean ====
section
/-! DEFINITION. The constant tables and constants of 00_scope.md R3, and the parameter values the machine runs with. They stand
under Machine/ so that a later repair may mend an entry. -/

namespace Sys2Proof.Machine

/-- The default of RHYTHM_PHASE (42_phase_noise_rhythm.md R150), for operators 13, 16 and 17; `n` is `NOISE[0]`. No other
operator's phase is overridden, so the parameter is not read for one. -/
def rhythmPhase (o : Fin 36) (l : RhythmLatches) (n : Bool) : BitVec 16 :=
  let x := (l.hh2 ^^ l.hh7) || (l.hh3 ^^ l.tc5) || (l.tc3 ^^ l.tc5)
  if o = 13 then (if x then 0x200 else 0) ||| (if x ^^ n then 0xD0 else 0x34)
  else if o = 16 then (if l.hh8 then 0x200 else 0) ||| (if l.hh8 ^^ n then 0x100 else 0)
  else (if x then 0x200 else 0) ||| 0x80

/-- The parameter values of 00_scope.md R3: every open choice at the default the spec states. -/
def params : Params := { rhythmPhase := rhythmPhase }

/-- `NATIVE_RATE` in Hz (R3; used only by the resampler's ratio). -/
def nativeRate : Nat := 49716

/-- `WB_DELAY`, in native samples (R3, 46_writebuf.md R211). -/
def wbDelay : Nat := 2

/-- `WB_SIZE`, in entries (R3, 46_writebuf.md R216). -/
def wbSize : Nat := 1024

/-- `FRAC_BITS` (R3, 47_resampler.md R226). -/
def fracBits : Nat := 10

/-- `RATE_MIN` (R3, 47_resampler.md R231). -/
def rateMin : Nat := 49

/-- `RATE_MAX` (R3, 47_resampler.md R231). -/
def rateMax : Nat := 4194303

/-- `NOISE_SEED` (R3, 42_phase_noise_rhythm.md R146). -/
def noiseSeed : BitVec 23 := 1

/-- `EG_MAX`, the envelope level of silence (R3). -/
def egMax : BitVec 9 := 0x1FF

/-- Entry `i` of a table kept in rows of sixteen. -/
def tableEntry (rows : List (List Nat)) (i : Nat) : Nat := (rows.getD (i / 16) []).getD (i % 16) 0

/-- `LOGSIN_ROM` (43_waveform_feedback.md R160), in sixteen rows of sixteen. -/
def logsinRomRows : List (List Nat) :=
  [[0x859, 0x6C3, 0x607, 0x58B, 0x52E, 0x4E4, 0x4A6, 0x471, 0x443, 0x41A, 0x3F5, 0x3D3, 0x3B5, 0x398, 0x37E, 0x365],
   [0x34E, 0x339, 0x324, 0x311, 0x2FF, 0x2ED, 0x2DC, 0x2CD, 0x2BD, 0x2AF, 0x2A0, 0x293, 0x286, 0x279, 0x26D, 0x261],
   [0x256, 0x24B, 0x240, 0x236, 0x22C, 0x222, 0x218, 0x20F, 0x206, 0x1FD, 0x1F5, 0x1EC, 0x1E4, 0x1DC, 0x1D4, 0x1CD],
   [0x1C5, 0x1BE, 0x1B7, 0x1B0, 0x1A9, 0x1A2, 0x19B, 0x195, 0x18F, 0x188, 0x182, 0x17C, 0x177, 0x171, 0x16B, 0x166]] ++
  [[0x160, 0x15B, 0x155, 0x150, 0x14B, 0x146, 0x141, 0x13C, 0x137, 0x133, 0x12E, 0x129, 0x125, 0x121, 0x11C, 0x118],
   [0x114, 0x10F, 0x10B, 0x107, 0x103, 0x0FF, 0x0FB, 0x0F8, 0x0F4, 0x0F0, 0x0EC, 0x0E9, 0x0E5, 0x0E2, 0x0DE, 0x0DB],
   [0x0D7, 0x0D4, 0x0D1, 0x0CD, 0x0CA, 0x0C7, 0x0C4, 0x0C1, 0x0BE, 0x0BB, 0x0B8, 0x0B5, 0x0B2, 0x0AF, 0x0AC, 0x0A9],
   [0x0A7, 0x0A4, 0x0A1, 0x09F, 0x09C, 0x099, 0x097, 0x094, 0x092, 0x08F, 0x08D, 0x08A, 0x088, 0x086, 0x083, 0x081]] ++
  [[0x07F, 0x07D, 0x07A, 0x078, 0x076, 0x074, 0x072, 0x070, 0x06E, 0x06C, 0x06A, 0x068, 0x066, 0x064, 0x062, 0x060],
   [0x05E, 0x05C, 0x05B, 0x059, 0x057, 0x055, 0x053, 0x052, 0x050, 0x04E, 0x04D, 0x04B, 0x04A, 0x048, 0x046, 0x045],
   [0x043, 0x042, 0x040, 0x03F, 0x03E, 0x03C, 0x03B, 0x039, 0x038, 0x037, 0x035, 0x034, 0x033, 0x031, 0x030, 0x02F],
   [0x02E, 0x02D, 0x02B, 0x02A, 0x029, 0x028, 0x027, 0x026, 0x025, 0x024, 0x023, 0x022, 0x021, 0x020, 0x01F, 0x01E]] ++
  [[0x01D, 0x01C, 0x01B, 0x01A, 0x019, 0x018, 0x017, 0x017, 0x016, 0x015, 0x014, 0x014, 0x013, 0x012, 0x011, 0x011],
   [0x010, 0x00F, 0x00F, 0x00E, 0x00D, 0x00D, 0x00C, 0x00C, 0x00B, 0x00A, 0x00A, 0x009, 0x009, 0x008, 0x008, 0x007],
   [0x007, 0x007, 0x006, 0x006, 0x005, 0x005, 0x005, 0x004, 0x004, 0x004, 0x003, 0x003, 0x003, 0x002, 0x002, 0x002],
   [0x002, 0x001, 0x001, 0x001, 0x001, 0x001, 0x001, 0x001, 0x000, 0x000, 0x000, 0x000, 0x000, 0x000, 0x000, 0x000]]

/-- `EXP_ROM` (43_waveform_feedback.md R161), in sixteen rows of sixteen. -/
def expRomRows : List (List Nat) :=
  [[0x7FA, 0x7F5, 0x7EF, 0x7EA, 0x7E4, 0x7DF, 0x7DA, 0x7D4, 0x7CF, 0x7C9, 0x7C4, 0x7BF, 0x7B9, 0x7B4, 0x7AE, 0x7A9],
   [0x7A4, 0x79F, 0x799, 0x794, 0x78F, 0x78A, 0x784, 0x77F, 0x77A, 0x775, 0x770, 0x76A, 0x765, 0x760, 0x75B, 0x756],
   [0x751, 0x74C, 0x747, 0x742, 0x73D, 0x738, 0x733, 0x72E, 0x729, 0x724, 0x71F, 0x71A, 0x715, 0x710, 0x70B, 0x706],
   [0x702, 0x6FD, 0x6F8, 0x6F3, 0x6EE, 0x6E9, 0x6E5, 0x6E0, 0x6DB, 0x6D6, 0x6D2, 0x6CD, 0x6C8, 0x6C4, 0x6BF, 0x6BA]] ++
  [[0x6B5, 0x6B1, 0x6AC, 0x6A8, 0x6A3, 0x69E, 0x69A, 0x695, 0x691, 0x68C, 0x688, 0x683, 0x67F, 0x67A, 0x676, 0x671],
   [0x66D, 0x668, 0x664, 0x65F, 0x65B, 0x657, 0x652, 0x64E, 0x649, 0x645, 0x641, 0x63C, 0x638, 0x634, 0x630, 0x62B],
   [0x627, 0x623, 0x61E, 0x61A, 0x616, 0x612, 0x60E, 0x609, 0x605, 0x601, 0x5FD, 0x5F9, 0x5F5, 0x5F0, 0x5EC, 0x5E8],
   [0x5E4, 0x5E0, 0x5DC, 0x5D8, 0x5D4, 0x5D0, 0x5CC, 0x5C8, 0x5C4, 0x5C0, 0x5BC, 0x5B8, 0x5B4, 0x5B0, 0x5AC, 0x5A8]] ++
  [[0x5A4, 0x5A0, 0x59C, 0x599, 0x595, 0x591, 0x58D, 0x589, 0x585, 0x581, 0x57E, 0x57A, 0x576, 0x572, 0x56F, 0x56B],
   [0x567, 0x563, 0x560, 0x55C, 0x558, 0x554, 0x551, 0x54D, 0x549, 0x546, 0x542, 0x53E, 0x53B, 0x537, 0x534, 0x530],
   [0x52C, 0x529, 0x525, 0x522, 0x51E, 0x51B, 0x517, 0x514, 0x510, 0x50C, 0x509, 0x506, 0x502, 0x4FF, 0x4FB, 0x4F8],
   [0x4F4, 0x4F1, 0x4ED, 0x4EA, 0x4E7, 0x4E3, 0x4E0, 0x4DC, 0x4D9, 0x4D6, 0x4D2, 0x4CF, 0x4CC, 0x4C8, 0x4C5, 0x4C2]] ++
  [[0x4BE, 0x4BB, 0x4B8, 0x4B5, 0x4B1, 0x4AE, 0x4AB, 0x4A8, 0x4A4, 0x4A1, 0x49E, 0x49B, 0x498, 0x494, 0x491, 0x48E],
   [0x48B, 0x488, 0x485, 0x482, 0x47E, 0x47B, 0x478, 0x475, 0x472, 0x46F, 0x46C, 0x469, 0x466, 0x463, 0x460, 0x45D],
   [0x45A, 0x457, 0x454, 0x451, 0x44E, 0x44B, 0x448, 0x445, 0x442, 0x43F, 0x43C, 0x439, 0x436, 0x433, 0x430, 0x42D],
   [0x42A, 0x428, 0x425, 0x422, 0x41F, 0x41C, 0x419, 0x416, 0x414, 0x411, 0x40E, 0x40B, 0x408, 0x406, 0x403, 0x400]]

/-- `PAN_LUT[i] = trunc(sin(i * pi / 512) * 65536)` (45_mixer_lfo.md R195); computed from the formula: log 8, in sixteen rows of sixteen. -/
def panLutRows : List (List Nat) :=
  [[0, 402, 804, 1206, 1608, 2010, 2412, 2814, 3215, 3617, 4018, 4420, 4821, 5222, 5622, 6023],
   [6423, 6823, 7223, 7623, 8022, 8421, 8819, 9218, 9616, 10013, 10410, 10807, 11204, 11600, 11995, 12390],
   [12785, 13179, 13573, 13966, 14359, 14751, 15142, 15533, 15923, 16313, 16702, 17091, 17479, 17866, 18253, 18638],
   [19024, 19408, 19792, 20175, 20557, 20938, 21319, 21699, 22078, 22456, 22833, 23210, 23586, 23960, 24334, 24707]] ++
  [[25079, 25450, 25820, 26189, 26557, 26925, 27291, 27656, 28020, 28383, 28745, 29105, 29465, 29824, 30181, 30538],
   [30893, 31247, 31600, 31952, 32302, 32651, 32999, 33346, 33692, 34036, 34379, 34721, 35061, 35400, 35738, 36074],
   [36409, 36743, 37075, 37406, 37736, 38064, 38390, 38716, 39039, 39362, 39682, 40002, 40319, 40636, 40950, 41263],
   [41575, 41885, 42194, 42501, 42806, 43110, 43412, 43712, 44011, 44308, 44603, 44897, 45189, 45480, 45768, 46055]] ++
  [[46340, 46624, 46906, 47186, 47464, 47740, 48015, 48288, 48558, 48828, 49095, 49360, 49624, 49886, 50146, 50403],
   [50660, 50914, 51166, 51416, 51665, 51911, 52155, 52398, 52639, 52877, 53114, 53348, 53581, 53811, 54040, 54266],
   [54491, 54713, 54933, 55152, 55368, 55582, 55794, 56004, 56212, 56417, 56621, 56822, 57022, 57219, 57414, 57606],
   [57797, 57986, 58172, 58356, 58538, 58718, 58895, 59070, 59243, 59414, 59583, 59749, 59913, 60075, 60235, 60392]] ++
  [[60547, 60700, 60850, 60998, 61144, 61288, 61429, 61568, 61705, 61839, 61971, 62100, 62228, 62353, 62475, 62596],
   [62714, 62829, 62942, 63053, 63162, 63268, 63371, 63473, 63571, 63668, 63762, 63854, 63943, 64030, 64115, 64197],
   [64276, 64353, 64428, 64501, 64571, 64638, 64703, 64766, 64826, 64884, 64939, 64992, 65043, 65091, 65136, 65179],
   [65220, 65258, 65294, 65327, 65358, 65386, 65412, 65436, 65457, 65475, 65491, 65505, 65516, 65524, 65531, 65534]]

/-- `LOGSIN_ROM[i]` (R160). -/
def logsinRom (i : Nat) : Nat := tableEntry logsinRomRows i

/-- `EXP_ROM[i]` (R161). -/
def expRom (i : Nat) : Nat := tableEntry expRomRows i

/-- `PAN_LUT[i]` (R195). -/
def panLut (i : Nat) : Nat := tableEntry panLutRows i

/-- `MT[mult]` (42_phase_noise_rhythm.md R141). -/
def mtTable (mult : BitVec 4) : Nat :=
  [1, 2, 4, 6, 8, 10, 12, 14, 16, 18, 20, 20, 24, 24, 30, 30].getD mult.toNat 0

/-- `KSL_ROM[i]` (40_register_writes.md R111). -/
def kslRom (i : BitVec 4) : Nat :=
  [0, 32, 40, 45, 48, 51, 53, 55, 56, 58, 59, 60, 61, 62, 63, 64].getD i.toNat 0

/-- `KSL_SHIFT[ksl]` (40_register_writes.md R111). -/
def kslShift (ksl : BitVec 2) : Nat := [8, 1, 2, 0].getD ksl.toNat 0

/-- `EG_INCSTEP[lo][sub]` (41_envelope.md R125). -/
def egIncstep (lo sub : Nat) : Nat :=
  ([[0, 0, 0, 0], [1, 0, 0, 0], [1, 0, 1, 0], [1, 1, 1, 0]].getD lo []).getD sub 0

end Sys2Proof.Machine
end

