-- ==== Sys2Proof/Machine/Ops.lean ====
section
/-! DEFINITION. The named operations over the block's state: reading and writing one operator or one channel, the walk over all
of them in ascending order, and the narrowings of 00_scope.md section 6. The block has no memory that keeps bytes
(20_memory.md R43) and takes no exception (60_exceptions.md R241), so there is no operation for either. -/

namespace Sys2Proof.Machine

/-- `OP[o]`. -/
def Chip.op (c : Chip) (o : Fin 36) : Operator := c.ops[o]

/-- `CH[i]`. -/
def Chip.ch (c : Chip) (i : Fin 18) : Channel := c.chs[i]

/-- `OP[o] <- x`. -/
def Chip.setOp (c : Chip) (o : Fin 36) (x : Operator) : Chip := { c with ops := c.ops.set o x }

/-- `CH[i] <- x`. -/
def Chip.setCh (c : Chip) (i : Fin 18) (x : Channel) : Chip := { c with chs := c.chs.set i x }

/-- Rewrites fields of `OP[o]`. -/
def Chip.modOp (c : Chip) (o : Fin 36) (f : Operator → Operator) : Chip := c.setOp o (f (c.op o))

/-- Rewrites fields of `CH[i]`. -/
def Chip.modCh (c : Chip) (i : Fin 18) (f : Channel → Channel) : Chip := c.setCh i (f (c.ch i))

/-- The operators in ascending order. -/
def allOps : List (Fin 36) :=
  [0, 1, 2, 3, 4, 5, 6, 7, 8, 9, 10, 11, 12, 13, 14, 15, 16, 17] ++
  [18, 19, 20, 21, 22, 23, 24, 25, 26, 27, 28, 29, 30, 31, 32, 33, 34, 35]

/-- The channels in ascending order. -/
def allChs : List (Fin 18) := [0, 1, 2, 3, 4, 5, 6, 7, 8, 9, 10, 11, 12, 13, 14, 15, 16, 17]

/-- `clip16(v)`, the one saturating stage (45_mixer_lfo.md R193). -/
def clip16 (v : Int) : Int := if v > 32767 then 32767 else if v < -32768 then -32768 else v

/-- `wrap_s16(v)`, as the pattern stored. -/
def wrapS16 (v : Int) : S16 := BitVec.ofInt 16 v

/-- `f` in each of four places. -/
def Quad.map {α β : Type} (f : α → β) (q : Quad α) : Quad β := ⟨f q.a, f q.b, f q.c, f q.d⟩

/-- The same thing in each of four places. -/
def Quad.all {α : Type} (x : α) : Quad α := ⟨x, x, x, x⟩

end Sys2Proof.Machine
end

