-- ==== Sys2Proof/Machine/Operands.lean ====
section
/-! DEFINITION. The constant wiring (which operators a channel owns, which channel is its pair: 10_state.md R11 to R13) and the
evaluation of a modulation source or an output tap (44_router.md R186). These are all the operand forms the block has: every
register address is decoded before it gets here (Decode.lean). -/

namespace Sys2Proof.Machine

/-- `CH_SLOT` (R12), the first operator of each channel. -/
def chSlotTable : List (Fin 36) := [0, 1, 2, 6, 7, 8, 12, 13, 14, 18, 19, 20, 24, 25, 26, 30, 31, 32]

/-- `CH[c].OPS[0] = CH_SLOT[c]` (R12). -/
def slot0 (c : Fin 18) : Fin 36 := chSlotTable.getD c.val 0

/-- `CH[c].OPS[1] = CH_SLOT[c] + 3` (R12). -/
def slot1 (c : Fin 18) : Fin 36 := Fin.ofNat 36 ((slot0 c).val + 3)

/-- `CHAN(o)`, the channel that owns operator `o` (R12). -/
def chanOf (o : Fin 36) : Fin 18 :=
  let j := o.val % 18
  Fin.ofNat 18 (9 * (o.val / 18) + 3 * (j / 6) + j % 3)

/-- `PAIR(c)` (R13). Channels 6, 7, 8 of a bank have no pair; the rule's "null/self-referential otherwise" is read as the
channel itself (log 9). -/
def pairOf (c : Fin 18) : Fin 18 :=
  if c.val % 9 < 3 then Fin.ofNat 18 (c.val + 3)
  else if c.val % 9 < 6 then Fin.ofNat 18 (c.val - 3)
  else c

/-- `SrcValue(s)` (R186), read at the moment of use. -/
def srcValue (c : Chip) : Source → Int
  | .zero => 0
  | .fb j => (c.op j).fbmod.toInt
  | .out j => (c.op j).out.toInt

/-- `ModValue(o)` (R186). -/
def modValue (c : Chip) (o : Fin 36) : Int := srcValue c (c.op o).modsrc

/-- `TapValue(c, 0) + ... + TapValue(c, 3)` (R186, R191). -/
def tapSum (c : Chip) (i : Fin 18) : Int :=
  let t := (c.ch i).tap
  srcValue c t.a + srcValue c t.b + srcValue c t.c + srcValue c t.d

end Sys2Proof.Machine
end

