-- ==== Sys2Proof/Machine/Flags.lean ====
section
/-! DEFINITION. The block has no condition codes (10_state.md R28). What acts as flags between its parts is here: the key bits
and the derived values that a register write recomputes (40_register_writes.md R98, R110, R111). -/

namespace Sys2Proof.Machine

/-- An operator is keyed when either key bit is set (R98, 41_envelope.md R122). -/
def Operator.keyed (op : Operator) : Bool := op.key != 0

/-- `KEY[0] <- v` (R98). -/
def setNormalKey (v : Bool) (op : Operator) : Operator :=
  { op with key := (op.key &&& 0b10) ||| (if v then 0b01 else 0b00) }

/-- `KEY[1] <- v` (42_phase_noise_rhythm.md R152). -/
def setRhythmKey (v : Bool) (op : Operator) : Operator :=
  { op with key := (op.key &&& 0b01) ||| (if v then 0b10 else 0b00) }

/-- `KeySet(c, v)` (R98). -/
def keySet (i : Fin 18) (v : Bool) (c : Chip) : Chip :=
  let two := fun (c : Chip) (i : Fin 18) => (c.modOp (slot0 i) (setNormalKey v)).modOp (slot1 i) (setNormalKey v)
  if c.reg.newm then
    match (c.ch i).chtype with
    | .t4opA => two (two c i) (pairOf i)
    | .t2op | .tdrum => two c i
    | .t4opB => c
  else two c i

/-- The value `UpdateKSV` gives (R110): `(BLOCK << 1) OR F_NUM[9 - NTS]`. -/
def ksvOf (nts : Bool) (ch : Channel) : BitVec 4 :=
  BitVec.ofNat 4 (2 * ch.block.toNat + bitNat (ch.fNum.getLsbD (if nts then 8 else 9)))

/-- `UpdateKSV(c)` (R110). -/
def updateKsv (i : Fin 18) (c : Chip) : Chip := c.modCh i fun ch => { ch with ksv := ksvOf c.reg.nts ch }

/-- The value `UpdateKSL` gives (R111): `(KSL_ROM[F_NUM[9:6]] << 2) - ((8 - BLOCK) << 5)`, 0 if negative. -/
def kslOf (ch : Channel) : BitVec 8 :=
  let k : Int := ((kslRom (ch.fNum.extractLsb' 6 4) <<< 2 : Nat) : Int) - (((8 - ch.block.toNat) <<< 5 : Nat) : Int)
  BitVec.ofInt 8 (if k < 0 then 0 else k)

/-- `UpdateKSL(o)` (R111). -/
def updateKsl (o : Fin 36) (c : Chip) : Chip := c.modOp o fun op => { op with egKsl := kslOf (c.ch (chanOf o)) }

/-- `FreqFollow(c, with_block)` (R102). -/
def freqFollow (i : Fin 18) (withBlock : Bool) (c : Chip) : Chip :=
  let c := updateKsl (slot1 i) (updateKsl (slot0 i) (updateKsv i c))
  if c.reg.newm ∧ (c.ch i).chtype = .t4opA then
    let ch := c.ch i
    let p := pairOf i
    let c := c.modCh p fun q =>
      { q with fNum := ch.fNum, block := if withBlock then ch.block else q.block, ksv := ch.ksv }
    updateKsl (slot1 p) (updateKsl (slot0 p) c)
  else c

end Sys2Proof.Machine
end

