-- ==== Sys2Proof/Machine/Envelope.lean ====
section
/-! DEFINITION. The envelope generator (41_envelope.md R120 to R131), one function per rule; each reads the operator as it
stands at the start of the sub-step. -/

namespace Sys2Proof.Machine

/-- The output level (R121), from the level before this tick's update. -/
def egLevelOut (g : Oscillators) (op : Operator) : BitVec 16 :=
  BitVec.ofNat 16
    (op.egRout.toNat + (op.regTl.toNat <<< 2) + (op.egKsl.toNat >>> kslShift op.regKsl)
      + (if op.regTrem then g.tremolo.toNat else 0))

/-- The key-on reset (R122): keyed while in Release. -/
def egResetting (op : Operator) : Bool := op.keyed && op.egGen == .release

/-- The register rate that applies (R122). -/
def egRegRate (op : Operator) : BitVec 4 :=
  if egResetting op then op.regAr
  else
    match op.egGen with
    | .attack => op.regAr
    | .decay => op.regDr
    | .sustain => if op.regType then 0 else op.regRr
    | .release => op.regRr

/-- `rate = ks + (reg_rate << 2)` (R123). -/
def egRateSum (ksv : BitVec 4) (op : Operator) : Nat :=
  (ksv.toNat >>> (if op.regKsr then 0 else 2)) + ((egRegRate op).toNat <<< 2)

/-- `rate_hi`, saturated at 15 (R123). -/
def egRateHi (ksv : BitVec 4) (op : Operator) : Nat :=
  let hi := egRateSum ksv op >>> 2
  if hi ≥ 16 then 15 else hi

/-- `rate_lo`, 3 where `rate_hi` saturates (R123). -/
def egRateLo (ksv : BitVec 4) (op : Operator) : Nat :=
  if egRateSum ksv op >>> 2 ≥ 16 then 3 else egRateSum ksv op % 4

/-- The step size of the fine regime (R124). -/
def egShiftFine (g : Oscillators) (hi lo : Nat) : Nat :=
  if g.egState then
    match hi + g.egAdd.toNat with
    | 12 => 1
    | 13 => lo / 2 % 2
    | 14 => lo % 2
    | _ => 0
  else 0

/-- The step size of the coarse regime (R125). -/
def egShiftCoarse (p : Params) (g : Oscillators) (hi lo : Nat) : Nat :=
  let sub := if p.egSubstepFromEgTimer then g.egTimer.toNat % 4 else g.timer.toNat % 4
  let shift := hi % 4 + egIncstep lo sub
  if shift = 4 then 3 else if shift = 0 then bitNat g.egState else shift

/-- The step size `shift`, 0 to 3 (R123 to R125). -/
def egShift (p : Params) (g : Oscillators) (ksv : BitVec 4) (op : Operator) : Nat :=
  if egRegRate op = 0 then 0
  else if egRateHi ksv op < 12 then egShiftFine g (egRateHi ksv op) (egRateLo ksv op)
  else egShiftCoarse p g (egRateHi ksv op) (egRateLo ksv op)

/-- `eg_off` (R127): the six top bits of the level are all 1. -/
def egOff (op : Operator) : Bool := op.egRout &&& 0x1F8 == 0x1F8

/-- `base` (R126, R127). -/
def egBase (ksv : BitVec 4) (op : Operator) : Int :=
  if op.egGen ≠ .attack ∧ ¬egResetting op ∧ egOff op then (egMax.toNat : Int)
  else if egResetting op ∧ egRateHi ksv op = 15 then 0
  else (op.egRout.toNat : Int)

/-- `inc` (R128 to R130). -/
def egInc (p : Params) (g : Oscillators) (ksv : BitVec 4) (op : Operator) : Int :=
  let shift := egShift p g ksv op
  let r : Int := (op.egRout.toNat : Int)
  match op.egGen with
  | .attack =>
    if op.egRout = 0 then 0
    else if op.keyed ∧ shift > 0 ∧ egRateHi ksv op ≠ 15 then (-r - 1) >>> (4 - shift)
    else 0
  | .decay =>
    if op.egRout.toNat >>> 4 = op.regSl.toNat then 0
    else if ¬egOff op ∧ ¬egResetting op ∧ shift > 0 then ((1 <<< (shift - 1) : Nat) : Int)
    else 0
  | .sustain | .release =>
    if ¬egOff op ∧ ¬egResetting op ∧ shift > 0 then ((1 <<< (shift - 1) : Nat) : Int)
    else 0

/-- The new level (R131): `(base + inc) AND 0x1FF`. -/
def egLevelNext (p : Params) (g : Oscillators) (ksv : BitVec 4) (op : Operator) : BitVec 9 :=
  BitVec.ofInt 9 (egBase ksv op + egInc p g ksv op)

/-- The new state (R128, R129, R131): an unkeyed operator is in Release whatever else holds. -/
def egGenNext (op : Operator) : EgGen :=
  if ¬op.keyed then .release
  else if egResetting op then .attack
  else
    match op.egGen with
    | .attack => if op.egRout = 0 then .decay else .attack
    | .decay => if op.egRout.toNat >>> 4 = op.regSl.toNat then .sustain else .decay
    | .sustain => .sustain
    | .release => .release

/-- What `EnvelopeStep` makes of its operator (R120). -/
def envelopeOp (p : Params) (g : Oscillators) (ksv : BitVec 4) (op : Operator) : Operator :=
  { op with
    egOut := egLevelOut g op
    pgReset := egResetting op
    egRout := egLevelNext p g ksv op
    egGen := egGenNext op }

/-- `EnvelopeStep(o)` (R120). -/
def envelopeStep (p : Params) (o : Fin 36) (c : Chip) : Chip :=
  c.modOp o (envelopeOp p c.osc (c.ch (chanOf o)).ksv)

end Sys2Proof.Machine
end

