-- ==== Sys2Proof/Machine/Mixer.lean ====
section
/-! DEFINITION. The channel mixer (45_mixer_lfo.md R191 to R193). -/

namespace Sys2Proof.Machine

/-- `ChanSum(c)` (R191). -/
def chanSum (c : Chip) (i : Fin 18) : Int := (wrapS16 (tapSum c i)).toInt

/-- A channel's part of a front lane (R192): panned with stereo extension, masked without. -/
def frontPart (c : Chip) (pan : Channel → BitVec 17) (enable : Channel → Bool) (i : Fin 18) : Int :=
  let s := chanSum c i
  if c.reg.stereoext then (wrapS16 ((s * ((pan (c.ch i)).toNat : Int)) >>> 16)).toInt
  else if enable (c.ch i) then s else 0

/-- A channel's part of a rear lane (R192): always masked. -/
def rearPart (c : Chip) (enable : Channel → Bool) (i : Fin 18) : Int := if enable (c.ch i) then chanSum c i else 0

/-- The sum over the channels, ascending (R192). -/
def laneSum (part : Fin 18 → Int) : Int := allChs.foldl (fun a i => a + part i) 0

/-- The lane sums of the block as it stands (R192), as stored in `MIX`. -/
def laneSums (c : Chip) : Quad S32 :=
  ⟨BitVec.ofInt 32 (laneSum (frontPart c Channel.leftpan Channel.cha)),
   BitVec.ofInt 32 (laneSum (frontPart c Channel.rightpan Channel.chb)),
   BitVec.ofInt 32 (laneSum (rearPart c Channel.chc)),
   BitVec.ofInt 32 (laneSum (rearPart c Channel.chd))⟩

/-- `OUTP[k] <- clip16(MIX[k])` for one lane (R193). -/
def clipLane (m : S32) : S16 := wrapS16 (clip16 m.toInt)

/-- `MixAll()` (R192, R193). -/
def mixAll (c : Chip) : Chip :=
  let m := laneSums c
  { c with mix := m, outp := m.map clipLane }

end Sys2Proof.Machine
end

