-- ==== Sys2Proof/Machine/Phase.lean ====
section
/-! DEFINITION. The phase generator, vibrato, the noise register and the rhythm phase override (42_phase_noise_rhythm.md R140 to
R150). -/

namespace Sys2Proof.Machine

/-- `NoiseStep()` (R146): taps 0 and 14, shifted right, the new bit at 22. -/
def noiseNext (n : BitVec 23) : BitVec 23 := (n >>> 1) ||| ((n ^^^ (n >>> 14)) <<< 22)

/-- The vibrato's change of the frequency number (R143), with the vibrato enable set. -/
def vibratoRange (vibpos : BitVec 3) (vibshift : BitVec 1) (fNum : BitVec 10) : Int :=
  let r := (fNum.extractLsb' 7 3).toNat
  let r := if vibpos.extractLsb' 0 2 = 0 then 0 else if vibpos.getLsbD 0 then r >>> 1 else r
  let r := r >>> vibshift.toNat
  if vibpos.getLsbD 2 then -(r : Int) else (r : Int)

/-- The vibrato-adjusted frequency number (R143). -/
def adjustedFnum (g : Oscillators) (vibshift : BitVec 1) (ch : Channel) (op : Operator) : BitVec 16 :=
  if op.regVib then BitVec.ofInt 16 ((ch.fNum.toNat : Int) + vibratoRange g.vibpos vibshift ch.fNum)
  else ch.fNum.setWidth 16

/-- The phase increment (R142): `(((f << BLOCK) >> 1) * MT[REG_MULT]) >> 1`. -/
def phaseIncr (g : Oscillators) (vibshift : BitVec 1) (ch : Channel) (op : Operator) : Nat :=
  let base := ((adjustedFnum g vibshift ch op).toNat <<< ch.block.toNat) >>> 1
  (base * mtTable op.regMult) >>> 1

/-- `phase16` (R144, R145): bits 24 to 9 of the accumulator at entry. -/
def phase16 (op : Operator) : BitVec 16 := op.pgPhase.extractLsb' 9 16

/-- The accumulator after the sub-step (R144): zeroed on a reset, then advanced; 32 bits, wrapping. -/
def phaseNext (incr : Nat) (op : Operator) : BitVec 32 :=
  (if op.pgReset then 0 else op.pgPhase) + BitVec.ofNat 32 incr

/-- The rhythm latches after operator `o`'s phase computation (R149). -/
def latchNext (o : Fin 36) (rhythm : Bool) (ph : BitVec 16) (l : RhythmLatches) : RhythmLatches :=
  if o = 13 then
    { l with hh2 := ph.getLsbD 2, hh3 := ph.getLsbD 3, hh7 := ph.getLsbD 7, hh8 := ph.getLsbD 8 }
  else if o = 17 ∧ rhythm then { l with tc3 := ph.getLsbD 3, tc5 := ph.getLsbD 5 }
  else l

/-- `PG_PHASE_OUT` (R145, R150): `phase16`, but for operators 13, 16 and 17 in rhythm mode, where the parameter RHYTHM_PHASE
gives it from the latches and `n`, `NOISE[0]`. -/
def phaseOut (p : Params) (o : Fin 36) (rhythm : Bool) (l : RhythmLatches) (n : Bool) (ph : BitVec 16) : BitVec 16 :=
  if rhythm ∧ (o = 13 ∨ o = 16 ∨ o = 17) then p.rhythmPhase o l n else ph

/-- `PhaseStep(o)` (R140). -/
def phaseStep (p : Params) (o : Fin 36) (c : Chip) : Chip :=
  let op := c.op o
  let rhythm := c.reg.rhy.getLsbD 5
  let ph := phase16 op
  let incr := phaseIncr c.osc c.reg.vibshift (c.ch (chanOf o)) op
  let l := latchNext o rhythm ph c.latch
  let c := { c with latch := l }
  let c := c.setOp o
    { op with
      pgPhase := phaseNext incr op
      pgPhaseOut := phaseOut p o rhythm l (c.osc.noise.getLsbD 0) ph }
  if p.noisePerOperator then { c with osc := { c.osc with noise := noiseNext c.osc.noise } } else c

end Sys2Proof.Machine
end

