-- ==== Sys2Proof/Machine/OscStep.lean ====
section
/-! DEFINITION. The chip-global oscillators, phase 3 of a tick (45_mixer_lfo.md R200 to R205), in the order of R190. -/

namespace Sys2Proof.Machine

/-- `TremoloStep()` (R201), on the timer before its increment. -/
def tremoloStep (tremshift : BitVec 3) (g : Oscillators) : Oscillators :=
  let pos := if g.timer.toNat % 64 = 63 then (g.trempos.toNat + 1) % 210 else g.trempos.toNat
  let t := if pos < 105 then pos else 210 - pos
  { g with trempos := BitVec.ofNat 8 pos, tremolo := BitVec.ofNat 8 (t >>> tremshift.toNat) }

/-- `VibratoStep()` (R202), on the timer before its increment. -/
def vibratoStep (g : Oscillators) : Oscillators :=
  { g with vibpos := if g.timer.toNat % 1024 = 1023 then g.vibpos + 1 else g.vibpos }

/-- `TIMER <- wrap_u16(TIMER + 1)` (R203). -/
def timerStep (g : Oscillators) : Oscillators := { g with timer := g.timer + 1 }

/-- `lsb_index(v)` (00_scope.md section 6) for `v > 0` below `2 ^ fuel`. -/
def lsbIndex : Nat → Nat → Nat
  | 0, _ => 0
  | fuel + 1, v => if v % 2 = 1 then 0 else lsbIndex fuel (v / 2) + 1

/-- `EgAddStep()` (R204), on the envelope timer before R205 changes it. -/
def egAddStep (g : Oscillators) : Oscillators :=
  let s := lsbIndex 36 g.egTimer.toNat
  { g with egAdd := if g.egTimer = 0 then 0 else if s > 12 then 0 else BitVec.ofNat 4 (s + 1) }

/-- `EgTimerStep()` (R205). -/
def egTimerStep (g : Oscillators) : Oscillators :=
  let g :=
    if g.egTimerrem ∨ g.egState then
      if g.egTimer = 0xFFFFFFFFF then { g with egTimer := 0, egTimerrem := true }
      else { g with egTimer := g.egTimer + 1, egTimerrem := false }
    else g
  { g with egState := !g.egState }

/-- `NoiseStep()` in its place of R200, unless the parameter moves it into the operator loop (R147). -/
def noiseStep (p : Params) (g : Oscillators) : Oscillators :=
  if p.noisePerOperator then g else { g with noise := noiseNext g.noise }

/-- The oscillator part of phase 3 (R190). -/
def oscStep (p : Params) (tremshift : BitVec 3) (g : Oscillators) : Oscillators :=
  egTimerStep (egAddStep (timerStep (vibratoStep (tremoloStep tremshift (noiseStep p g)))))

end Sys2Proof.Machine
end

