-- ==== Sys2Proof/Syntax.lean ====
section
/-! DEFINITION. The commands of the block: one constructor per mnemonic of spec/opcode_table.json (30_encoding.md R60, R62,
R84). A `WR` is split by the class of its address; the operator or channel its address selects is the operand. -/

namespace Sys2Proof

/-- The instruction set. `o` is an operator number (0 to 35, R64), `c` a channel number (0 to 17, R65), `data` the byte
written, `addr` a register address. -/
inductive Instr where
  /-- WR 0x008: note select (R91) -/
  | wrNts (data : Byte)
  /-- WR 0x104: four-operator enable mask (R92) -/
  | wr4op (data : Byte)
  /-- WR 0x105: new mode and stereo extension (R93) -/
  | wrMode (data : Byte)
  /-- WR 0x0BD: LFO depths, rhythm mode, drum keys (R99) -/
  | wrBd (data : Byte)
  /-- WR 0x20 class: operator control (R94) -/
  | wrOp20 (o : Fin 36) (data : Byte)
  /-- WR 0x40 class: key-scale level, total level (R95) -/
  | wrOp40 (o : Fin 36) (data : Byte)
  /-- WR 0x60 class: attack and decay rate (R104) -/
  | wrOp60 (o : Fin 36) (data : Byte)
  /-- WR 0x80 class: sustain level, release rate (R105) -/
  | wrOp80 (o : Fin 36) (data : Byte)
  /-- WR 0xE0 class: waveform select (R106) -/
  | wrOpe0 (o : Fin 36) (data : Byte)
  /-- WR 0xA0 class: frequency number, low byte (R96) -/
  | wrCha0 (c : Fin 18) (data : Byte)
  /-- WR 0xB0 class: key-on, block, frequency number high bits (R97) -/
  | wrChb0 (c : Fin 18) (data : Byte)
  /-- WR 0xC0 class: output enables, feedback, connection (R100) -/
  | wrChc0 (c : Fin 18) (data : Byte)
  /-- WR 0xD0 class: stereo-extension pan (R101) -/
  | wrChd0 (c : Fin 18) (data : Byte)
  /-- WR to an unmapped address: ignored (R103) -/
  | wrIgn (addr : Addr) (data : Byte)
  /-- WRB: buffered write to any address (R107) -/
  | wrb (addr : Addr) (data : Byte)
  /-- TICK: one native sample (R108) -/
  | tick
  /-- TICKR: one output-rate sample (R113) -/
  | tickr
  /-- RESET rate (R112) -/
  | reset (rate : BitVec 22)
  /-- STREAM n: n output-rate samples (R109) -/
  | stream (n : BitVec 28)
deriving DecidableEq, Repr

end Sys2Proof
end

