-- ==== Sys2Proof/WellFormed.lean ====
section
/-! DEFINITION. Which terms of `Instr` are commands. Operand ranges are in the types; the one check left is that `wrIgn` names
an address the map of 20_memory.md R48 leaves unmapped. The map is written here as R48 tables it, independently of the
decision list of the decoder. -/

namespace Sys2Proof

/-- The low byte `r` lies in an operator class with base `base`: base+0..5, base+8..0xD, base+0x10..0x15 (R48). -/
def inOperatorRange (base r : Nat) : Bool :=
  (base ≤ r && r ≤ base + 0x05) || (base + 0x08 ≤ r && r ≤ base + 0x0D) || (base + 0x10 ≤ r && r ≤ base + 0x15)

/-- The low byte `r` lies in a channel class with base `base`: base+0..8 (R48). -/
def inChannelRange (base r : Nat) : Bool := base ≤ r && r ≤ base + 8

/-- The address is in the table of 20_memory.md R48. -/
def mapped (a : Addr) : Bool :=
  let n := a.toNat
  let r := n % 256
  n == 0x008 || n == 0x104 || n == 0x105 || n == 0x0BD
    || inOperatorRange 0x20 r || inOperatorRange 0x40 r || inOperatorRange 0x60 r || inOperatorRange 0x80 r
    || inOperatorRange 0xE0 r
    || inChannelRange 0xA0 r || inChannelRange 0xB0 r || inChannelRange 0xC0 r || inChannelRange 0xD0 r

/-- The term is a command of the block. -/
def Instr.wf : Instr → Bool
  | .wrIgn addr _ => !mapped addr
  | .wrNts _ | .wr4op _ | .wrMode _ | .wrBd _ => true
  | .wrOp20 _ _ | .wrOp40 _ _ | .wrOp60 _ _ | .wrOp80 _ _ | .wrOpe0 _ _ => true
  | .wrCha0 _ _ | .wrChb0 _ _ | .wrChc0 _ _ | .wrChd0 _ _ => true
  | .wrb _ _ | .tick | .tickr | .reset _ | .stream _ => true

end Sys2Proof
end

