-- ==== Sys2Proof/Decode.lean ====
section
/-! DEFINITION. Decoding of a command word (30_encoding.md R60 to R65), total, rejecting by name; the encoder, from the same
layouts; and spec/opcode_table.json as data (R84). -/

namespace Sys2Proof

/-- Why a word is no command (60_exceptions.md R238, RF4). -/
inductive DecodeError where
  /-- `W[31:28]` is 6 to 15 -/
  | unknownKind (kind : BitVec 4)
  /-- a bit R60 says must be 0 is not -/
  | mustBeZero
deriving DecidableEq, Repr

/-- The class of a register address with the operator or channel it selects (R62, R64, R65). -/
inductive RegClass where
  | nts | fourOp | mode | bd
  | op20 (o : Fin 36) | op40 (o : Fin 36) | op60 (o : Fin 36) | op80 (o : Fin 36) | ope0 (o : Fin 36)
  | cha0 (c : Fin 18) | chb0 (c : Fin 18) | chc0 (c : Fin 18) | chd0 (c : Fin 18)
  | ign
deriving DecidableEq, Repr

/-- `AD_SLOT` (R63), first half. -/
def adSlotLow : List (Option (Fin 18)) :=
  [some 0, some 1, some 2, some 3, some 4, some 5, none, none] ++
  [some 6, some 7, some 8, some 9, some 10, some 11, none, none]

/-- `AD_SLOT` (R63), second half. -/
def adSlotHigh : List (Option (Fin 18)) :=
  [some 12, some 13, some 14, some 15, some 16, some 17, none, none] ++
  [none, none, none, none, none, none, none, none]

/-- `AD_SLOT[slot5]` (R63). -/
def adSlot (slot5 : BitVec 5) : Option (Fin 18) := (adSlotLow ++ adSlotHigh).getD slot5.toNat none

/-- `o = 18 * bank + slot` (R64). -/
def operatorOf (bank : Bool) (slot : Fin 18) : Fin 36 := Fin.ofNat 36 (18 * bitNat bank + slot.val)

/-- `c = 9 * bank + chn` (R65). -/
def channelOf (bank : Bool) (chn : Nat) : Fin 18 := Fin.ofNat 18 (9 * bitNat bank + chn)

/-- The operator class of the block nibble (R62). -/
def operatorClass (blk : Nat) (o : Fin 36) : RegClass :=
  if blk = 0x2 ∨ blk = 0x3 then .op20 o
  else if blk = 0x4 ∨ blk = 0x5 then .op40 o
  else if blk = 0x6 ∨ blk = 0x7 then .op60 o
  else if blk = 0x8 ∨ blk = 0x9 then .op80 o
  else .ope0 o

/-- `Classify(addr)`, the decision list of R62 in its order. -/
def classify (addr : Addr) : RegClass :=
  let bank := addr.getLsbD 8
  let reg := (addr.extractLsb' 0 8).toNat
  let blk := (addr.extractLsb' 4 4).toNat
  let chn := (addr.extractLsb' 0 4).toNat
  if blk = 0x0 then
    if bank ∧ chn = 4 then .fourOp
    else if bank ∧ chn = 5 then .mode
    else if ¬bank ∧ chn = 8 then .nts
    else .ign
  else if (0x2 ≤ blk ∧ blk ≤ 0x9) ∨ blk = 0xE ∨ blk = 0xF then
    match adSlot (addr.extractLsb' 0 5) with
    | none => .ign
    | some slot => operatorClass blk (operatorOf bank slot)
  else if blk = 0xA then
    if chn < 9 then .cha0 (channelOf bank chn) else .ign
  else if blk = 0xB then
    if reg = 0xBD ∧ ¬bank then .bd
    else if chn < 9 then .chb0 (channelOf bank chn) else .ign
  else if blk = 0xC then
    if chn < 9 then .chc0 (channelOf bank chn) else .ign
  else if blk = 0xD then
    if chn < 9 then .chd0 (channelOf bank chn) else .ign
  else .ign

/-- The `WR` command for an address and a byte (R90: `WR` by the class of its address). -/
def decodeWrite (addr : Addr) (data : Byte) : Instr :=
  match classify addr with
  | .nts => .wrNts data
  | .fourOp => .wr4op data
  | .mode => .wrMode data
  | .bd => .wrBd data
  | .op20 o => .wrOp20 o data
  | .op40 o => .wrOp40 o data
  | .op60 o => .wrOp60 o data
  | .op80 o => .wrOp80 o data
  | .ope0 o => .wrOpe0 o data
  | .cha0 c => .wrCha0 c data
  | .chb0 c => .wrChb0 c data
  | .chc0 c => .wrChc0 c data
  | .chd0 c => .wrChd0 c data
  | .ign => .wrIgn addr data

/-- Decoding a command word (R60, R61): the kind in `W[31:28]`, then the operand bits and the bits that must be 0. -/
def decode (w : Word) : Except DecodeError Instr :=
  let kind := w.extractLsb' 28 4
  let addr := w.extractLsb' 8 9
  let data := w.extractLsb' 0 8
  if kind = 0 then
    if w.extractLsb' 17 11 = 0 then .ok (decodeWrite addr data) else .error .mustBeZero
  else if kind = 1 then
    if w.extractLsb' 17 11 = 0 then .ok (.wrb addr data) else .error .mustBeZero
  else if kind = 2 then
    if w.extractLsb' 0 28 = 0 then .ok .tick else .error .mustBeZero
  else if kind = 3 then
    if w.extractLsb' 0 28 = 0 then .ok .tickr else .error .mustBeZero
  else if kind = 4 then
    if w.extractLsb' 22 6 = 0 then .ok (.reset (w.extractLsb' 0 22)) else .error .mustBeZero
  else if kind = 5 then .ok (.stream (w.extractLsb' 0 28))
  else .error (.unknownKind kind)

/-- The word whose bits are `w`, the `nbits` the table gives and 0 above them. -/
def tableWord (nbits w : Nat) : Word := BitVec.ofNat 32 (w % 2 ^ nbits)

/-- The instruction the decoder reads from an instruction whose bits are `w` (every row of spec/opcode_table.json is one
32-bit command word). -/
def decodeTableWord (nbits w : Nat) : Option Instr :=
  match decode (tableWord nbits w) with
  | .ok i => some i
  | .error _ => none

/-! ### The encoder -/

/-- Format REG: kind, address and data (R60). -/
def regWord (kind : BitVec 4) (addr : Addr) (data : Byte) : Word := kind ++ (0 : BitVec 11) ++ addr ++ data

/-- The address of operator `o` in the class with low byte `base` (R63, R64, read backwards). -/
def operatorAddr (base : Nat) (o : Fin 36) : Addr :=
  let slot := o.val % 18
  BitVec.ofNat 9 (0x100 * (o.val / 18) + base + slot + 2 * (slot / 6))

/-- The address of channel `c` in the class with low byte `base` (R65, read backwards). -/
def channelAddr (base : Nat) (c : Fin 18) : Addr := BitVec.ofNat 9 (0x100 * (c.val / 9) + base + c.val % 9)

/-- The command word of an instruction (R60, R61). -/
def encode : Instr → Word
  | .wrNts d => regWord 0 0x008 d
  | .wr4op d => regWord 0 0x104 d
  | .wrMode d => regWord 0 0x105 d
  | .wrBd d => regWord 0 0x0BD d
  | .wrOp20 o d => regWord 0 (operatorAddr 0x20 o) d
  | .wrOp40 o d => regWord 0 (operatorAddr 0x40 o) d
  | .wrOp60 o d => regWord 0 (operatorAddr 0x60 o) d
  | .wrOp80 o d => regWord 0 (operatorAddr 0x80 o) d
  | .wrOpe0 o d => regWord 0 (operatorAddr 0xE0 o) d
  | .wrCha0 c d => regWord 0 (channelAddr 0xA0 c) d
  | .wrChb0 c d => regWord 0 (channelAddr 0xB0 c) d
  | .wrChc0 c d => regWord 0 (channelAddr 0xC0 c) d
  | .wrChd0 c d => regWord 0 (channelAddr 0xD0 c) d
  | .wrIgn a d => regWord 0 a d
  | .wrb a d => regWord 1 a d
  | .tick => (2 : BitVec 4) ++ (0 : BitVec 28)
  | .tickr => (3 : BitVec 4) ++ (0 : BitVec 28)
  | .reset rate => (4 : BitVec 4) ++ (0 : BitVec 6) ++ rate
  | .stream n => (5 : BitVec 4) ++ n

/-! ### The opcode table (R84) -/

/-- The mnemonic of an instruction, as spec/opcode_table.json spells it. -/
def mnemonic : Instr → String
  | .wrNts _ => "WR_NTS"
  | .wr4op _ => "WR_4OP"
  | .wrMode _ => "WR_MODE"
  | .wrBd _ => "WR_BD"
  | .wrOp20 _ _ => "WR_OP20"
  | .wrOp40 _ _ => "WR_OP40"
  | .wrOp60 _ _ => "WR_OP60"
  | .wrOp80 _ _ => "WR_OP80"
  | .wrOpe0 _ _ => "WR_OPE0"
  | .wrCha0 _ _ => "WR_CHA0"
  | .wrChb0 _ _ => "WR_CHB0"
  | .wrChc0 _ _ => "WR_CHC0"
  | .wrChd0 _ _ => "WR_CHD0"
  | .wrIgn _ _ => "WR_IGN"
  | .wrb _ _ => "WRB"
  | .tick => "TICK"
  | .tickr => "TICKR"
  | .reset _ => "RESET"
  | .stream _ => "STREAM"

/-- One row of spec/opcode_table.json: a word `W` selects it when `W AND mask = pattern` (R84; the table's `match`). -/
structure OpcodeRow where
  mnemonic : String
  pattern : Word
  mask : Word
deriving DecidableEq, Repr

/-- The row is selected by the word. -/
def OpcodeRow.selects (r : OpcodeRow) (w : Word) : Bool := w &&& r.mask == r.pattern

/-- The rows of one mnemonic. -/
def rowsOf (m : String) (l : List (Word × Word)) : List OpcodeRow := l.map fun p => ⟨m, p.1, p.2⟩

/-- The 67 rows of spec/opcode_table.json. -/
def opcodeTable : List OpcodeRow :=
  rowsOf "WR_NTS" [
    (0x00000800, 0xFFFFFF00)] ++
  rowsOf "WR_4OP" [
    (0x00010400, 0xFFFFFF00)] ++
  rowsOf "WR_MODE" [
    (0x00010500, 0xFFFFFF00)] ++
  rowsOf "WR_BD" [
    (0x0000BD00, 0xFFFFFF00)] ++
  rowsOf "WR_OP20" [
    (0x00002000, 0xFFFEF400), (0x00002400, 0xFFFEF600), (0x00003000, 0xFFFEFC00), (0x00003400, 0xFFFEFE00)] ++
  rowsOf "WR_OP40" [
    (0x00004000, 0xFFFEF400), (0x00004400, 0xFFFEF600), (0x00005000, 0xFFFEFC00), (0x00005400, 0xFFFEFE00)] ++
  rowsOf "WR_OP60" [
    (0x00006000, 0xFFFEF400), (0x00006400, 0xFFFEF600), (0x00007000, 0xFFFEFC00), (0x00007400, 0xFFFEFE00)] ++
  rowsOf "WR_OP80" [
    (0x00008000, 0xFFFEF400), (0x00008400, 0xFFFEF600), (0x00009000, 0xFFFEFC00), (0x00009400, 0xFFFEFE00)] ++
  rowsOf "WR_OPE0" [
    (0x0000E000, 0xFFFEF400), (0x0000E400, 0xFFFEF600), (0x0000F000, 0xFFFEFC00), (0x0000F400, 0xFFFEFE00)] ++
  rowsOf "WR_CHA0" [
    (0x0000A000, 0xFFFEF800), (0x0000A800, 0xFFFEFF00)] ++
  rowsOf "WR_CHB0" [
    (0x0000B000, 0xFFFEF800), (0x0000B800, 0xFFFEFF00)] ++
  rowsOf "WR_CHC0" [
    (0x0000C000, 0xFFFEF800), (0x0000C800, 0xFFFEFF00)] ++
  rowsOf "WR_CHD0" [
    (0x0000D000, 0xFFFEF800), (0x0000D800, 0xFFFEFF00)] ++
  rowsOf "WR_IGN" [
    (0x00000000, 0xFFFFF800), (0x00000900, 0xFFFFFF00), (0x00000A00, 0xFFFFFE00), (0x00000C00, 0xFFFFFC00),
    (0x00001000, 0xFFFEF000), (0x00002600, 0xFFFEF600), (0x00003600, 0xFFFEFE00), (0x00003800, 0xFFFEF800),
    (0x00004600, 0xFFFED600), (0x00005600, 0xFFFEDE00), (0x00005800, 0xFFFED800), (0x00008600, 0xFFFEF600),
    (0x00009600, 0xFFFEFE00), (0x00009800, 0xFFFEF800), (0x0000A900, 0xFFFEEF00), (0x0000AA00, 0xFFFFFE00),
    (0x0000AC00, 0xFFFFFC00), (0x0000BA00, 0xFFFFFA00), (0x0000BC00, 0xFFFFFF00), (0x0000C900, 0xFFFEEF00),
    (0x0000CA00, 0xFFFEEE00), (0x0000CC00, 0xFFFEEC00), (0x0000E600, 0xFFFEF600), (0x0000F600, 0xFFFEFE00),
    (0x0000F800, 0xFFFEF800), (0x00010000, 0xFFFFFC00), (0x00010600, 0xFFFFFE00), (0x00010800, 0xFFFFF800),
    (0x0001AA00, 0xFFFFEE00), (0x0001AC00, 0xFFFFEC00)] ++
  rowsOf "WRB" [
    (0x10000000, 0xFFFE0000)] ++
  rowsOf "TICK" [
    (0x20000000, 0xFFFFFFFF)] ++
  rowsOf "TICKR" [
    (0x30000000, 0xFFFFFFFF)] ++
  rowsOf "RESET" [
    (0x40000000, 0xFFC00000)] ++
  rowsOf "STREAM" [
    (0x50000000, 0xF0000000)]

end Sys2Proof
end

