-- ==== Sys2Proof/Machine/Router.lean ====
section
/-! DEFINITION. The modulation router (44_router.md R175 to R185): the algorithm code of a channel and the wiring it implies.
It runs only inside register writes and RESET. -/

namespace Sys2Proof.Machine

/-- `4 + 2 * CON(4OP-A) + CON(4OP-B)` (R176). -/
def mergedAlg (conA conB : Bool) : Alg :=
  match conA, conB with
  | false, false => .four4
  | false, true => .four5
  | true, false => .four6
  | true, true => .four7

/-- `MODSRC[o] <- s`. -/
def setModsrc (o : Fin 36) (s : Source) (c : Chip) : Chip := c.modOp o fun op => { op with modsrc := s }

/-- `CH[i].TAP <- t`. -/
def setTap (i : Fin 18) (t : Quad Source) (c : Chip) : Chip := c.modCh i fun ch => { ch with tap := t }

/-- `CH[i].ALG <- x`. -/
def setAlgCode (i : Fin 18) (x : Alg) (c : Chip) : Chip := c.modCh i fun ch => { ch with alg := x }

/-- Two-operator wiring (R178): serial for code 0, parallel for code 1. -/
def wireTwo (i : Fin 18) (parallel : Bool) (c : Chip) : Chip :=
  let s0 := slot0 i
  let s1 := slot1 i
  let c := setModsrc s0 (.fb s0) c
  if parallel then setTap i ⟨.out s0, .out s1, .zero, .zero⟩ (setModsrc s1 .zero c)
  else setTap i ⟨.out s1, .zero, .zero, .zero⟩ (setModsrc s1 (.out s0) c)

/-- Four-operator wiring from the 4OP-B channel `i` (R179 to R182): the sources of `p1`, `s0`, `s1` and the taps of `i`; `p0`
always takes its own feedback and the 4OP-A channel has no taps. -/
def wireFour (i : Fin 18) (srcP1 srcS0 srcS1 : Source) (t : Quad Source) (c : Chip) : Chip :=
  let a := pairOf i
  let p0 := slot0 a
  let c := setModsrc p0 (.fb p0) c
  let c := setModsrc (slot1 a) srcP1 c
  let c := setModsrc (slot0 i) srcS0 c
  let c := setModsrc (slot1 i) srcS1 c
  setTap a (Quad.all .zero) (setTap i t c)

/-- The drum branch of `SetupAlg` (R183): modulation sources only. The rule states the last case for channel 6, whose operators
are 12 and 15; it is written over the channel's own operators (log 10). -/
def wireDrum (i : Fin 18) (c : Chip) : Chip :=
  let s0 := slot0 i
  let s1 := slot1 i
  if i = 7 ∨ i = 8 then setModsrc s1 .zero (setModsrc s0 .zero c)
  else
    let c := setModsrc s0 (.fb s0) c
    match (c.ch i).alg with
    | .two0 | .four4 | .four6 | .merged8 => setModsrc s1 (.out s0) c
    | .two1 | .four5 | .four7 => setModsrc s1 .zero c

/-- `SetupAlg(c)` (R177). -/
def setupAlg (i : Fin 18) (c : Chip) : Chip :=
  let a := pairOf i
  let p0 := slot0 a
  let p1 := slot1 a
  let s0 := slot0 i
  let s1 := slot1 i
  if (c.ch i).chtype = .tdrum then wireDrum i c
  else
    match (c.ch i).alg with
    | .merged8 => c
    | .four4 => wireFour i (.out p0) (.out p1) (.out s0) ⟨.out s1, .zero, .zero, .zero⟩ c
    | .four5 => wireFour i (.out p0) .zero (.out s0) ⟨.out p1, .out s1, .zero, .zero⟩ c
    | .four6 => wireFour i .zero (.out p1) (.out s0) ⟨.out p0, .out s1, .zero, .zero⟩ c
    | .four7 => wireFour i .zero (.out p1) .zero ⟨.out p0, .out s0, .out s1, .zero⟩ c
    | .two0 => wireTwo i false c
    | .two1 => wireTwo i true c

/-- `UpdateAlg(c)` (R176). -/
def updateAlg (i : Fin 18) (c : Chip) : Chip :=
  let con := (c.ch i).con
  let p := pairOf i
  let c := setAlgCode i (if con then .two1 else .two0) c
  if c.reg.newm ∧ (c.ch i).chtype = .t4opA then
    setupAlg p (setAlgCode i .merged8 (setAlgCode p (mergedAlg con (c.ch p).con) c))
  else if c.reg.newm ∧ (c.ch i).chtype = .t4opB then
    setupAlg i (setAlgCode p .merged8 (setAlgCode i (mergedAlg (c.ch p).con con) c))
  else setupAlg i c

/-- `SetRhythmTaps()` (R183): the default taps, or the alternative of the parameter RHYTHM_TAPS. DESIGN CHOICE (log 21): the
alternative of channel 6 is the one R183's table gives, (15, 15) whatever the connection; 92_eei_decisions.md D17 gives it as
"(15, 15) or (12, 15) by connection". -/
def setRhythmTaps (p : Params) (c : Chip) : Chip :=
  if p.rhythmTapsDoubled then
    setTap 8 ⟨.out 14, .out 14, .out 17, .out 17⟩
      (setTap 7 ⟨.out 13, .out 13, .out 16, .out 16⟩ (setTap 6 ⟨.out 15, .out 15, .zero, .zero⟩ c))
  else
    setTap 8 ⟨.out 14, .out 17, .zero, .zero⟩
      (setTap 7 ⟨.out 13, .out 16, .zero, .zero⟩ (setTap 6 ⟨.out 12, .out 15, .zero, .zero⟩ c))

end Sys2Proof.Machine
end

