-- ==== Sys2Proof/Machine/RegisterWrites.lean ====
section
/-! DEFINITION. What each class of register write does to the block (40_register_writes.md R91 to R103), with the data-byte
layouts of 30_encoding.md R66 to R78, and `RegWrite`, which the drain of the write buffer calls (R90). -/

namespace Sys2Proof.Machine

/-- `WR_NTS(data)` (R91, R76). -/
def wrNts (d : Byte) (c : Chip) : Chip := { c with reg := { c.reg with nts := d.getLsbD 6 } }

/-- `WR_MODE(data)` (R93, R78). -/
def wrMode (d : Byte) (c : Chip) : Chip :=
  { c with reg := { c.reg with newm := d.getLsbD 0, stereoext := d.getLsbD 1 } }

/-- `CH[i].CHTYPE <- t`. -/
def setChtype (i : Fin 18) (t : ChType) (c : Chip) : Chip := c.modCh i fun ch => { ch with chtype := t }

/-- The lower channel of the pair that bit `i` of the mask governs (R92, R77). -/
def pairLower (i : Nat) : Fin 18 := Fin.ofNat 18 (if i < 3 then i else i + 6)

/-- The body of the loop of `WR_4OP` for bit `i` (R92). -/
def wr4opPair (d : Byte) (c : Chip) (i : Nat) : Chip :=
  let a := pairLower i
  let b := Fin.ofNat 18 (a.val + 3)
  if d.getLsbD i then updateAlg a (setChtype b .t4opB (setChtype a .t4opA c))
  else updateAlg b (updateAlg a (setChtype b .t2op (setChtype a .t2op c)))

/-- `WR_4OP(data)` (R92, R77). -/
def wr4op (d : Byte) (c : Chip) : Chip :=
  [0, 1, 2, 3, 4, 5].foldl (wr4opPair d) { c with reg := { c.reg with fourop := d.extractLsb' 0 6 } }

/-- The body of the loop of `RhythmReconfig` with the rhythm bit clear (42_phase_noise_rhythm.md R152). -/
def undrum (c : Chip) (i : Fin 18) : Chip :=
  ((setupAlg i (setChtype i .t2op c)).modOp (slot0 i) (setRhythmKey false)).modOp (slot1 i) (setRhythmKey false)

/-- `RhythmReconfig(data)` (42_phase_noise_rhythm.md R152). -/
def rhythmReconfig (p : Params) (d : Byte) (c : Chip) : Chip :=
  let rhy := d.extractLsb' 0 6
  let c := { c with reg := { c.reg with rhy := rhy } }
  if rhy.getLsbD 5 then
    let c := setRhythmTaps p c
    let c := setChtype 8 .tdrum (setChtype 7 .tdrum (setChtype 6 .tdrum c))
    let c := setupAlg 8 (setupAlg 7 (setupAlg 6 c))
    let c := c.modOp 13 (setRhythmKey (rhy.getLsbD 0))
    let c := c.modOp 17 (setRhythmKey (rhy.getLsbD 1))
    let c := c.modOp 14 (setRhythmKey (rhy.getLsbD 2))
    let c := c.modOp 16 (setRhythmKey (rhy.getLsbD 3))
    let c := c.modOp 12 (setRhythmKey (rhy.getLsbD 4))
    c.modOp 15 (setRhythmKey (rhy.getLsbD 4))
  else [6, 7, 8].foldl undrum c

/-- `WR_BD(data)` (R99, R75). -/
def wrBd (p : Params) (d : Byte) (c : Chip) : Chip :=
  rhythmReconfig p d
    { c with reg := { c.reg with
        tremshift := if d.getLsbD 7 then 2 else 4
        vibshift := if d.getLsbD 6 then 0 else 1 } }

/-- `WR_OP20(o, data)` (R94, R66). -/
def wrOp20 (o : Fin 36) (d : Byte) (c : Chip) : Chip :=
  c.modOp o fun op =>
    { op with
      regTrem := d.getLsbD 7
      regVib := d.getLsbD 6
      regType := d.getLsbD 5
      regKsr := d.getLsbD 4
      regMult := d.extractLsb' 0 4 }

/-- `WR_OP40(o, data)` (R95, R67). -/
def wrOp40 (o : Fin 36) (d : Byte) (c : Chip) : Chip :=
  updateKsl o (c.modOp o fun op => { op with regKsl := d.extractLsb' 6 2, regTl := d.extractLsb' 0 6 })

/-- `WR_OP60(o, data)` (R104, R68). -/
def wrOp60 (o : Fin 36) (d : Byte) (c : Chip) : Chip :=
  c.modOp o fun op => { op with regAr := d.extractLsb' 4 4, regDr := d.extractLsb' 0 4 }

/-- The sustain level stored for the field `SL` (R105): 15 is stored as 31. -/
def sustainLevel (sl : BitVec 4) : BitVec 5 := if sl = 15 then 31 else sl.setWidth 5

/-- `WR_OP80(o, data)` (R105, R69). -/
def wrOp80 (o : Fin 36) (d : Byte) (c : Chip) : Chip :=
  c.modOp o fun op => { op with regSl := sustainLevel (d.extractLsb' 4 4), regRr := d.extractLsb' 0 4 }

/-- `WR_OPE0(o, data)` (R106, R70): three bits in new mode, two outside it. -/
def wrOpe0 (o : Fin 36) (d : Byte) (c : Chip) : Chip :=
  c.modOp o fun op => { op with regWf := if c.reg.newm then d.extractLsb' 0 3 else (d.extractLsb' 0 2).setWidth 3 }

/-- The frequency registers of channel `i` follow its pair: new mode and the upper half of an enabled pair (R96, R97). -/
def freqLocked (i : Fin 18) (c : Chip) : Bool := c.reg.newm && (c.ch i).chtype == .t4opB

/-- `WR_CHA0(c, data)` (R96, R71). -/
def wrCha0 (i : Fin 18) (d : Byte) (c : Chip) : Chip :=
  if freqLocked i c then c
  else freqFollow i false (c.modCh i fun ch => { ch with fNum := (ch.fNum &&& 0x300) ||| d.setWidth 10 })

/-- `WR_CHB0(c, data)` (R97, R72). -/
def wrChb0 (i : Fin 18) (d : Byte) (c : Chip) : Chip :=
  let c :=
    if freqLocked i c then c
    else freqFollow i true (c.modCh i fun ch =>
      { ch with
        fNum := (ch.fNum &&& 0x0FF) ||| ((d.extractLsb' 0 2).setWidth 10 <<< 8)
        block := d.extractLsb' 2 3 })
  keySet i (d.getLsbD 5) c

/-- The pan weight of a direct enable (R100): unity or 0. -/
def directPan (enabled : Bool) : BitVec 17 := if enabled then 0x10000 else 0

/-- `WR_CHC0(c, data)` (R100, R73). -/
def wrChc0 (i : Fin 18) (d : Byte) (c : Chip) : Chip :=
  let c := updateAlg i (c.modCh i fun ch => { ch with fb := d.extractLsb' 1 3, con := d.getLsbD 0 })
  let c := c.modCh i fun ch =>
    if c.reg.newm then
      { ch with cha := d.getLsbD 4, chb := d.getLsbD 5, chc := d.getLsbD 6, chd := d.getLsbD 7 }
    else { ch with cha := true, chb := true, chc := false, chd := false }
  if c.reg.stereoext then c
  else c.modCh i fun ch => { ch with leftpan := directPan ch.cha, rightpan := directPan ch.chb }

/-- `WR_CHD0(c, data)` (R101, R74). -/
def wrChd0 (i : Fin 18) (d : Byte) (c : Chip) : Chip :=
  if c.reg.stereoext then
    c.modCh i fun ch =>
      { ch with leftpan := BitVec.ofNat 17 (panLut (d ^^^ 0xFF).toNat), rightpan := BitVec.ofNat 17 (panLut d.toNat) }
  else c

/-- `RegWrite(addr, data)` (R90). -/
def regWrite (p : Params) (addr : Addr) (d : Byte) (c : Chip) : Chip :=
  match classify addr with
  | .nts => wrNts d c
  | .fourOp => wr4op d c
  | .mode => wrMode d c
  | .bd => wrBd p d c
  | .op20 o => wrOp20 o d c
  | .op40 o => wrOp40 o d c
  | .op60 o => wrOp60 o d c
  | .op80 o => wrOp80 o d c
  | .ope0 o => wrOpe0 o d c
  | .cha0 i => wrCha0 i d c
  | .chb0 i => wrChb0 i d c
  | .chc0 i => wrChc0 i d c
  | .chd0 i => wrChd0 i d c
  | .ign => c

end Sys2Proof.Machine
end

