-- ==== Sys2Proof/Machine/Wave.lean ====
section
/-! DEFINITION. The exponential lookup, the eight waveforms, the wave sub-step and the feedback sub-step
(43_waveform_feedback.md R162 to R166). -/

namespace Sys2Proof.Machine

/-- `ExpLookup(level)` (R162). -/
def expLookup (level : Nat) : Nat :=
  let l := if level > 0x1FFF then 0x1FFF else level
  (expRom (l % 256) <<< 1) >>> (l / 256)

/-- `mirror` (R163): the log of a rectified sine over half a period. -/
def waveMirror (p : BitVec 10) : Nat :=
  let q : Byte := p.extractLsb' 0 8
  if p.getLsbD 8 then logsinRom (q ^^^ 0xFF).toNat else logsinRom q.toNat

/-- The double-speed log of waveforms 4 and 5 (R163). -/
def waveDouble (p : BitVec 10) : Nat :=
  if p.getLsbD 9 then 0x1000
  else if p.getLsbD 7 then logsinRom ((((p ^^^ 0xFF) <<< 1) &&& 0xFF).toNat)
  else logsinRom (((p <<< 1) &&& 0xFF).toNat)

/-- The log-attenuation `lg` of a waveform (R163). -/
def waveLog (wf : BitVec 3) (p : BitVec 10) : Nat :=
  match wf.toNat with
  | 0 => waveMirror p
  | 1 => if p.getLsbD 9 then 0x1000 else waveMirror p
  | 2 => waveMirror p
  | 3 => if p.getLsbD 8 then 0x1000 else logsinRom (p.extractLsb' 0 8).toNat
  | 4 => waveDouble p
  | 5 => waveDouble p
  | 6 => 0
  | _ => if p.getLsbD 9 then ((p &&& 0x1FF) ^^^ 0x1FF).toNat <<< 3 else p.toNat <<< 3

/-- The sign `neg` of a waveform (R163). -/
def waveNeg (wf : BitVec 3) (p : BitVec 10) : Bool :=
  match wf.toNat with
  | 0 => p.getLsbD 9
  | 4 => !p.getLsbD 9 && p.getLsbD 8
  | 6 => p.getLsbD 9
  | 7 => p.getLsbD 9
  | _ => false

/-- `Wave(wf, p, env)` (R163): the negative polarity is the ones' complement. -/
def wave (wf : BitVec 3) (p : BitVec 10) (env : BitVec 16) : Int :=
  let v : Int := (expLookup (waveLog wf p + (env.toNat <<< 3)) : Nat)
  if waveNeg wf p then -v - 1 else v

/-- The sample of an operator given its modulation value (R164). -/
def waveOut (modulation : Int) (op : Operator) : S16 :=
  let p16 := BitVec.ofInt 16 ((op.pgPhaseOut.toNat : Int) + modulation)
  wrapS16 (wave op.regWf (p16.extractLsb' 0 10) op.egOut)

/-- `WaveStep(o)` (R164). -/
def waveStep (o : Fin 36) (c : Chip) : Chip :=
  c.modOp o fun op => { op with out := waveOut (modValue c o) op }

/-- `FBMOD` of an operator whose channel has feedback level `fb` (R166). -/
def feedbackMod (fb : BitVec 3) (op : Operator) : S16 :=
  if fb = 0 then 0 else wrapS16 ((op.prout.toInt + op.out.toInt) >>> (9 - fb.toNat))

/-- `FeedbackStep(o)` (R166). -/
def feedbackStep (o : Fin 36) (c : Chip) : Chip :=
  c.modOp o fun op => { op with fbmod := feedbackMod (c.ch (chanOf o)).fb op, prout := op.out }

end Sys2Proof.Machine
end

