-- ==== Sys2Proof/Machine/Tick.lean ====
section
/-! DEFINITION. The write buffer (46_writebuf.md R211, R213) and one native tick (45_mixer_lfo.md R190, R199). -/

namespace Sys2Proof.Machine

/-- The time `Enqueue` gives a new entry (R211). -/
def enqueueTime (c : Chip) : Nat := max (c.wbLasttime + wbDelay) c.wbSamplecnt

/-- `Enqueue(addr, data)` on a buffer that is not full (R211). -/
def enqueue (addr : Addr) (d : Byte) (c : Chip) : Chip :=
  { c with wb := c.wb ++ [⟨addr, d, enqueueTime c⟩], wbLasttime := enqueueTime c }

/-- The loop of `DrainWriteBuffer` over the entries from the oldest (R213): only the head is tested, and each due entry is taken
off and applied before the next is looked at. -/
def drainFrom (p : Params) : List WbEntry → Chip → Chip
  | [], c => { c with wb := [] }
  | e :: rest, c =>
    if e.time ≤ c.wbSamplecnt then drainFrom p rest (regWrite p e.addr e.data { c with wb := rest })
    else { c with wb := e :: rest }

/-- `DrainWriteBuffer()` (R213). -/
def drainWriteBuffer (p : Params) (c : Chip) : Chip := drainFrom p c.wb c

/-- The four sub-steps of one operator (R190, phase 1). -/
def operatorStep (p : Params) (c : Chip) (o : Fin 36) : Chip :=
  waveStep o (phaseStep p o (envelopeStep p o (feedbackStep o c)))

/-- The operator steps of a list of operators, in its order. -/
def operatorSteps (p : Params) (l : List (Fin 36)) (c : Chip) : Chip := l.foldl (operatorStep p) c

/-- Phases 1 and 2 in the default order (R190): all operators, then all sums. -/
def operatorsThenMix (p : Params) (c : Chip) : Chip := mixAll (operatorSteps p allOps c)

/-- Phases 1 and 2 under MIX_INTERLEAVED (R199). -/
def interleavedMix (p : Params) (c : Chip) : Chip :=
  let c := { c with outp := { c.outp with b := clipLane c.mix.b, d := clipLane c.mix.d } }
  let c := operatorSteps p (allOps.take 15) c
  let c := { c with mix := { c.mix with a := (laneSums c).a, c := (laneSums c).c } }
  let c := operatorSteps p ((allOps.drop 15).take 3) c
  let c := { c with outp := { c.outp with a := clipLane c.mix.a, c := clipLane c.mix.c } }
  let c := operatorSteps p ((allOps.drop 18).take 15) c
  let c := { c with mix := { c.mix with b := (laneSums c).b, d := (laneSums c).d } }
  operatorSteps p (allOps.drop 33) c

/-- Phases 1 and 2 of a tick. -/
def soundPhases (p : Params) (c : Chip) : Chip := if p.mixInterleaved then interleavedMix p c else operatorsThenMix p c

/-- The oscillators of phase 3 (R190, R200 to R205). -/
def oscPhase (p : Params) (c : Chip) : Chip := { c with osc := oscStep p c.reg.tremshift c.osc }

/-- The end of phase 3 (R206): drain, then count the sample. -/
def drainPhase (p : Params) (c : Chip) : Chip :=
  let c := drainWriteBuffer p c
  { c with wbSamplecnt := c.wbSamplecnt + 1 }

/-- `Tick()` (R190). -/
def tickChip (p : Params) (c : Chip) : Chip := drainPhase p (oscPhase p (soundPhases p c))

end Sys2Proof.Machine
end

