-- ==== Sys2Proof/Machine/Resample.lean ====
section
/-! DEFINITION. The linear-interpolation resampler (47_resampler.md R226 to R229). -/

namespace Sys2Proof.Machine

/-- `RSM_RATIO` for an output rate (R226). -/
def ratioOf (rate : Nat) : Nat := (rate <<< fracBits) / nativeRate

/-- `Interp(p, c)` with `a` the accumulator and `r` the ratio (R228), truncating toward zero. -/
def interp (pr : Params) (r a : Nat) (p c : S16) : S16 :=
  let r : Int := (r : Int)
  let a : Int := (a : Int)
  let x := p.toInt
  let y := c.toInt
  wrapS16 (if pr.rsmPrevAtZero then (x * (r - a) + y * a).tdiv r else (y * (r - a) + x * a).tdiv r)

/-- One turn of the loop of `TickResampled` (R227). -/
def resampleTick (p : Params) (c : Chip) : Chip :=
  let c := { c with rsm := { c.rsm with prev := c.rsm.cur } }
  let c := tickChip p c
  { c with rsm := { c.rsm with cur := c.outp, acc := c.rsm.acc - c.rsm.ratio.toNat } }

/-- `n` turns of the loop. -/
def resampleTicks (p : Params) : Nat → Chip → Chip
  | 0, c => c
  | n + 1, c => resampleTicks p n (resampleTick p c)

/-- The lanes interpolated with the accumulator as it stands (R228). -/
def interpLanes (p : Params) (r : Resampler) : Quad S16 :=
  let f := interp p r.ratio.toNat r.acc
  ⟨f r.prev.a r.cur.a, f r.prev.b r.cur.b, f r.prev.c r.cur.c, f r.prev.d r.cur.d⟩

/-- The rest of `TickResampled` after its loop (R227). -/
def resampleOut (p : Params) (c : Chip) : Chip :=
  { c with rsm := { c.rsm with out := interpLanes p c.rsm, acc := c.rsm.acc + 2 ^ fracBits } }

/-- `TickResampled()` (R227). The number of turns of the loop is `RSM_ACC // RSM_RATIO` on entry (R227's own words), so the loop
is run that many times; the ratio is never 0 here (the command tests it). -/
def tickResampled (p : Params) (c : Chip) : Chip :=
  resampleOut p (resampleTicks p (c.rsm.acc / c.rsm.ratio.toNat) c)

end Sys2Proof.Machine
end

