-- ==== Sys2Proof/Machine/ResetChip.lean ====
section
/-! DEFINITION. `Reset(rate)` (70_reset_and_hazards.md R255), the values of 10_state.md R26. -/

namespace Sys2Proof.Machine

/-- An operator before the wiring loop of R255 (R19, R20). -/
def resetOperator : Operator where
  regTrem := false
  regVib := false
  regType := false
  regKsr := false
  regMult := 0
  regKsl := 0
  regTl := 0
  regAr := 0
  regDr := 0
  regSl := 0
  regRr := 0
  regWf := 0
  egGen := .release
  egRout := egMax
  egOut := 0x1FF
  egKsl := 0
  key := 0
  pgPhase := 0
  pgPhaseOut := 0
  pgReset := false
  out := 0
  prout := 0
  fbmod := 0
  modsrc := .zero

/-- A channel before the wiring loop of R255 (R18). -/
def resetChannel : Channel where
  fNum := 0
  block := 0
  fb := 0
  con := false
  alg := .two0
  ksv := 0
  cha := true
  chb := true
  chc := false
  chd := false
  leftpan := 0x10000
  rightpan := 0x10000
  chtype := .t2op
  tap := Quad.all .zero

/-- The chip-global registers after RESET (R14). -/
def resetRegs : GlobalRegs where
  newm := false
  stereoext := false
  nts := false
  rhy := 0
  fourop := 0
  tremshift := 4
  vibshift := 1

/-- The oscillators after RESET (R15). -/
def resetOsc : Oscillators where
  noise := noiseSeed
  timer := 0
  trempos := 0
  tremolo := 0
  vibpos := 0
  egTimer := 0
  egTimerrem := false
  egState := false
  egAdd := 0

/-- The resampler after RESET (R23, 47_resampler.md R234). -/
def resetResampler (p : Params) (rate : Nat) : Resampler where
  ratio := BitVec.ofNat 32 (ratioOf rate)
  acc := if p.rsmPrevAtZero then 0 else ratioOf rate
  prev := Quad.all 0
  cur := Quad.all 0
  out := Quad.all 0

/-- `Reset(rate)` (R255): it reads nothing but the rate. -/
def resetChip (p : Params) (rate : Nat) : Chip :=
  allChs.foldl (fun c i => setupAlg i c)
    { ops := Vector.replicate 36 resetOperator
      chs := Vector.replicate 18 resetChannel
      reg := resetRegs
      osc := resetOsc
      latch := ⟨false, false, false, false, false, false⟩
      mix := Quad.all 0
      outp := Quad.all 0
      wb := []
      wbSamplecnt := 0
      wbLasttime := 0
      rsm := resetResampler p rate }

end Sys2Proof.Machine
end

