-- ==== Sys2Proof/Machine/State.lean ====
section
/-! DEFINITION. The state of the model, the reasons a step stops, and the state after reset. `Chip` (Machine/Chip.lean) is the
block's own state, all of it; the other fields are the model's own and stand for the host. -/

namespace Sys2Proof.Machine

/-- One output frame: lanes A, B, C, D (40_register_writes.md R108, R113). -/
abbrev Frame := Quad S16

/-- The state of the model. -/
structure State where
  /-- the block (10_state.md R10) -/
  chip : Chip
  /-- MODEL: a RESET has been performed (60_exceptions.md R238, RF1; log 3) -/
  ready : Bool
  /-- MODEL: the command words the host has issued and the block has not taken, oldest first (log 1) -/
  cmds : List Word
  /-- MODEL: the frames TICK, TICKR and STREAM have output, in order (R108, R109, R113; log 4) -/
  output : List Frame
deriving DecidableEq, Repr

/-- The reasons the machine stops with a fault. The block raises no exception (60_exceptions.md R235). -/
inductive Fault where
  /-- Raised by TICKR and STREAM when RSM_RATIO is 0, where the loop of 47_resampler.md R227 "would never end" (R231). Safe: no
  state that a RESET has set up has that value (log 12). -/
  | resamplerNeverEnds
deriving DecidableEq, Repr

/-- The reasons a command is refused (60_exceptions.md R238). All safe: the spec gives a refused command no effect. -/
inductive Refusal where
  /-- An instruction without a meaning; raised by a refused arm of `exec` only (none is left). -/
  | notModelled (mnemonic : String)
  /-- RF4: the word is no command; raised by `step`. -/
  | notACommand (why : DecodeError)
  /-- RF1: a command other than RESET before the first RESET; raised by every command but RESET. -/
  | beforeReset
  /-- RF2: RESET with a rate outside `RATE_MIN .. RATE_MAX`; raised by RESET. -/
  | rateOutOfRange
  /-- RF5: the write buffer already holds `WB_SIZE` entries; raised by WRB. -/
  | writeBufferFull
deriving DecidableEq, Repr

/-- What a command or a step answers. -/
abbrev Answer := Host.Outcome State Fault Refusal

/-- The machine right after `RESET 49716` (70_reset_and_hazards.md R255, R256; the rate is log 2): no command waits and no frame
has been output. -/
def State.reset : State where
  chip := resetChip params 49716
  ready := true
  cmds := []
  output := []

end Sys2Proof.Machine
end

