-- ==== Sys2Proof/Machine/WriteCommands.lean ====
section
/-! DEFINITION. The meanings of the register-write commands (40_register_writes.md R90 to R107). -/

namespace Sys2Proof.Machine

/-- A command that changes the block by `f` and outputs nothing, refused before the first RESET (60_exceptions.md R238, RF1). -/
def State.onChip (s : State) (f : Chip → Chip) : Answer :=
  if s.ready then .next { s with chip := f s.chip } else .refused .beforeReset

/-- WR_NTS (R91). -/
def execWrNts (d : Byte) (s : State) : Answer := s.onChip (wrNts d)

/-- WR_4OP (R92). -/
def execWr4op (d : Byte) (s : State) : Answer := s.onChip (wr4op d)

/-- WR_MODE (R93). -/
def execWrMode (d : Byte) (s : State) : Answer := s.onChip (wrMode d)

/-- WR_BD (R99). -/
def execWrBd (d : Byte) (s : State) : Answer := s.onChip (wrBd params d)

/-- WR_OP20 (R94). -/
def execWrOp20 (o : Fin 36) (d : Byte) (s : State) : Answer := s.onChip (wrOp20 o d)

/-- WR_OP40 (R95). -/
def execWrOp40 (o : Fin 36) (d : Byte) (s : State) : Answer := s.onChip (wrOp40 o d)

/-- WR_OP60 (R104). -/
def execWrOp60 (o : Fin 36) (d : Byte) (s : State) : Answer := s.onChip (wrOp60 o d)

/-- WR_OP80 (R105). -/
def execWrOp80 (o : Fin 36) (d : Byte) (s : State) : Answer := s.onChip (wrOp80 o d)

/-- WR_OPE0 (R106). -/
def execWrOpe0 (o : Fin 36) (d : Byte) (s : State) : Answer := s.onChip (wrOpe0 o d)

/-- WR_CHA0 (R96). -/
def execWrCha0 (i : Fin 18) (d : Byte) (s : State) : Answer := s.onChip (wrCha0 i d)

/-- WR_CHB0 (R97). -/
def execWrChb0 (i : Fin 18) (d : Byte) (s : State) : Answer := s.onChip (wrChb0 i d)

/-- WR_CHC0 (R100). -/
def execWrChc0 (i : Fin 18) (d : Byte) (s : State) : Answer := s.onChip (wrChc0 i d)

/-- WR_CHD0 (R101). -/
def execWrChd0 (i : Fin 18) (d : Byte) (s : State) : Answer := s.onChip (wrChd0 i d)

/-- WR_IGN (R103): accepted, no effect. -/
def execWrIgn (_addr : Addr) (_d : Byte) (s : State) : Answer := s.onChip id

/-- WRB (R107): the entry is queued whatever its address; refused when the buffer is full (46_writebuf.md R216). -/
def execWrb (addr : Addr) (d : Byte) (s : State) : Answer :=
  if s.ready ∧ wbSize ≤ s.chip.wb.length then .refused .writeBufferFull else s.onChip (enqueue addr d)

end Sys2Proof.Machine
end

