-- ==== Sys2Proof/Machine/SampleCommands.lean ====
section
/-! DEFINITION. The meanings of TICK, TICKR, STREAM and RESET (40_register_writes.md R108, R113, R109, R112). -/

namespace Sys2Proof.Machine

/-- TICK (R108): one native sample, output on the four lanes. -/
def execTick (s : State) : Answer :=
  if s.ready then
    .next { s with chip := tickChip params s.chip, output := s.output ++ [(tickChip params s.chip).outp] }
  else .refused .beforeReset

/-- One output-rate sample and its frame (R113). -/
def resampledFrame (s : State) : State :=
  { s with chip := tickResampled params s.chip, output := s.output ++ [(tickResampled params s.chip).rsm.out] }

/-- `n` output-rate samples and their frames (R109). -/
def resampledFrames : Nat → State → State
  | 0, s => s
  | n + 1, s => resampledFrames n (resampledFrame s)

/-- TICKR (R113). -/
def execTickr (s : State) : Answer :=
  if ¬s.ready then .refused .beforeReset
  else if s.chip.rsm.ratio = 0 then .fault .resamplerNeverEnds
  else .next (resampledFrame s)

/-- STREAM n (R109): `n` successive TICKRs; `n = 0` does nothing. -/
def execStream (n : BitVec 28) (s : State) : Answer :=
  if ¬s.ready then .refused .beforeReset
  else if n ≠ 0 ∧ s.chip.rsm.ratio = 0 then .fault .resamplerNeverEnds
  else .next (resampledFrames n.toNat s)

/-- RESET rate (R112, 70_reset_and_hazards.md R255): legal in every state. -/
def execReset (rate : BitVec 22) (s : State) : Answer :=
  if rate.toNat < rateMin ∨ rate.toNat > rateMax then .refused .rateOutOfRange
  else .next { s with chip := resetChip params rate.toNat, ready := true }

end Sys2Proof.Machine
end

