-- ==== Sys2Proof/Machine/Dispatch.lean ====
section
/-! DEFINITION. `exec`: one arm per constructor of `Instr`, each a direct call of its meaning. -/

namespace Sys2Proof.Machine

def exec (i : Instr) (s : State) : Host.Outcome State Fault Refusal :=
  match i with
  | .wrNts data => Sys2Proof.Machine.execWrNts data s
  | .wr4op data => Sys2Proof.Machine.execWr4op data s
  | .wrMode data => Sys2Proof.Machine.execWrMode data s
  | .wrBd data => Sys2Proof.Machine.execWrBd data s
  | .wrOp20 o data => Sys2Proof.Machine.execWrOp20 o data s
  | .wrOp40 o data => Sys2Proof.Machine.execWrOp40 o data s
  | .wrOp60 o data => Sys2Proof.Machine.execWrOp60 o data s
  | .wrOp80 o data => Sys2Proof.Machine.execWrOp80 o data s
  | .wrOpe0 o data => Sys2Proof.Machine.execWrOpe0 o data s
  | .wrCha0 c data => Sys2Proof.Machine.execWrCha0 c data s
  | .wrChb0 c data => Sys2Proof.Machine.execWrChb0 c data s
  | .wrChc0 c data => Sys2Proof.Machine.execWrChc0 c data s
  | .wrChd0 c data => Sys2Proof.Machine.execWrChd0 c data s
  | .wrIgn addr data => Sys2Proof.Machine.execWrIgn addr data s
  | .wrb addr data => Sys2Proof.Machine.execWrb addr data s
  | .tick => Sys2Proof.Machine.execTick s
  | .tickr => Sys2Proof.Machine.execTickr s
  | .reset rate => Sys2Proof.Machine.execReset rate s
  | .stream n => Sys2Proof.Machine.execStream n s

end Sys2Proof.Machine
end

