-- ==== Sys2Proof/Machine/Step.lean ====
section
/-! DEFINITION. One step: the block takes the oldest command word the host has issued, decodes it and runs it. There is no
program counter and no fetch from memory (10_state.md R31). -/

namespace Sys2Proof.Machine

/-- One step. With no command waiting the block does not move (60_exceptions.md R248; log 5); a word that is no command is
refused (R238, RF4), before any other test (R240). -/
def step (s : State) : Host.Outcome State Fault Refusal :=
  match s.cmds with
  | [] => .next s
  | w :: rest =>
    match decode w with
    | .error e => .refused (.notACommand e)
    | .ok i => exec i { s with cmds := rest }

/-- `s` with the word issued as the next command, before any that wait (log 1). -/
def State.withFetchWord (s : State) (nbits w : Nat) : State := { s with cmds := tableWord nbits w :: s.cmds }

end Sys2Proof.Machine
end

