-- ==== Sys2Proof/Safety.lean ====
section
/-! DEFINITION. The terms the statements use: the parts of the state that only TICK or only register writes change, and what
holds of every state a run reaches (10_state.md R25 and the rules cited). -/

namespace Sys2Proof.Machine

/-! ### Parts of the state -/

/-- The dynamic state of an operator that no register write changes (40_register_writes.md, introduction (c)). -/
structure OperatorDyn where
  egGen : EgGen
  egRout : BitVec 9
  egOut : BitVec 16
  pgPhase : BitVec 32
  pgPhaseOut : BitVec 16
  pgReset : Bool
  out : S16
  prout : S16
  fbmod : S16
deriving DecidableEq, Repr

/-- The dynamic part of an operator. -/
def Operator.dyn (op : Operator) : OperatorDyn :=
  ⟨op.egGen, op.egRout, op.egOut, op.pgPhase, op.pgPhaseOut, op.pgReset, op.out, op.prout, op.fbmod⟩

/-- The part of an operator that only register writes change: the fields of R19, EG_KSL, KEY and MODSRC. -/
structure OperatorProg where
  regTrem : Bool
  regVib : Bool
  regType : Bool
  regKsr : Bool
  regMult : BitVec 4
  regKsl : BitVec 2
  regTl : BitVec 6
  regAr : BitVec 4
  regDr : BitVec 4
  regSl : BitVec 5
  regRr : BitVec 4
  regWf : BitVec 3
  egKsl : BitVec 8
  key : BitVec 2
  modsrc : Source
deriving DecidableEq, Repr

/-- The programmed part of an operator. -/
def Operator.prog (op : Operator) : OperatorProg :=
  ⟨op.regTrem, op.regVib, op.regType, op.regKsr, op.regMult, op.regKsl, op.regTl, op.regAr, op.regDr, op.regSl, op.regRr,
    op.regWf, op.egKsl, op.key, op.modsrc⟩

/-- The parts of the block outside operators, channels and global registers, which no register write changes. -/
structure ChipRun where
  osc : Oscillators
  latch : RhythmLatches
  mix : Quad S32
  outp : Quad S16
  wb : List WbEntry
  wbSamplecnt : Nat
  wbLasttime : Nat
  rsm : Resampler
deriving DecidableEq, Repr

/-- The running part of the block. -/
def Chip.run (c : Chip) : ChipRun := ⟨c.osc, c.latch, c.mix, c.outp, c.wb, c.wbSamplecnt, c.wbLasttime, c.rsm⟩

/-- The instruction is an immediate register write, `WR` (R90). -/
def isWrite : Instr → Bool
  | .wrNts _ | .wr4op _ | .wrMode _ | .wrBd _ => true
  | .wrOp20 _ _ | .wrOp40 _ _ | .wrOp60 _ _ | .wrOp80 _ _ | .wrOpe0 _ _ => true
  | .wrCha0 _ _ | .wrChb0 _ _ | .wrChc0 _ _ | .wrChd0 _ _ | .wrIgn _ _ => true
  | .wrb _ _ | .tick | .tickr | .reset _ | .stream _ => false

/-! ### What a command may touch -/

/-- The states differ in the chip-global registers only. -/
def OnlyRegs (s t : State) : Prop := t = { s with chip := { s.chip with reg := t.chip.reg } }

/-- The states differ in the operators `P` only. -/
def OnlyOps (P : Fin 36 → Prop) (s t : State) : Prop :=
  t = { s with chip := { s.chip with ops := t.chip.ops } } ∧ ∀ o, ¬P o → t.chip.op o = s.chip.op o

/-- The states differ in the channels `Q` only. -/
def OnlyChs (Q : Fin 18 → Prop) (s t : State) : Prop :=
  t = { s with chip := { s.chip with chs := t.chip.chs } } ∧ ∀ i, ¬Q i → t.chip.ch i = s.chip.ch i

/-- The states differ in the operators `P` and the channels `Q` only. -/
def OnlyVoices (P : Fin 36 → Prop) (Q : Fin 18 → Prop) (s t : State) : Prop :=
  t = { s with chip := { s.chip with ops := t.chip.ops, chs := t.chip.chs } }
    ∧ (∀ o, ¬P o → t.chip.op o = s.chip.op o) ∧ ∀ i, ¬Q i → t.chip.ch i = s.chip.ch i

/-- Operators `P` may differ in MODSRC, channels `Q` in CHTYPE, ALG and TAP, the chip-global registers freely; nothing else
differs between the states. -/
def OnlyWiring (P : Fin 36 → Prop) (Q : Fin 18 → Prop) (s t : State) : Prop :=
  t = { s with chip := { s.chip with ops := t.chip.ops, chs := t.chip.chs, reg := t.chip.reg } }
    ∧ (∀ o, t.chip.op o = { s.chip.op o with modsrc := (t.chip.op o).modsrc } ∧ (¬P o → t.chip.op o = s.chip.op o))
    ∧ ∀ i, t.chip.ch i =
          { s.chip.ch i with chtype := (t.chip.ch i).chtype, alg := (t.chip.ch i).alg, tap := (t.chip.ch i).tap }
        ∧ (¬Q i → t.chip.ch i = s.chip.ch i)

/-- The wiring, the algorithm codes and the channel types are the same (44_router.md R185). -/
def SameWiring (c d : Chip) : Prop :=
  (∀ o, (d.op o).modsrc = (c.op o).modsrc)
    ∧ ∀ i, (d.ch i).tap = (c.ch i).tap ∧ (d.ch i).alg = (c.ch i).alg ∧ (d.ch i).chtype = (c.ch i).chtype

/-! ### What a drain may do -/

/-- A write of the class changes MODSRC, TAP, ALG or CHTYPE (44_router.md R185). -/
def rewires : RegClass → Bool
  | .fourOp | .bd | .chc0 _ => true
  | .nts | .mode | .op20 _ | .op40 _ | .op60 _ | .op80 _ | .ope0 _ | .cha0 _ | .chb0 _ | .chd0 _ | .ign => false

/-- A write of the class changes the normal key (40_register_writes.md R98). -/
def writesNormalKey : RegClass → Bool
  | .chb0 _ => true
  | .nts | .fourOp | .mode | .bd | .op20 _ | .op40 _ | .op60 _ | .op80 _ | .ope0 _ | .cha0 _ | .chc0 _ | .chd0 _ | .ign => false

/-- A write of the class changes the rhythm key (42_phase_noise_rhythm.md R151). -/
def writesRhythmKey : RegClass → Bool
  | .bd => true
  | .nts | .fourOp | .mode | .op20 _ | .op40 _ | .op60 _ | .op80 _ | .ope0 _ | .cha0 _ | .chb0 _ | .chc0 _ | .chd0 _ | .ign => false

/-- No entry that comes due within the next `n` ticks (46_writebuf.md R213: from the head on, times up to the counter of the last
of them) has a class with the property. -/
def drainsNo (f : RegClass → Bool) (s : State) (n : Nat) : Prop :=
  ∀ e ∈ s.chip.wb.takeWhile (fun e => decide (e.time < s.chip.wbSamplecnt + n)), f (classify e.addr) = false

/-- The native ticks in the next `n` output-rate steps (47_resampler.md R227; the count of R229 from any accumulator). -/
def nativeTicks (s : State) (n : Nat) : Nat :=
  if n = 0 then 0 else (s.chip.rsm.acc + 1024 * (n - 1)) / s.chip.rsm.ratio.toNat

/-! ### Derived values, in the arithmetic of the rules -/

/-- The frequency part of a write to a channel is ignored (40_register_writes.md R96, R97). -/
def followsPair (s : State) (i : Fin 18) : Prop := s.chip.reg.newm = true ∧ (s.chip.ch i).chtype = .t4opB

/-- A frequency or key write to the channel reaches its pair too (40_register_writes.md R98, R102). -/
def leadsPair (s : State) (i : Fin 18) : Prop := s.chip.reg.newm = true ∧ (s.chip.ch i).chtype = .t4opA

/-- The operators a frequency or key write to the channel reaches (40_register_writes.md R98, R102). -/
def reached (s : State) (i : Fin 18) (o : Fin 36) : Prop := chanOf o = i ∨ (leadsPair s i ∧ chanOf o = pairOf i)

/-- EG_KSL of an operator whose channel has the frequency number and block (40_register_writes.md R111); the subtraction stops
at 0, as the rule says. -/
def kslValue (fNum : BitVec 10) (block : BitVec 3) : BitVec 8 :=
  BitVec.ofNat 8 (4 * kslRom (fNum.extractLsb' 6 4) - 32 * (8 - block.toNat))

/-- KSV of a channel with the frequency number and block (40_register_writes.md R110). -/
def ksvValue (nts : Bool) (fNum : BitVec 10) (block : BitVec 3) : BitVec 4 :=
  block ++ BitVec.ofBool (if nts then fNum.getLsbD 8 else fNum.getLsbD 9)

/-- The algorithm code of a two-operator channel (44_router.md R176). -/
def twoOpAlg (con : Bool) : Alg := if con then .two1 else .two0

/-- The pan weight of an output enable (40_register_writes.md R100). -/
def unity (enabled : Bool) : BitVec 17 := if enabled then 0x10000 else 0

/-- The register rate that applies to an operator (41_envelope.md R122). -/
def rateOf (op : Operator) : BitVec 4 :=
  match op.egGen with
  | .attack => op.regAr
  | .decay => op.regDr
  | .sustain => if op.regType then 0 else op.regRr
  | .release => if op.key = 0 then op.regRr else op.regAr

/-- The combined rate, 0 to 75, before saturation (41_envelope.md R123). -/
def combinedRate (ksv : BitVec 4) (op : Operator) : Nat :=
  (if op.regKsr then ksv.toNat else ksv.toNat / 4) + 4 * (rateOf op).toNat

/-- The step size (`shift`) of an operator's level at a register rate, in the order of the rules: nothing at rate 0, the fine
regime below combined rate 48 (41_envelope.md R123, R124), the coarse one from there on (R125), with its table written out and its
cap, which holds from combined rate 60 on whatever the table adds. -/
def stepSize (g : Oscillators) (ksv : BitVec 4) (op : Operator) (reg : BitVec 4) : Nat :=
  let rate := (if op.regKsr then ksv.toNat else ksv.toNat / 4) + 4 * reg.toNat
  let sub := g.timer.toNat % 4
  let entry :=
    match rate % 4 with
    | 0 => 0
    | 1 => if sub = 0 then 1 else 0
    | 2 => if sub % 2 = 0 then 1 else 0
    | _ => if sub = 3 then 0 else 1
  if reg = 0 then 0
  else if rate < 48 then
    if g.egState = true
        ∧ (rate / 4 + g.egAdd.toNat = 12
          ∨ (rate / 4 + g.egAdd.toNat = 13 ∧ rate.testBit 1 = true)
          ∨ (rate / 4 + g.egAdd.toNat = 14 ∧ rate.testBit 0 = true))
    then 1 else 0
  else if 60 ≤ rate then 3
  else if rate / 4 - 12 + entry = 0 then bitNat g.egState
  else rate / 4 - 12 + entry

/-- What a level gains in one tick at a register rate outside Attack: 1, 2 or 4, or nothing (41_envelope.md R129, R130). -/
def levelRise (g : Oscillators) (ksv : BitVec 4) (op : Operator) (reg : BitVec 4) : Nat :=
  if stepSize g ksv op reg = 0 then 0 else 2 ^ (stepSize g ksv op reg - 1)

/-- The listing of LOGSIN_ROM (43_waveform_feedback.md R160), in decimal, row by row. -/
def logsinListing : List Nat :=
  [2137, 1731, 1543, 1419, 1326, 1252, 1190, 1137, 1091, 1050, 1013, 979, 949, 920, 894, 869] ++
  [846, 825, 804, 785, 767, 749, 732, 717, 701, 687, 672, 659, 646, 633, 621, 609] ++
  [598, 587, 576, 566, 556, 546, 536, 527, 518, 509, 501, 492, 484, 476, 468, 461] ++
  [453, 446, 439, 432, 425, 418, 411, 405, 399, 392, 386, 380, 375, 369, 363, 358] ++
  [352, 347, 341, 336, 331, 326, 321, 316, 311, 307, 302, 297, 293, 289, 284, 280] ++
  [276, 271, 267, 263, 259, 255, 251, 248, 244, 240, 236, 233, 229, 226, 222, 219] ++
  [215, 212, 209, 205, 202, 199, 196, 193, 190, 187, 184, 181, 178, 175, 172, 169] ++
  [167, 164, 161, 159, 156, 153, 151, 148, 146, 143, 141, 138, 136, 134, 131, 129] ++
  [127, 125, 122, 120, 118, 116, 114, 112, 110, 108, 106, 104, 102, 100, 98, 96] ++
  [94, 92, 91, 89, 87, 85, 83, 82, 80, 78, 77, 75, 74, 72, 70, 69] ++
  [67, 66, 64, 63, 62, 60, 59, 57, 56, 55, 53, 52, 51, 49, 48, 47] ++
  [46, 45, 43, 42, 41, 40, 39, 38, 37, 36, 35, 34, 33, 32, 31, 30] ++
  [29, 28, 27, 26, 25, 24, 23, 23, 22, 21, 20, 20, 19, 18, 17, 17] ++
  [16, 15, 15, 14, 13, 13, 12, 12, 11, 10, 10, 9, 9, 8, 8, 7] ++
  [7, 7, 6, 6, 5, 5, 5, 4, 4, 4, 3, 3, 3, 2, 2, 2] ++
  [2, 1, 1, 1, 1, 1, 1, 1, 0, 0, 0, 0, 0, 0, 0, 0]

/-- The vibrato-adjusted frequency number (42_phase_noise_rhythm.md R143). -/
def vibratoFnum (g : Oscillators) (vibshift : BitVec 1) (ch : Channel) (op : Operator) : Nat :=
  let upper := ch.fNum.toNat / 128
  let level := if g.vibpos.toNat % 4 = 0 then 0 else if g.vibpos.toNat % 2 = 1 then upper / 2 else upper
  let range := level / 2 ^ vibshift.toNat
  if op.regVib = false then ch.fNum.toNat
  else if g.vibpos.toNat < 4 then ch.fNum.toNat + range
  else ch.fNum.toNat - range

/-- The phase increment (42_phase_noise_rhythm.md R142). -/
def increment (g : Oscillators) (vibshift : BitVec 1) (ch : Channel) (op : Operator) : Nat :=
  vibratoFnum g vibshift ch op * 2 ^ ch.block.toNat / 2 * mtTable op.regMult / 2

/-- Bits 24 to 9 of the accumulator (42_phase_noise_rhythm.md R144). -/
def phaseBits (op : Operator) : Nat := op.pgPhase.toNat / 512 % 65536

/-- The value of a source for operator `o` during a tick from `c` to `d`: what an operator up to `o` has this tick, what a later
one had before (44_router.md R186, 45_mixer_lfo.md R190). -/
def liveSource (c d : Chip) (o : Fin 36) : Source → Int
  | .zero => 0
  | .fb j => if j ≤ o then (d.op j).fbmod.toInt else (c.op j).fbmod.toInt
  | .out j => if j < o then (d.op j).out.toInt else (c.op j).out.toInt

/-- The sum of a channel's taps over the operator outputs in `d` (45_mixer_lfo.md R191), the wiring taken from `c`. -/
def channelSum (c d : Chip) (i : Fin 18) : Int :=
  let v := fun s : Source => srcValue d s
  let q := (c.ch i).tap
  (BitVec.ofInt 16 (v q.a + v q.b + v q.c + v q.d)).toInt

/-- A channel's part of a front lane (45_mixer_lfo.md R192). -/
def panned (c d : Chip) (weight : Channel → BitVec 17) (enable : Channel → Bool) (i : Fin 18) : Int :=
  if c.reg.stereoext then (BitVec.ofInt 16 (channelSum c d i * (weight (c.ch i)).toNat / 65536)).toInt
  else if enable (c.ch i) then channelSum c d i else 0

/-- A channel's part of a rear lane (45_mixer_lfo.md R192). -/
def masked (c d : Chip) (enable : Channel → Bool) (i : Fin 18) : Int := if enable (c.ch i) then channelSum c d i else 0

/-- The output latch for an accumulator (45_mixer_lfo.md R193). -/
def saturated (m : S32) : S16 := BitVec.ofInt 16 (max (-32768) (min 32767 m.toInt))

/-! ### Wiring -/

/-- Two-operator wiring of channel `i` (44_router.md R178). -/
structure Chip.TwoOpWired (c : Chip) (i : Fin 18) (con : Bool) : Prop where
  first : (c.op (slot0 i)).modsrc = .fb (slot0 i)
  second : (c.op (slot1 i)).modsrc = if con then .zero else .out (slot0 i)
  taps : (c.ch i).tap =
    if con then ⟨.out (slot0 i), .out (slot1 i), .zero, .zero⟩ else ⟨.out (slot1 i), .zero, .zero, .zero⟩

/-- The taps of the 4OP-B channel `b` of a pair (44_router.md R179 to R182), by the connection bits of its 4OP-A and 4OP-B
channels. -/
def fourOpTaps (b : Fin 18) (conA conB : Bool) : Quad Source :=
  match conA, conB with
  | false, false => ⟨.out (slot1 b), .zero, .zero, .zero⟩
  | false, true => ⟨.out (slot1 (pairOf b)), .out (slot1 b), .zero, .zero⟩
  | true, false => ⟨.out (slot0 (pairOf b)), .out (slot1 b), .zero, .zero⟩
  | true, true => ⟨.out (slot0 (pairOf b)), .out (slot0 b), .out (slot1 b), .zero⟩

/-- Four-operator wiring of the pair whose 4OP-B channel is `b` (44_router.md R179 to R182), by the connection bits of its 4OP-A
and 4OP-B channels. -/
structure Chip.FourOpWired (c : Chip) (b : Fin 18) (conA conB : Bool) : Prop where
  p0 : (c.op (slot0 (pairOf b))).modsrc = .fb (slot0 (pairOf b))
  p1 : (c.op (slot1 (pairOf b))).modsrc = if conA then .zero else .out (slot0 (pairOf b))
  s0 : (c.op (slot0 b)).modsrc = if !conA && conB then .zero else .out (slot1 (pairOf b))
  s1 : (c.op (slot1 b)).modsrc = if conA && conB then .zero else .out (slot0 b)
  tapsB : (c.ch b).tap = fourOpTaps b conA conB
  tapsA : (c.ch (pairOf b)).tap = ⟨.zero, .zero, .zero, .zero⟩

/-- The modulation sources of a drum channel (44_router.md R183). -/
def Chip.DrumSources (c : Chip) (i : Fin 18) (con : Bool) : Prop :=
  if i = 6 then (c.op 12).modsrc = .fb 12 ∧ (c.op 15).modsrc = (if con then .zero else .out 12)
  else (c.op (slot0 i)).modsrc = .zero ∧ (c.op (slot1 i)).modsrc = .zero

/-! ### What holds of every reachable state -/

/-- Ranges of an operator's elements: REG_SL (40 R105), OUT, PROUT (43 R165), FBMOD (43 R166), EG_KSL (40 R111), EG_OUT
(41 R121). -/
structure Operator.InRange (op : Operator) : Prop where
  sl : op.regSl.toNat ≤ 14 ∨ op.regSl = 31
  out : -4085 ≤ op.out.toInt ∧ op.out.toInt ≤ 4084
  prout : -4085 ≤ op.prout.toInt ∧ op.prout.toInt ≤ 4084
  fbmod : -2043 ≤ op.fbmod.toInt ∧ op.fbmod.toInt ≤ 2042
  egKsl : op.egKsl.toNat ≤ 224
  egOut : op.egOut.toNat ≤ 1013

/-- Ranges of the block's elements: the operators', the pan weights (10 R18), TREMPOS and TREMOLO (45 R201), EG_ADD (45 R204),
TREMSHIFT (10 R14); and the noise register is not stuck at 0 (42 R146). -/
structure Chip.InRange (c : Chip) : Prop where
  ops : ∀ o, (c.op o).InRange
  leftpan : ∀ i, (c.ch i).leftpan.toNat ≤ 0x10000
  rightpan : ∀ i, (c.ch i).rightpan.toNat ≤ 0x10000
  trempos : c.osc.trempos.toNat < 210
  tremolo : c.osc.tremolo.toNat ≤ 26
  egAdd : c.osc.egAdd.toNat ≤ 13
  tremshift : c.reg.tremshift = 2 ∨ c.reg.tremshift = 4
  noise : c.osc.noise ≠ 0

/-- The write buffer's order (46_writebuf.md R212, R213, R216): successive times are at least 2 apart, the newest is WB_LASTTIME,
no pending entry is overdue, and the capacity is kept. -/
structure Chip.WbOrdered (c : Chip) : Prop where
  spaced : c.wb.Pairwise fun e f => e.time + 2 ≤ f.time
  newest : ∀ e, c.wb.getLast? = some e → e.time = c.wbLasttime
  pending : ∀ e ∈ c.wb, c.wbSamplecnt ≤ e.time
  size : c.wb.length ≤ 1024

/-- The resampler's bounds (47_resampler.md R229, R231; 10_state.md R23). -/
structure Chip.RsmBounded (c : Chip) : Prop where
  ratioPos : c.rsm.ratio ≠ 0
  ratioMax : c.rsm.ratio.toNat ≤ 86390
  acc : c.rsm.acc < c.rsm.ratio.toNat + 1024

/-- The source is silence or the output of an operator of channel `i` or of its pair (44_router.md R186). -/
def tapLocal (i : Fin 18) (s : Source) : Prop :=
  s = .zero ∨ ∃ j, s = .out j ∧ (chanOf j = i ∨ chanOf j = pairOf i)

/-- The source is silence, the operator's own feedback, or the output of a lower-numbered operator of the same or the paired
channel (44_router.md R186). -/
def modsrcLocal (o : Fin 36) (s : Source) : Prop :=
  s = .zero ∨ s = .fb o ∨ ∃ j, j < o ∧ s = .out j ∧ (chanOf j = chanOf o ∨ chanOf j = pairOf (chanOf o))

/-- Channel types, algorithm codes and wiring agree with the mode registers (40_register_writes.md R92, 42_phase_noise_rhythm.md
R148, R153, 44_router.md R177, R186). -/
structure Chip.Wired (c : Chip) : Prop where
  typeA : ∀ i : Fin 18, (c.ch i).chtype = .t4opA → i.val % 9 < 3 ∧ (c.ch (pairOf i)).chtype = .t4opB
  typeB : ∀ i : Fin 18, (c.ch i).chtype = .t4opB → 3 ≤ i.val % 9 ∧ i.val % 9 < 6 ∧ (c.ch (pairOf i)).chtype = .t4opA
  typeDrum : ∀ i : Fin 18, (c.ch i).chtype = .tdrum ↔ c.reg.rhy.getLsbD 5 = true ∧ (i = 6 ∨ i = 7 ∨ i = 8)
  mask : ∀ k : Fin 6, c.reg.fourop.getLsbD k = true ↔ (c.ch (pairLower k)).chtype = .t4opA
  algMerged : ∀ i : Fin 18, (c.ch i).alg = .merged8 → i.val % 9 < 3
  algFour : ∀ i : Fin 18, (c.ch i).alg ∈ [Alg.four4, .four5, .four6, .four7] → 3 ≤ i.val % 9 ∧ i.val % 9 < 6
  modsrc : ∀ o, modsrcLocal o (c.op o).modsrc
  taps : ∀ i, tapLocal i (c.ch i).tap.a ∧ tapLocal i (c.ch i).tap.b ∧ tapLocal i (c.ch i).tap.c ∧ tapLocal i (c.ch i).tap.d

/-- The drum key an operator must have for a value of RHY (42_phase_noise_rhythm.md R148). -/
def drumKey (rhy : BitVec 6) (o : Fin 36) : Bool :=
  rhy.getLsbD 5 &&
    (if o = 13 then rhy.getLsbD 0
     else if o = 17 then rhy.getLsbD 1
     else if o = 14 then rhy.getLsbD 2
     else if o = 16 then rhy.getLsbD 3
     else if o = 12 ∨ o = 15 then rhy.getLsbD 4
     else false)

/-- The rhythm keys are those RHY says, and no operator outside 12 to 17 has one (42_phase_noise_rhythm.md R151 to R153). -/
def Chip.DrumKeyed (c : Chip) : Prop := ∀ o, (c.op o).key.getLsbD 1 = drumKey c.reg.rhy o

/-- The invariant of the model: from the first RESET on, every part holds. -/
structure State.Inv (s : State) : Prop where
  inRange : s.ready = true → s.chip.InRange
  wbOrdered : s.ready = true → s.chip.WbOrdered
  rsmBounded : s.ready = true → s.chip.RsmBounded
  wired : s.ready = true → s.chip.Wired
  drumKeyed : s.ready = true → s.chip.DrumKeyed

/-- An operator at rest (70_reset_and_hazards.md R257). -/
structure Operator.AtRest (op : Operator) : Prop where
  key : op.key = 0
  egGen : op.egGen = .release
  egRout : op.egRout = 0x1FF
  pgPhase : op.pgPhase = 0
  out : op.out = 0
  prout : op.prout = 0
  fbmod : op.fbmod = 0

/-- The block is silent and nothing is on its way (70_reset_and_hazards.md R257): every operator at rest, every frequency number
0, rhythm mode off, no pending write, and the resampler's samples 0. -/
structure Chip.Silent (c : Chip) : Prop where
  ops : ∀ o, (c.op o).AtRest
  fNum : ∀ i, (c.ch i).fNum = 0
  rhythmOff : c.reg.rhy.getLsbD 5 = false
  wb : c.wb = []
  prev : c.rsm.prev = Quad.all 0
  cur : c.rsm.cur = Quad.all 0

end Sys2Proof.Machine
end

