-- ==== Sys2Proof/Certificates/Slice0/Obligations.lean ====
section
/-! DEFINITION. The statements for the provers. Each docstring names the rules of spec/ it formalises, or says that it is the
model's own choice and names the log entry. Much of what the rules say is marked there as the spec's general knowledge, a decision
or an inference of its own; what the model takes over with such a mark is log 7 (behaviour, tables, layouts) and log 13 (reset
values), and a statement that rests on it is 'derived' in OBLIGATIONS.json. -/

open Sys2Proof Sys2Proof.Machine

/-! ### Encoding -/

/-- Every command decodes from its own word (30_encoding.md R60 to R65). -/
def Obligations.DecodeOfEncode : Prop := ∀ i : Instr, i.wf = true → decode (encode i) = .ok i

/-- A command word is the encoding of the one command it decodes to: no word has a second spelling (30_encoding.md R60). -/
def Obligations.EncodeOfDecode : Prop := ∀ (w : Word) (i : Instr), decode w = .ok i → i.wf = true ∧ encode i = w

/-- A few words written out from the layouts of R60 decode to the commands they stand for. -/
def Obligations.SampleWords : Prop :=
  decode 0x00000840#32 = .ok (.wrNts 0x40) ∧ decode 0x00010401#32 = .ok (.wr4op 0x01)
    ∧ decode 0x00010503#32 = .ok (.wrMode 0x03) ∧ decode 0x0000BDC0#32 = .ok (.wrBd 0xC0)
    ∧ decode 0x00013521#32 = .ok (.wrOp20 35 0x21) ∧ decode 0x0000433F#32 = .ok (.wrOp40 3 0x3F)
    ∧ decode 0x0000B032#32 = .ok (.wrChb0 0 0x32) ∧ decode 0x0001D800#32 = .ok (.wrChd0 17 0x00)
    ∧ decode 0x0001BDFF#32 = .ok (.wrIgn 0x1BD 0xFF) ∧ decode 0x10002001#32 = .ok (.wrb 0x020 0x01)
    ∧ decode 0x20000000#32 = .ok .tick ∧ decode 0x30000000#32 = .ok .tickr
    ∧ decode 0x4000C234#32 = .ok (.reset 49716) ∧ decode 0x50000080#32 = .ok (.stream 128)

/-- The words that are no command are those R60 names: kind 6 to 15, or a bit that must be 0 set. -/
def Obligations.RefusedWords : Prop :=
  ∀ w : Word,
    (∃ e, decode w = .error e) ↔
      (6 ≤ (w.extractLsb' 28 4).toNat
        ∨ ((w.extractLsb' 28 4).toNat ≤ 1 ∧ w.extractLsb' 17 11 ≠ 0)
        ∨ (((w.extractLsb' 28 4).toNat = 2 ∨ (w.extractLsb' 28 4).toNat = 3) ∧ w.extractLsb' 0 28 ≠ 0)
        ∨ ((w.extractLsb' 28 4).toNat = 4 ∧ w.extractLsb' 22 6 ≠ 0))

/-- The decision list of R62 sends to IGN exactly the addresses the map of R48 leaves out, 256 of 512 (R80). -/
def Obligations.IgnoredAddresses : Prop :=
  (∀ a : Addr, classify a = .ign ↔ mapped a = false)
    ∧ ((List.range 512).filter fun n => classify (BitVec.ofNat 9 n) == .ign).length = 256

/-- The opcode table and the decoder agree: a command word selects exactly one row, which has its mnemonic, and a word that is no
command selects none (30_encoding.md R84). -/
def Obligations.OpcodeTableRows : Prop :=
  ∀ w : Word,
    match decode w with
    | .ok i => ∃ r, opcodeTable.filter (·.selects w) = [r] ∧ r.mnemonic = mnemonic i
    | .error _ => opcodeTable.filter (·.selects w) = []

/-! ### The step -/

/-- A step takes the oldest command word and runs the command it decodes to, and a word stored by `withFetchWord` is the next to
run. That commands wait in a queue of the state is the model's (log 1). -/
def Obligations.StepRunsDecodedCommand : Prop :=
  (∀ (s : State) (w : Word) (rest : List Word) (i : Instr), s.cmds = w :: rest → decode w = .ok i →
      step s = exec i { s with cmds := rest })
    ∧ ∀ (s : State) (nbits w : Nat) (i : Instr), decodeTableWord nbits w = some i →
      step (s.withFetchWord nbits w) = exec i s

/-- A word that is no command is refused, whatever the state (60_exceptions.md R238 RF4, first in the order of R240); with no
command waiting a step changes nothing (R248; that it is a step at all is the model's, log 5). -/
def Obligations.StepWithoutCommand : Prop :=
  (∀ (s : State) (w : Word) (rest : List Word) (e : DecodeError), s.cmds = w :: rest → decode w = .error e →
      step s = .refused (.notACommand e))
    ∧ ∀ s : State, s.cmds = [] → step s = .next s

/-- After a RESET every command completes, except WRB on a full buffer and RESET with a rate out of range
(60_exceptions.md R235). -/
def Obligations.EveryCommandCompletes : Prop :=
  ∀ (i : Instr) (s : State), s.ready = true → s.chip.rsm.ratio ≠ 0 →
    (∀ a d, i = .wrb a d → s.chip.wb.length < 1024) →
    (∀ rate, i = .reset rate → 49 ≤ rate.toNat ∧ rate.toNat ≤ 4194303) →
    ∃ t, exec i s = .next t

/-- The only refusals of a decoded command are RF1 (a command other than RESET before the first RESET, 10_state.md R27), RF2 and RF5
of R238, each exactly under its condition, and no command faults in a state with a ratio (60_exceptions.md R235, R238). Model's
choices: the flag `ready` (log 3), that a refusal stops the run and RF1 is reported before RF5 (the order R240 suggests, log 6),
and that RF3, RF6 and RF7 are not represented (log 14). -/
def Obligations.RefusalsAndFaults : Prop :=
  ∀ (i : Instr) (s : State),
    (exec i s = .refused .beforeReset ↔ s.ready = false ∧ ∀ rate, i ≠ .reset rate)
    ∧ (exec i s = .refused .rateOutOfRange ↔ ∃ rate, i = .reset rate ∧ (rate.toNat < 49 ∨ 4194303 < rate.toNat))
    ∧ (exec i s = .refused .writeBufferFull ↔ s.ready = true ∧ 1024 ≤ s.chip.wb.length ∧ ∃ a d, i = .wrb a d)
    ∧ (∀ r, exec i s = .refused r → r = .beforeReset ∨ r = .rateOutOfRange ∨ r = .writeBufferFull)
    ∧ (s.chip.rsm.ratio ≠ 0 → ∀ f, exec i s ≠ .fault f)

/-! ### Register writes: the chip-global registers -/

/-- WR_NTS stores bit 6 in NTS and changes nothing else (40_register_writes.md R91). The bit and the missing
recomputation are the spec's decision D6 and its general knowledge (R76; log 7). -/
def Obligations.NtsWrite : Prop :=
  ∀ (d : Byte) (s : State), s.ready = true →
    ∃ t, exec (.wrNts d) s = .next t ∧ OnlyRegs s t ∧ t.chip.reg = { s.chip.reg with nts := d.getLsbD 6 }

/-- WR_MODE stores NEWM and STEREOEXT and recomputes nothing (40_register_writes.md R93). The bits are the spec's
decision D7 and its general knowledge (R78; log 7). -/
def Obligations.ModeWrite : Prop :=
  ∀ (d : Byte) (s : State), s.ready = true →
    ∃ t, exec (.wrMode d) s = .next t ∧ OnlyRegs s t
      ∧ t.chip.reg = { s.chip.reg with newm := d.getLsbD 0, stereoext := d.getLsbD 1 }

/-- WR_4OP stores the mask, reclassifies all six pairs and rewires them: an enabled pair as four-operator in new mode (44_router.md
R176, R179 to R182), a 4OP-A channel outside new mode and both channels of a disabled pair as two-operator (R178); KEY, F_NUM,
BLOCK and KSV are not touched (40_register_writes.md R92). -/
def Obligations.FourOpWrite : Prop :=
  ∀ (d : Byte) (s : State), s.ready = true →
    ∃ t, exec (.wr4op d) s = .next t
      ∧ t.chip.reg = { s.chip.reg with fourop := d.extractLsb' 0 6 }
      ∧ OnlyWiring (fun o => (chanOf o).val % 9 < 6) (fun i => i.val % 9 < 6) s t
      ∧ ∀ k : Fin 6,
        let a := pairLower k
        let b := pairOf a
        let conA := (s.chip.ch a).con
        let conB := (s.chip.ch b).con
        if d.getLsbD k then
          (t.chip.ch a).chtype = .t4opA ∧ (t.chip.ch b).chtype = .t4opB
            ∧ if s.chip.reg.newm then
                (t.chip.ch a).alg = .merged8 ∧ (t.chip.ch b).alg = mergedAlg conA conB ∧ t.chip.FourOpWired b conA conB
              else
                (t.chip.ch a).alg = twoOpAlg conA ∧ t.chip.TwoOpWired a conA
                  ∧ (t.chip.ch b).alg = (s.chip.ch b).alg ∧ (t.chip.ch b).tap = (s.chip.ch b).tap
                  ∧ ∀ o, chanOf o = b → t.chip.op o = s.chip.op o
        else
          (t.chip.ch a).chtype = .t2op ∧ (t.chip.ch b).chtype = .t2op
            ∧ (t.chip.ch a).alg = twoOpAlg conA ∧ t.chip.TwoOpWired a conA
            ∧ (t.chip.ch b).alg = twoOpAlg conB ∧ t.chip.TwoOpWired b conB

/-- WR_BD sets the two depth shifts and RHY; with the rhythm bit set channels 6 to 8 become drum channels with the fixed taps and
sources (44_router.md R183) and operators 12 to 17 get their drum keys, with it clear they become two-operator channels again,
wired from their stored ALG, and lose their drum keys (40_register_writes.md R99, 42_phase_noise_rhythm.md R152). The wiring
clauses need ALG of channels 6 to 8 to be a two-operator code, as `Chip.Wired` says it is (44_router.md R177). -/
def Obligations.RhythmWrite : Prop :=
  ∀ (d : Byte) (s : State), s.ready = true →
    ∃ t, exec (.wrBd d) s = .next t
      ∧ t.chip.reg = { s.chip.reg with
          tremshift := if d.getLsbD 7 then 2 else 4, vibshift := if d.getLsbD 6 then 0 else 1, rhy := d.extractLsb' 0 6 }
      ∧ t = { s with chip := { s.chip with ops := t.chip.ops, chs := t.chip.chs, reg := t.chip.reg } }
      ∧ (∀ i : Fin 18, i.val < 6 ∨ 8 < i.val → t.chip.ch i = s.chip.ch i)
      ∧ (∀ i : Fin 18, 6 ≤ i.val ∧ i.val ≤ 8 →
          t.chip.ch i = { s.chip.ch i with chtype := if d.getLsbD 5 then .tdrum else .t2op, tap := (t.chip.ch i).tap })
      ∧ (∀ o : Fin 36, t.chip.op o =
          { s.chip.op o with
            modsrc := (t.chip.op o).modsrc
            key := if 12 ≤ o.val ∧ o.val ≤ 17
              then BitVec.ofBool (drumKey (d.extractLsb' 0 6) o) ++ (s.chip.op o).key.extractLsb' 0 1
              else (s.chip.op o).key })
      ∧ (∀ o : Fin 36, o.val < 12 ∨ 17 < o.val → t.chip.op o = s.chip.op o)
      ∧ (s.chip.Wired →
          if d.getLsbD 5 then
              (t.chip.ch 6).tap = ⟨.out 12, .out 15, .zero, .zero⟩ ∧ (t.chip.ch 7).tap = ⟨.out 13, .out 16, .zero, .zero⟩
                ∧ (t.chip.ch 8).tap = ⟨.out 14, .out 17, .zero, .zero⟩
                ∧ t.chip.DrumSources 6 ((s.chip.ch 6).alg == .two1)
                ∧ t.chip.DrumSources 7 false ∧ t.chip.DrumSources 8 false
            else ∀ i : Fin 18, 6 ≤ i.val ∧ i.val ≤ 8 → t.chip.TwoOpWired i ((s.chip.ch i).alg == .two1))

/-! ### Register writes: operators -/

/-- WR_OP20 stores the five control fields of its operator and changes nothing else (40_register_writes.md R94). The bit
positions are the spec's general knowledge (R66; log 7). -/
def Obligations.OperatorControlWrite : Prop :=
  ∀ (o : Fin 36) (d : Byte) (s : State), s.ready = true →
    ∃ t, exec (.wrOp20 o d) s = .next t ∧ OnlyOps (· = o) s t
      ∧ t.chip.op o = { s.chip.op o with
          regTrem := d.getLsbD 7, regVib := d.getLsbD 6, regType := d.getLsbD 5, regKsr := d.getLsbD 4
          regMult := d.extractLsb' 0 4 }

/-- WR_OP40 stores the two level fields of its operator and recomputes its EG_KSL from its channel (40_register_writes.md R95,
R111). -/
def Obligations.OperatorLevelWrite : Prop :=
  ∀ (o : Fin 36) (d : Byte) (s : State), s.ready = true →
    ∃ t, exec (.wrOp40 o d) s = .next t ∧ OnlyOps (· = o) s t
      ∧ t.chip.op o = { s.chip.op o with
          regKsl := d.extractLsb' 6 2, regTl := d.extractLsb' 0 6
          egKsl := kslValue (s.chip.ch (chanOf o)).fNum (s.chip.ch (chanOf o)).block }

/-- WR_OP60 stores the attack and the decay rate of its operator (40_register_writes.md R104). The bit positions are
the spec's general knowledge (R68; log 7). -/
def Obligations.OperatorAttackWrite : Prop :=
  ∀ (o : Fin 36) (d : Byte) (s : State), s.ready = true →
    ∃ t, exec (.wrOp60 o d) s = .next t ∧ OnlyOps (· = o) s t
      ∧ t.chip.op o = { s.chip.op o with regAr := d.extractLsb' 4 4, regDr := d.extractLsb' 0 4 }

/-- WR_OP80 stores the sustain level, 15 as 31, and the release rate of its operator (40_register_writes.md R105). -/
def Obligations.OperatorSustainWrite : Prop :=
  ∀ (o : Fin 36) (d : Byte) (s : State), s.ready = true →
    ∃ t, exec (.wrOp80 o d) s = .next t ∧ OnlyOps (· = o) s t
      ∧ t.chip.op o = { s.chip.op o with
          regSl := if d.toNat / 16 = 15 then 31 else BitVec.ofNat 5 (d.toNat / 16), regRr := d.extractLsb' 0 4 }

/-- WR_OPE0 stores the waveform of its operator: three bits in new mode, two outside it (40_register_writes.md R106). -/
def Obligations.OperatorWaveformWrite : Prop :=
  ∀ (o : Fin 36) (d : Byte) (s : State), s.ready = true →
    ∃ t, exec (.wrOpe0 o d) s = .next t ∧ OnlyOps (· = o) s t
      ∧ t.chip.op o = { s.chip.op o with
          regWf := BitVec.ofNat 3 (if s.chip.reg.newm then d.toNat % 8 else d.toNat % 4) }

/-! ### Register writes: channels -/

/-- WR_CHA0 replaces the low byte of F_NUM and recomputes KSV and the EG_KSL of the channel's operators; a 4OP-A channel in new
mode hands F_NUM and KSV, not BLOCK, to its pair and recomputes the pair's EG_KSL; on a 4OP-B channel in new mode nothing happens
(40_register_writes.md R96, R102, R110, R111). -/
def Obligations.FrequencyLowWrite : Prop :=
  ∀ (i : Fin 18) (d : Byte) (s : State), s.ready = true →
    (followsPair s i → exec (.wrCha0 i d) s = .next s)
    ∧ (¬followsPair s i →
      ∃ t, exec (.wrCha0 i d) s = .next t
        ∧ OnlyVoices (reached s i) (fun j => j = i ∨ (leadsPair s i ∧ j = pairOf i)) s t
        ∧ (let f := (s.chip.ch i).fNum.extractLsb' 8 2 ++ d
           let ksv := ksvValue s.chip.reg.nts f (s.chip.ch i).block
           t.chip.ch i = { s.chip.ch i with fNum := f, ksv := ksv }
            ∧ (leadsPair s i → t.chip.ch (pairOf i) = { s.chip.ch (pairOf i) with fNum := f, ksv := ksv })
            ∧ ∀ o, reached s i o →
              t.chip.op o = { s.chip.op o with egKsl := kslValue f (s.chip.ch (chanOf o)).block }))

/-- WR_CHB0 sets BLOCK, the high bits of F_NUM and KSV, hands all three to the pair of a 4OP-A channel in new mode, recomputes
EG_KSL and sets KEY bit 0 of the operators it reaches, two or four, to bit 5; on a 4OP-B channel in new mode the whole write has
no effect (40_register_writes.md R97, R98, R102, R110, R111). -/
def Obligations.KeyAndFrequencyHighWrite : Prop :=
  ∀ (i : Fin 18) (d : Byte) (s : State), s.ready = true →
    (followsPair s i → exec (.wrChb0 i d) s = .next s)
    ∧ (¬followsPair s i →
      ∃ t, exec (.wrChb0 i d) s = .next t
        ∧ OnlyVoices (reached s i) (fun j => j = i ∨ (leadsPair s i ∧ j = pairOf i)) s t
        ∧ (let f := d.extractLsb' 0 2 ++ (s.chip.ch i).fNum.extractLsb' 0 8
           let b := d.extractLsb' 2 3
           let ksv := ksvValue s.chip.reg.nts f b
           t.chip.ch i = { s.chip.ch i with fNum := f, block := b, ksv := ksv }
            ∧ (leadsPair s i → t.chip.ch (pairOf i) = { s.chip.ch (pairOf i) with fNum := f, block := b, ksv := ksv })
            ∧ ∀ o, reached s i o →
              t.chip.op o = { s.chip.op o with
                egKsl := kslValue f b
                key := (s.chip.op o).key.extractLsb' 1 1 ++ d.extractLsb' 5 1 }))

/-- WR_CHC0 stores FB, CON and the enables, sets the pan weights outside stereo extension, and re-derives ALG and the wiring: of
the pair for a 4OP channel in new mode, drum sources for a drum channel, else two-operator (40_register_writes.md R100,
44_router.md R176 to R183). The clauses about a pair need the channel types to agree, as `Chip.Wired` says they do. -/
def Obligations.ConnectionWrite : Prop :=
  ∀ (i : Fin 18) (d : Byte) (s : State), s.ready = true →
    ∃ t, exec (.wrChc0 i d) s = .next t
      ∧ (let con := d.getLsbD 0
         let p := pairOf i
         let conP := (s.chip.ch p).con
         let cha := if s.chip.reg.newm then d.getLsbD 4 else true
         let chb := if s.chip.reg.newm then d.getLsbD 5 else true
         t = { s with chip := { s.chip with ops := t.chip.ops, chs := t.chip.chs } }
          ∧ t.chip.ch i = { s.chip.ch i with
              fb := d.extractLsb' 1 3, con := con, cha := cha, chb := chb
              chc := if s.chip.reg.newm then d.getLsbD 6 else false
              chd := if s.chip.reg.newm then d.getLsbD 7 else false
              leftpan := if s.chip.reg.stereoext then (s.chip.ch i).leftpan else unity cha
              rightpan := if s.chip.reg.stereoext then (s.chip.ch i).rightpan else unity chb
              alg := (t.chip.ch i).alg, tap := (t.chip.ch i).tap }
          ∧ (∀ o, t.chip.op o = { s.chip.op o with modsrc := (t.chip.op o).modsrc })
          ∧ (∀ o, chanOf o ≠ i → ¬((followsPair s i ∨ leadsPair s i) ∧ chanOf o = p) → t.chip.op o = s.chip.op o)
          ∧ (∀ j, j ≠ i → ¬((followsPair s i ∨ leadsPair s i) ∧ j = p) → t.chip.ch j = s.chip.ch j)
          ∧ (p ≠ i → t.chip.ch p = { s.chip.ch p with alg := (t.chip.ch p).alg, tap := (t.chip.ch p).tap })
          ∧ (s.chip.Wired →
              (leadsPair s i →
                  (t.chip.ch i).alg = .merged8 ∧ (t.chip.ch p).alg = mergedAlg con conP ∧ t.chip.FourOpWired p con conP)
              ∧ (followsPair s i →
                  (t.chip.ch i).alg = mergedAlg conP con ∧ (t.chip.ch p).alg = .merged8 ∧ t.chip.FourOpWired i conP con)
              ∧ (¬leadsPair s i → ¬followsPair s i →
                  (t.chip.ch i).alg = twoOpAlg con
                  ∧ if (s.chip.ch i).chtype = .tdrum
                    then (t.chip.ch i).tap = (s.chip.ch i).tap ∧ t.chip.DrumSources i con
                    else t.chip.TwoOpWired i con)))

/-- WR_CHD0 sets the two pan weights from the pan table in stereo extension and does nothing outside it (40_register_writes.md
R101). -/
def Obligations.PanWrite : Prop :=
  ∀ (i : Fin 18) (d : Byte) (s : State), s.ready = true →
    (s.chip.reg.stereoext = false → exec (.wrChd0 i d) s = .next s)
    ∧ (s.chip.reg.stereoext = true →
      ∃ t, exec (.wrChd0 i d) s = .next t ∧ OnlyChs (· = i) s t
        ∧ t.chip.ch i = { s.chip.ch i with
            leftpan := BitVec.ofNat 17 (panLut (255 - d.toNat)), rightpan := BitVec.ofNat 17 (panLut d.toNat) })

/-- WR_IGN completes and changes nothing (40_register_writes.md R103). -/
def Obligations.IgnoredWrite : Prop :=
  ∀ (a : Addr) (d : Byte) (s : State), s.ready = true → exec (.wrIgn a d) s = .next s

/-! ### Rules about all register writes -/

/-- No register write changes the oscillators, the rhythm latches, the mixer, the write buffer, the resampler, or the dynamic
state of any operator (40_register_writes.md, introduction (c); 20_memory.md R49). -/
def Obligations.WritesKeepDynamicState : Prop :=
  ∀ (i : Instr) (s t : State), isWrite i = true → exec i s = .next t →
    t.chip.run = s.chip.run ∧ (∀ o, (t.chip.op o).dyn = (s.chip.op o).dyn)
      ∧ t.output = s.output ∧ t.cmds = s.cmds ∧ t.ready = s.ready

/-- The same register write twice in succession leaves what one leaves (20_memory.md R47). -/
def Obligations.WritesAreIdempotent : Prop :=
  ∀ (i : Instr) (s t : State), isWrite i = true → exec i s = .next t → exec i t = .next t

/-- The procedure the drain step applies to a buffered entry is the immediate write to the same address (40_register_writes.md R90,
46_writebuf.md R213). -/
def Obligations.DrainPathIsWritePath : Prop :=
  ∀ (a : Addr) (d : Byte) (s : State), s.ready = true →
    exec (decodeWrite a d) s = .next { s with chip := regWrite params a d s.chip }

/-- MODSRC, TAP, ALG and CHTYPE change only in WR_CHC0, WR_4OP and WR_BD, in a tick that drains one, and in RESET (44_router.md
R185): not in another register write, immediate or drained, not in WRB, and not in a TICK, TICKR or STREAM in whose ticks no entry
of those three classes comes due. -/
def Obligations.WiringIsSticky : Prop :=
  (∀ (i : Instr) (s t : State), isWrite i = true → (∀ d, i ≠ .wr4op d) → (∀ d, i ≠ .wrBd d) → (∀ c d, i ≠ .wrChc0 c d) →
      exec i s = .next t → SameWiring s.chip t.chip)
    ∧ (∀ (a : Addr) (d : Byte) (c : Chip), rewires (classify a) = false → SameWiring c (regWrite params a d c))
    ∧ (∀ (a : Addr) (d : Byte) (s t : State), exec (.wrb a d) s = .next t → SameWiring s.chip t.chip)
    ∧ (∀ s t : State, exec .tick s = .next t → drainsNo rewires s 1 → SameWiring s.chip t.chip)
    ∧ (∀ s t : State, exec .tickr s = .next t → drainsNo rewires s (nativeTicks s 1) → SameWiring s.chip t.chip)
    ∧ ∀ (n : BitVec 28) (s t : State), exec (.stream n) s = .next t → drainsNo rewires s (nativeTicks s n.toNat) →
      SameWiring s.chip t.chip

/-- The rhythm key of an operator is written only by a write to 0x0BD (42_phase_noise_rhythm.md R151), the normal key only by a
write of class CHB0 (40_register_writes.md R98), RESET apart: not by another register write, immediate or drained, not by WRB, and
not by a TICK, TICKR or STREAM in whose ticks no entry of that class comes due. -/
def Obligations.KeyBitWriters : Prop :=
  (∀ (i : Instr) (s t : State), isWrite i = true → exec i s = .next t →
      ((∀ d, i ≠ .wrBd d) → ∀ o, (t.chip.op o).key.getLsbD 1 = (s.chip.op o).key.getLsbD 1)
      ∧ ((∀ c d, i ≠ .wrChb0 c d) → ∀ o, (t.chip.op o).key.getLsbD 0 = (s.chip.op o).key.getLsbD 0))
    ∧ (∀ (a : Addr) (d : Byte) (c : Chip) (o : Fin 36),
      (writesRhythmKey (classify a) = false → ((regWrite params a d c).op o).key.getLsbD 1 = (c.op o).key.getLsbD 1)
      ∧ (writesNormalKey (classify a) = false → ((regWrite params a d c).op o).key.getLsbD 0 = (c.op o).key.getLsbD 0))
    ∧ (∀ (a : Addr) (d : Byte) (s t : State), exec (.wrb a d) s = .next t → ∀ o, t.chip.op o = s.chip.op o)
    ∧ (∀ (s t : State) (o : Fin 36), exec .tick s = .next t →
      (drainsNo writesRhythmKey s 1 → (t.chip.op o).key.getLsbD 1 = (s.chip.op o).key.getLsbD 1)
      ∧ (drainsNo writesNormalKey s 1 → (t.chip.op o).key.getLsbD 0 = (s.chip.op o).key.getLsbD 0))
    ∧ (∀ (s t : State) (o : Fin 36), exec .tickr s = .next t →
      (drainsNo writesRhythmKey s (nativeTicks s 1) → (t.chip.op o).key.getLsbD 1 = (s.chip.op o).key.getLsbD 1)
      ∧ (drainsNo writesNormalKey s (nativeTicks s 1) → (t.chip.op o).key.getLsbD 0 = (s.chip.op o).key.getLsbD 0))
    ∧ ∀ (n : BitVec 28) (s t : State) (o : Fin 36), exec (.stream n) s = .next t →
      (drainsNo writesRhythmKey s (nativeTicks s n.toNat) → (t.chip.op o).key.getLsbD 1 = (s.chip.op o).key.getLsbD 1)
      ∧ (drainsNo writesNormalKey s (nativeTicks s n.toNat) → (t.chip.op o).key.getLsbD 0 = (s.chip.op o).key.getLsbD 0)

/-! ### The write buffer -/

/-- WRB appends one entry, unclassified, scheduled at the later of WB_LASTTIME + 2 and the sample counter, records its time and
changes no register; on a full buffer of 1024 entries it is refused (40_register_writes.md R107, 46_writebuf.md R211, R216).
The capacity and the refusal are the spec's decision D23 and its general knowledge (log 18). -/
def Obligations.BufferedWriteEnqueues : Prop :=
  ∀ (a : Addr) (d : Byte) (s : State), s.ready = true →
    (s.chip.wb.length < 1024 →
      exec (.wrb a d) s = .next { s with chip := { s.chip with
        wb := s.chip.wb ++ [⟨a, d, max (s.chip.wbLasttime + 2) s.chip.wbSamplecnt⟩]
        wbLasttime := max (s.chip.wbLasttime + 2) s.chip.wbSamplecnt } })
    ∧ (1024 ≤ s.chip.wb.length → exec (.wrb a d) s = .refused .writeBufferFull)

/-- What a tick does to the write buffer, on top of what it does to the rest of the block: with no due entry at the head nothing
drains; a due entry at the head is taken off and applied by the immediate path, and the rest of the loop goes on from there; the
sample counter then advances by one (46_writebuf.md R213, 45_mixer_lfo.md R206). -/
def Obligations.TickDrainsWriteBuffer : Prop :=
  (∀ s : State, s.ready = true →
    ∃ t, exec .tick s = .next t
      ∧ t.chip = { drainWriteBuffer params (oscPhase params (soundPhases params s.chip)) with
          wbSamplecnt := s.chip.wbSamplecnt + 1 })
    ∧ ∀ c : Chip,
      (c.wb = [] → drainWriteBuffer params c = c)
      ∧ ∀ (e : WbEntry) (rest : List WbEntry), c.wb = e :: rest →
          (c.wbSamplecnt < e.time → drainWriteBuffer params c = c)
          ∧ (e.time ≤ c.wbSamplecnt →
              drainWriteBuffer params c = drainWriteBuffer params (regWrite params e.addr e.data { c with wb := rest }))

/-! ### TICK -/

/-- TICK completes, appends its four lanes OUTP to the output, and leaves the resampler alone (40_register_writes.md R108,
47_resampler.md R225). That outputs are kept in a list of the state is the model's (log 4). -/
def Obligations.TickOutputsFrame : Prop :=
  ∀ s : State, s.ready = true →
    ∃ t, exec .tick s = .next t ∧ t.output = s.output ++ [t.chip.outp] ∧ t.cmds = s.cmds ∧ t.ready = true
      ∧ t.chip.rsm = s.chip.rsm ∧ t.chip.wbSamplecnt = s.chip.wbSamplecnt + 1 ∧ t.chip.wbLasttime = s.chip.wbLasttime

/-- A tick with no due buffered write changes no register, no derived value, no wiring and no pending write (20_memory.md R52,
44_router.md R185). -/
def Obligations.TickWithoutDueWriteKeepsRegisters : Prop :=
  ∀ s t : State, exec .tick s = .next t → (∀ e ∈ s.chip.wb.head?, s.chip.wbSamplecnt < e.time) →
    t.chip.reg = s.chip.reg ∧ t.chip.chs = s.chip.chs ∧ t.chip.wb = s.chip.wb
      ∧ ∀ o, (t.chip.op o).prog = (s.chip.op o).prog

/-- The noise register, the LFO positions and the sample counter after a tick (42_phase_noise_rhythm.md R146, 45_mixer_lfo.md R200
to R203). -/
def Obligations.TickAdvancesLfos : Prop :=
  ∀ s t : State, exec .tick s = .next t →
    t.chip.osc.noise =
        BitVec.ofBool (s.chip.osc.noise.getLsbD 0 ^^ s.chip.osc.noise.getLsbD 14) ++ s.chip.osc.noise.extractLsb' 1 22
      ∧ t.chip.osc.timer.toNat = (s.chip.osc.timer.toNat + 1) % 65536
      ∧ t.chip.osc.vibpos.toNat =
          (if s.chip.osc.timer.toNat % 1024 = 1023 then (s.chip.osc.vibpos.toNat + 1) % 8 else s.chip.osc.vibpos.toNat)
      ∧ t.chip.osc.trempos.toNat =
          (if s.chip.osc.timer.toNat % 64 = 63 then (s.chip.osc.trempos.toNat + 1) % 210 else s.chip.osc.trempos.toNat)
      ∧ (s.chip.osc.trempos.toNat < 210 →
          t.chip.osc.tremolo.toNat =
            min t.chip.osc.trempos.toNat (210 - t.chip.osc.trempos.toNat) / 2 ^ s.chip.reg.tremshift.toNat)

/-- The envelope clock after a tick: EG_ADD from the lowest set bit of EG_TIMER before it advances, the timer every other tick
with its carry, the alternating phase (45_mixer_lfo.md R204, R205). -/
def Obligations.TickAdvancesEnvelopeClock : Prop :=
  ∀ s t : State, exec .tick s = .next t →
    (∀ k, k ≤ 12 → s.chip.osc.egTimer.toNat % 2 ^ (k + 1) = 2 ^ k → t.chip.osc.egAdd.toNat = k + 1)
      ∧ (s.chip.osc.egTimer.toNat % 8192 = 0 → t.chip.osc.egAdd = 0)
      ∧ t.chip.osc.egState = !s.chip.osc.egState
      ∧ if s.chip.osc.egTimerrem = true ∨ s.chip.osc.egState = true then
          t.chip.osc.egTimer.toNat = (s.chip.osc.egTimer.toNat + 1) % 2 ^ 36
            ∧ (t.chip.osc.egTimerrem = true ↔ s.chip.osc.egTimer.toNat = 2 ^ 36 - 1)
        else t.chip.osc.egTimer = s.chip.osc.egTimer ∧ t.chip.osc.egTimerrem = s.chip.osc.egTimerrem

/-- The feedback buffer of every operator after a tick: the sum of its last two outputs shifted right by 9 - FB, 0 at FB = 0; and
its history (43_waveform_feedback.md R166). -/
def Obligations.TickFeedback : Prop :=
  ∀ (s t : State) (o : Fin 36), exec .tick s = .next t →
    let fb := (s.chip.ch (chanOf o)).fb.toNat
    (t.chip.op o).prout = (s.chip.op o).out
      ∧ (t.chip.op o).fbmod =
          if fb = 0 then 0
          else BitVec.ofInt 16 (((s.chip.op o).prout.toInt + (s.chip.op o).out.toInt) / 2 ^ (9 - fb))

/-- The output level of every operator after a tick is the sum of four terms, from the level before the tick
(41_envelope.md R121). -/
def Obligations.TickOutputLevel : Prop :=
  ∀ (s t : State) (o : Fin 36), exec .tick s = .next t →
    (t.chip.op o).egOut.toNat =
      ((s.chip.op o).egRout.toNat + 4 * (s.chip.op o).regTl.toNat
        + (s.chip.op o).egKsl.toNat / 2 ^ kslShift (s.chip.op o).regKsl
        + (if (s.chip.op o).regTrem then s.chip.osc.tremolo.toNat else 0)) % 65536

/-- The envelope state of every operator moves only along the edges of the graph, under their conditions (41_envelope.md R132),
and the phase reset is raised exactly on the way from Release to Attack (R122). -/
def Obligations.TickEnvelopeGraph : Prop :=
  ∀ (s t : State) (o : Fin 36), exec .tick s = .next t →
    let op := s.chip.op o
    ((t.chip.op o).pgReset = true ↔ op.key ≠ 0 ∧ op.egGen = .release)
      ∧ (op.key = 0 → (t.chip.op o).egGen = .release)
      ∧ (op.key ≠ 0 →
          (op.egGen = .release → (t.chip.op o).egGen = .attack)
          ∧ (op.egGen = .attack → (t.chip.op o).egGen = if op.egRout = 0 then .decay else .attack)
          ∧ (op.egGen = .decay → (t.chip.op o).egGen = if op.egRout.toNat / 16 = op.regSl.toNat then .sustain else .decay)
          ∧ (op.egGen = .sustain → (t.chip.op o).egGen = .sustain))

/-- What a tick can do to an operator's level: in Attack it falls by the complemented level over 2, 4 or 8, or holds; in Decay,
Sustain and Release it rises by 1, 2 or 4, or holds, or is clamped to silence from 0x1F8 on; a key-on snaps it to 0 or holds it
(41_envelope.md R126 to R131, R133). -/
def Obligations.TickEnvelopeLevel : Prop :=
  ∀ (s t : State) (o : Fin 36), exec .tick s = .next t →
    let op := s.chip.op o
    let r := op.egRout.toNat
    let r' := (t.chip.op o).egRout.toNat
    (op.egGen = .attack →
        r' = r ∨ (op.key ≠ 0 ∧ 0 < r ∧ (r' = r - (r / 2 + 1) ∨ r' = r - (r / 4 + 1) ∨ r' = r - (r / 8 + 1))))
      ∧ (op.egGen = .release → op.key ≠ 0 → r' = if 60 ≤ combinedRate (s.chip.ch (chanOf o)).ksv op then 0 else r)
      ∧ (op.egGen ≠ .attack → (op.egGen = .release → op.key = 0) →
          if 0x1F8 ≤ r then r' = 0x1FF
          else if op.egGen = .decay ∧ r / 16 = op.regSl.toNat then r' = r
          else r' = r ∨ r' = r + 1 ∨ r' = r + 2 ∨ r' = r + 4)

/-- The exact new level of every operator below the clamp, with the register rate each state takes (41_envelope.md R122): REG_AR in
Attack, where the level falls by its complement over `2^(4 - step)` and holds at combined rate 60 and above, when unkeyed and at 0
(R128); REG_DR in Decay outside the sustain band (R129); REG_RR in Sustain with REG_TYPE = 0, nothing with REG_TYPE = 1, and
REG_RR in Release (R130). The step size is that of R123 to R125 in both regimes: fine below combined rate 48, the coarse table and
TIMER[1:0] from 48 to 59, 3 from 60 on. -/
def Obligations.TickEnvelopeRates : Prop :=
  ∀ (s t : State) (o : Fin 36), exec .tick s = .next t →
    let op := s.chip.op o
    let ksv := (s.chip.ch (chanOf o)).ksv
    let step := stepSize s.chip.osc ksv op
    let rise := levelRise s.chip.osc ksv op
    let r := op.egRout.toNat
    let r' := (t.chip.op o).egRout.toNat
    (op.egGen = .attack → op.key ≠ 0 → r ≠ 0 →
        r' = if step op.regAr = 0 ∨ 60 ≤ combinedRate ksv op then r else r - (r / 2 ^ (4 - step op.regAr) + 1))
      ∧ (op.egGen = .attack → op.key = 0 ∨ r = 0 → r' = r)
      ∧ (r < 0x1F8 →
          (op.egGen = .decay → r / 16 ≠ op.regSl.toNat → r' = r + rise op.regDr)
          ∧ (op.egGen = .sustain → op.regType = false → r' = r + rise op.regRr)
          ∧ (op.egGen = .sustain → op.regType = true → r' = r)
          ∧ (op.egGen = .release → op.key = 0 → r' = r + rise op.regRr))

/-- The phase accumulator of every operator after a tick: zeroed on a phase reset, then advanced by the increment, modulo 2^32
(42_phase_noise_rhythm.md R142 to R144); and its phase output outside rhythm mode: bits 24 to 9 from before (R145). -/
def Obligations.TickPhase : Prop :=
  ∀ (s t : State) (o : Fin 36), exec .tick s = .next t →
    let op := s.chip.op o
    (t.chip.op o).pgPhase.toNat =
        ((if op.key ≠ 0 ∧ op.egGen = .release then 0 else op.pgPhase.toNat)
          + increment s.chip.osc s.chip.reg.vibshift (s.chip.ch (chanOf o)) op) % 2 ^ 32
      ∧ ((s.chip.reg.rhy.getLsbD 5 = false ∨ (o ≠ 13 ∧ o ≠ 16 ∧ o ≠ 17)) →
          (t.chip.op o).pgPhaseOut.toNat = phaseBits op)

/-- The rhythm latches after a tick, and the phase outputs of hi-hat, snare and top cymbal in rhythm mode, by the truth table
(42_phase_noise_rhythm.md R149, R150). -/
def Obligations.TickRhythmPhases : Prop :=
  ∀ s t : State, exec .tick s = .next t →
    let hh := phaseBits (s.chip.op 13)
    let tc := phaseBits (s.chip.op 17)
    let l := t.chip.latch
    let on := s.chip.reg.rhy.getLsbD 5
    let n := s.chip.osc.noise.getLsbD 0
    let x := fun tc3 tc5 => (l.hh2 != l.hh7) || (l.hh3 != tc5) || (tc3 != tc5)
    l.hh2 = hh.testBit 2 ∧ l.hh3 = hh.testBit 3 ∧ l.hh7 = hh.testBit 7 ∧ l.hh8 = hh.testBit 8
      ∧ l.tc3 = (if on then tc.testBit 3 else s.chip.latch.tc3) ∧ l.tc5 = (if on then tc.testBit 5 else s.chip.latch.tc5)
      ∧ (on = true →
          (t.chip.op 13).pgPhaseOut =
              (match x s.chip.latch.tc3 s.chip.latch.tc5, n with
               | false, false => 0x034
               | false, true => 0x0D0
               | true, false => 0x2D0
               | true, true => 0x234)
            ∧ (t.chip.op 16).pgPhaseOut =
              (match l.hh8, n with
               | false, false => 0x000
               | false, true => 0x100
               | true, false => 0x300
               | true, true => 0x200)
            ∧ (t.chip.op 17).pgPhaseOut = if x l.tc3 l.tc5 then 0x280 else 0x080)

/-- The output of every operator after a tick is its waveform at its phase output plus its modulation, at its output level; a
source of a lower number is read as this tick left it, one of a higher number as the tick before did (43_waveform_feedback.md R164,
44_router.md R186, 45_mixer_lfo.md R190). -/
def Obligations.TickOperatorOutput : Prop :=
  ∀ (s t : State) (o : Fin 36), exec .tick s = .next t →
    let p := ((t.chip.op o).pgPhaseOut.toNat + liveSource s.chip t.chip o (s.chip.op o).modsrc) % 1024
    (t.chip.op o).out = BitVec.ofInt 16 (wave (s.chip.op o).regWf (BitVec.ofInt 10 p) (t.chip.op o).egOut)

/-- The four mix accumulators after a tick are the sums over the channels of this tick's operator outputs, panned or masked, and
the output latches are their saturations (45_mixer_lfo.md R191 to R193). -/
def Obligations.TickMix : Prop :=
  ∀ s t : State, exec .tick s = .next t →
    t.chip.mix.a = BitVec.ofInt 32 (∑ i, panned s.chip t.chip Channel.leftpan Channel.cha i)
      ∧ t.chip.mix.b = BitVec.ofInt 32 (∑ i, panned s.chip t.chip Channel.rightpan Channel.chb i)
      ∧ t.chip.mix.c = BitVec.ofInt 32 (∑ i, masked s.chip t.chip Channel.chc i)
      ∧ t.chip.mix.d = BitVec.ofInt 32 (∑ i, masked s.chip t.chip Channel.chd i)
      ∧ t.chip.outp = ⟨saturated t.chip.mix.a, saturated t.chip.mix.b, saturated t.chip.mix.c, saturated t.chip.mix.d⟩

/-- The two ROMs hold what their rules give: EXP_ROM the powers of two rounded to the nearest integer, said in integers
(43_waveform_feedback.md R161), LOGSIN_ROM its listing (R160). The exponential lookup is an entry of the first, doubled and shifted
by the octaves (R162), at most 4084 and 0 from twelve octaves of attenuation on; every waveform value lies in -4085 .. 4084, being
0 or -1 at an output level of 0x180 or more (R165). -/
def Obligations.WaveformRange : Prop :=
  (∀ i, i < 256 →
      (2 * expRom i - 1) ^ 256 ≤ 2 ^ (11 * 256 + (255 - i)) ∧ 2 ^ (11 * 256 + (255 - i)) < (2 * expRom i + 1) ^ 256)
    ∧ (List.range 256).map logsinRom = logsinListing
    ∧ (∀ level, level ≤ 0x1FFF → expLookup level = 2 * expRom (level % 256) / 2 ^ (level / 256))
    ∧ (∀ level, expLookup level ≤ 4084 ∧ (0xC00 ≤ level → expLookup level = 0))
    ∧ ∀ (wf : BitVec 3) (p : BitVec 10) (env : BitVec 16),
      (-4085 ≤ wave wf p env ∧ wave wf p env ≤ 4084) ∧ (0x180 ≤ env.toNat → wave wf p env = 0 ∨ wave wf p env = -1)

/-- The eight waveforms at every level (43_waveform_feedback.md R163), from the first quarter of waveform 0, the flat first half of
6 and the straight first half of 7: the second half period of waveforms 0 and 6 is the ones' complement of the first, that of 2
repeats it, that of 1, 4 and 5 is silent; the second quarter of 0, 1 and 2 mirrors the first; waveform 4 is waveform 0 at double
speed on its rising eighths, mirrored on the falling ones, and waveform 5 is waveform 4 rectified; 3 keeps the rising quarters of 2;
7 is the ones' complement of itself read backwards. -/
def Obligations.WaveformShapes : Prop :=
  ∀ (p : BitVec 10) (env : BitVec 16),
    let half := p ^^^ 0x200
    (p.toNat < 256 → wave 0 p env = expLookup (logsinRom p.toNat + 8 * env.toNat))
      ∧ (p.getLsbD 9 = false →
        wave 6 p env = expLookup (8 * env.toNat) ∧ wave 7 p env = expLookup (8 * p.toNat + 8 * env.toNat))
      ∧ (p.getLsbD 9 = false →
        wave 0 half env = -wave 0 p env - 1 ∧ wave 6 half env = -wave 6 p env - 1
          ∧ wave 2 half env = wave 2 p env ∧ wave 1 half env = 0 ∧ wave 4 half env = 0 ∧ wave 5 half env = 0
          ∧ wave 1 p env = wave 0 p env ∧ wave 2 p env = wave 0 p env
          ∧ wave 5 p env = if p.getLsbD 8 then -wave 4 p env - 1 else wave 4 p env)
      ∧ (wave 0 (p ^^^ 0x1FF) env = wave 0 p env ∧ wave 1 (p ^^^ 0x1FF) env = wave 1 p env
          ∧ wave 2 (p ^^^ 0x1FF) env = wave 2 p env)
      ∧ (wave 4 (p ^^^ 0x0FF) env = wave 4 p env ∧ wave 5 (p ^^^ 0x0FF) env = wave 5 p env)
      ∧ (p.getLsbD 9 = false → p.getLsbD 7 = false → wave 4 p env = wave 0 (p <<< 1) env)
      ∧ (p.getLsbD 8 = true → wave 3 p env = 0)
      ∧ (p.getLsbD 8 = false → wave 3 p env = wave 2 p env)
      ∧ wave 7 (p ^^^ 0x3FF) env = -wave 7 p env - 1

/-! ### The resampler -/

/-- TICKR runs RSM_ACC // RSM_RATIO native ticks, each complete, keeps the last two native samples, sets RSM_OUT to their
interpolation at the remainder, adds 1024 to the remainder and outputs RSM_OUT (47_resampler.md R227; `interp` is the R228 it
names). -/
def Obligations.ResampledTick : Prop :=
  ∀ s : State, s.ready = true → s.chip.rsm.ratio ≠ 0 →
    ∃ t, exec .tickr s = .next t
      ∧ (let r := s.chip.rsm.ratio.toNat
         let n := s.chip.rsm.acc / r
         let ticked := fun k => (tickChip params)^[k] s.chip
         let lane := fun x : Quad S16 → S16 => interp params r (s.chip.rsm.acc % r) (x t.chip.rsm.prev) (x t.chip.rsm.cur)
         { t.chip with rsm := s.chip.rsm } = ticked n
          ∧ t.chip.rsm.ratio = s.chip.rsm.ratio
          ∧ t.chip.rsm.acc = s.chip.rsm.acc % r + 1024
          ∧ t.chip.rsm.cur = (if n = 0 then s.chip.rsm.cur else (ticked n).outp)
          ∧ t.chip.rsm.prev =
              (if n = 0 then s.chip.rsm.prev else if n = 1 then s.chip.rsm.cur else (ticked (n - 1)).outp)
          ∧ t.chip.rsm.out = ⟨lane Quad.a, lane Quad.b, lane Quad.c, lane Quad.d⟩
          ∧ t.output = s.output ++ [t.chip.rsm.out] ∧ t.cmds = s.cmds ∧ t.ready = true)

/-- The lanes TICKR outputs: the current sample weighted by what the accumulator lacks to the ratio, the previous one by the
accumulator after the ticks, divided by the ratio with truncation toward zero (47_resampler.md R228, the default). -/
def Obligations.ResampledLanes : Prop :=
  ∀ s t : State, exec .tickr s = .next t →
    let r : Int := s.chip.rsm.ratio.toNat
    let a : Int := s.chip.rsm.acc % s.chip.rsm.ratio.toNat
    let lane := fun p c : S16 => BitVec.ofInt 16 ((c.toInt * (r - a) + p.toInt * a).tdiv r)
    t.chip.rsm.out =
      ⟨lane t.chip.rsm.prev.a t.chip.rsm.cur.a, lane t.chip.rsm.prev.b t.chip.rsm.cur.b,
        lane t.chip.rsm.prev.c t.chip.rsm.cur.c, lane t.chip.rsm.prev.d t.chip.rsm.cur.d⟩

/-- An interpolated lane lies between the two samples, and is the current sample at a zero remainder (47_resampler.md R228). -/
def Obligations.InterpolationBetweenSamples : Prop :=
  ∀ (r a : Nat) (p c : S16), a < r →
    min p.toInt c.toInt ≤ (interp params r a p c).toInt ∧ (interp params r a p c).toInt ≤ max p.toInt c.toInt
      ∧ (a = 0 → interp params r a p c = c)

/-- At the native rate TICKR is TICK: after RESET 49716 the ratio and the accumulator are 1024, and from any state with both at
1024 a TICKR outputs the frame a TICK would and leaves the same block, with both at 1024 again (47_resampler.md R230). -/
def Obligations.ResamplerIdentity : Prop :=
  (∀ s t : State, exec (.reset 49716) s = .next t → t.chip.rsm.ratio = 1024 ∧ t.chip.rsm.acc = 1024)
    ∧ ∀ s : State, s.ready = true → s.chip.rsm.ratio = 1024 → s.chip.rsm.acc = 1024 →
      ∃ t u, exec .tickr s = .next t ∧ exec .tick s = .next u
        ∧ t.output = u.output ∧ t.chip = { u.chip with rsm := t.chip.rsm }
        ∧ t.chip.rsm.ratio = 1024 ∧ t.chip.rsm.acc = 1024

/-- STREAM n is n TICKRs, the outputs in order; STREAM 0 does nothing (40_register_writes.md R109). -/
def Obligations.StreamIsTickrs : Prop :=
  ∀ (n : BitVec 28) (s : State), s.ready = true → s.chip.rsm.ratio ≠ 0 →
    ∃ f : Nat → State, f 0 = s ∧ (∀ k, k < n.toNat → exec .tickr (f k) = .next (f (k + 1)))
      ∧ exec (.stream n) s = .next (f n.toNat)

/-! ### RESET -/

/-- RESET with a rate in range completes in every state and leaves every element at its reset value whatever it was
(70_reset_and_hazards.md R255). Most of these values are marked in the spec as general knowledge or its own decision (log 13). -/
def Obligations.ResetValues : Prop :=
  ∀ (rate : BitVec 22) (s : State), 49 ≤ rate.toNat → rate.toNat ≤ 4194303 →
    ∃ t, exec (.reset rate) s = .next t ∧ t.ready = true ∧ t.cmds = s.cmds ∧ t.output = s.output
      ∧ t.chip.reg = ⟨false, false, false, 0, 0, 4, 1⟩
      ∧ t.chip.osc = ⟨1, 0, 0, 0, 0, 0, false, false, 0⟩
      ∧ t.chip.latch = ⟨false, false, false, false, false, false⟩
      ∧ t.chip.mix = ⟨0, 0, 0, 0⟩ ∧ t.chip.outp = ⟨0, 0, 0, 0⟩
      ∧ (∀ o, t.chip.op o =
          { regTrem := false, regVib := false, regType := false, regKsr := false, regMult := 0, regKsl := 0, regTl := 0
            regAr := 0, regDr := 0, regSl := 0, regRr := 0, regWf := 0, egGen := .release, egRout := 0x1FF, egOut := 0x1FF
            egKsl := 0, key := 0, pgPhase := 0, pgPhaseOut := 0, pgReset := false, out := 0, prout := 0, fbmod := 0
            modsrc := if o.val % 6 < 3 then .fb o else .out (Fin.ofNat 36 (o.val - 3)) })
      ∧ (∀ i, t.chip.ch i =
          { fNum := 0, block := 0, fb := 0, con := false, alg := .two0, ksv := 0
            cha := true, chb := true, chc := false, chd := false, leftpan := 0x10000, rightpan := 0x10000, chtype := .t2op
            tap := ⟨.out (slot1 i), .zero, .zero, .zero⟩ })
      ∧ t.chip.wb = [] ∧ t.chip.wbSamplecnt = 0 ∧ t.chip.wbLasttime = 0
      ∧ t.chip.rsm.ratio.toNat = rate.toNat * 1024 / 49716 ∧ t.chip.rsm.acc = rate.toNat * 1024 / 49716
      ∧ t.chip.rsm.prev = ⟨0, 0, 0, 0⟩ ∧ t.chip.rsm.cur = ⟨0, 0, 0, 0⟩ ∧ t.chip.rsm.out = ⟨0, 0, 0, 0⟩

/-- Every RESET leaves the block silent, and a silent block stays silent: TICK, TICKR and
STREAM keep `Chip.Silent` and append only frames of zeros, as many as they owe (70_reset_and_hazards.md R257). -/
def Obligations.SilenceLasts : Prop :=
  (∀ (rate : BitVec 22) (s t : State), exec (.reset rate) s = .next t → t.chip.Silent)
    ∧ ∀ s : State, s.ready = true → s.chip.Silent →
    (∃ t, exec .tick s = .next t ∧ t.chip.Silent ∧ t.output = s.output ++ [⟨0, 0, 0, 0⟩])
      ∧ (s.chip.rsm.ratio ≠ 0 →
          (∃ t, exec .tickr s = .next t ∧ t.chip.Silent ∧ t.output = s.output ++ [⟨0, 0, 0, 0⟩])
          ∧ ∀ n : BitVec 28, ∃ t, exec (.stream n) s = .next t ∧ t.chip.Silent
            ∧ t.output = s.output ++ List.replicate n.toNat ⟨0, 0, 0, 0⟩)

/-! ### Invariants of every step -/

/-- The state right after RESET 49716 meets the invariant. That the model starts there is its choice (log 2). -/
def Obligations.ResetMeetsInv : Prop := State.reset.Inv

/-- Every step keeps the ranges of the block's elements (10_state.md R25; 40_register_writes.md R105, R111; 41_envelope.md R121;
43_waveform_feedback.md R165, R166; 45_mixer_lfo.md R201, R204; 42_phase_noise_rhythm.md R146). -/
def Obligations.StepKeepsRanges : Prop :=
  ∀ s t : State, (s.ready = true → s.chip.InRange) → step s = .next t → t.ready = true → t.chip.InRange

/-- Every step keeps the order of the write buffer: times at least 2 apart, the newest in WB_LASTTIME, none overdue, at most 1024
entries (46_writebuf.md R212, R213, R216). -/
def Obligations.StepKeepsWriteBufferOrder : Prop :=
  ∀ s t : State, (s.ready = true → s.chip.WbOrdered) → step s = .next t → t.ready = true → t.chip.WbOrdered

/-- Every step keeps the ratio in 1 .. 86390 and the accumulator below the ratio plus 1024 (47_resampler.md R229, R231). -/
def Obligations.StepKeepsResamplerBound : Prop :=
  ∀ s t : State, (s.ready = true → s.chip.RsmBounded) → step s = .next t → t.ready = true → t.chip.RsmBounded

/-- Every step keeps channel types, algorithm codes and wiring in agreement with RHY and FOUROP, and every modulation source and
tap inside its channel and its pair (44_router.md R186, 40_register_writes.md R92, 42_phase_noise_rhythm.md R148, R153). -/
def Obligations.StepKeepsWiring : Prop :=
  ∀ s t : State, (s.ready = true → s.chip.Wired) → step s = .next t → t.ready = true → t.chip.Wired

/-- Every step keeps the rhythm keys as RHY says, and no operator outside 12 to 17 ever has one (42_phase_noise_rhythm.md R148,
R151, R153). -/
def Obligations.StepKeepsDrumKeys : Prop :=
  ∀ s t : State, (s.ready = true → s.chip.DrumKeyed) → step s = .next t → t.ready = true → t.chip.DrumKeyed

/-- Under the invariant at most one buffered write is due in a tick: after it no pending entry is due at the counter it leaves
less one, and the buffer is shorter by at most one (46_writebuf.md R213). -/
def Obligations.AtMostOneDrainPerTick : Prop :=
  ∀ s t : State, s.chip.WbOrdered → exec .tick s = .next t →
    s.chip.wb.length ≤ t.chip.wb.length + 1 ∧ (∃ due, s.chip.wb = due ++ t.chip.wb)
      ∧ ∀ e ∈ t.chip.wb, t.chip.wbSamplecnt ≤ e.time
end

