-- ==== Sys2Proof/Laws/Decode.lean ====
section
/-! SUPPORT. Decoding a word of format REG (30_encoding.md R60, R61) and the class of every address the encoder writes (R62 to
R65). -/

namespace Sys2Proof

/-- The fields of a word of format REG. -/
theorem regWord_fields (k : BitVec 4) (a : Addr) (d : Byte) :
    (regWord k a d).extractLsb' 28 4 = k ∧ (regWord k a d).extractLsb' 17 11 = 0
      ∧ (regWord k a d).extractLsb' 8 9 = a ∧ (regWord k a d).extractLsb' 0 8 = d := by
  unfold regWord
  refine ⟨?_, ?_, ?_, ?_⟩
  all_goals
    ext j hj
    simp only [BitVec.getElem_extractLsb', BitVec.getLsbD_append]
  · simp [show ¬28 + j < 8 by omega, show ¬28 + j - 8 < 9 by omega, show ¬28 + j - 8 - 9 < 11 by omega,
      show 28 + j - 8 - 9 - 11 = j by omega, BitVec.getLsbD_eq_getElem hj]
  · simp [show ¬17 + j < 8 by omega, show ¬17 + j - 8 < 9 by omega, show 17 + j - 8 - 9 < 11 by omega]
  · simp [show ¬8 + j < 8 by omega, hj, show 8 + j - 8 = j by omega]
  · simp [hj]

/-- `WR` words decode by the class of their address. -/
theorem decode_wr (a : Addr) (d : Byte) : decode (regWord 0 a d) = .ok (decodeWrite a d) := by
  obtain ⟨h1, h2, h3, h4⟩ := regWord_fields 0 a d
  simp only [decode, h1, h2, h3, h4, if_true]

/-- `WRB` words decode whatever their address. -/
theorem decode_wrb (a : Addr) (d : Byte) : decode (regWord 1 a d) = .ok (.wrb a d) := by
  obtain ⟨h1, h2, h3, h4⟩ := regWord_fields 1 a d
  simp only [decode, h1, h2, h3, h4, if_true]
  rfl

/-- The addresses the encoder gives the operators of a class. -/
theorem classify_operatorAddr (o : Fin 36) :
    classify (operatorAddr 0x20 o) = .op20 o ∧ classify (operatorAddr 0x40 o) = .op40 o
      ∧ classify (operatorAddr 0x60 o) = .op60 o ∧ classify (operatorAddr 0x80 o) = .op80 o
      ∧ classify (operatorAddr 0xE0 o) = .ope0 o := by
  revert o
  decide

/-- The addresses the encoder gives the channels of a class. -/
theorem classify_channelAddr (c : Fin 18) :
    classify (channelAddr 0xA0 c) = .cha0 c ∧ classify (channelAddr 0xB0 c) = .chb0 c
      ∧ classify (channelAddr 0xC0 c) = .chc0 c ∧ classify (channelAddr 0xD0 c) = .chd0 c := by
  revert c
  decide

/-- An unmapped address is of class IGN. -/
theorem classify_unmapped (a : Addr) (h : mapped a = false) : classify a = .ign := by
  have all : ∀ a : Fin 512, mapped (BitVec.ofFin a) = false → classify (BitVec.ofFin a) = .ign := by decide +kernel
  exact all a.toFin h

end Sys2Proof
end

