-- ==== Sys2Proof/Laws/State.lean ====
section
/-! SUPPORT. Reading the block after one update: one lemma per field per update, and what the projections `dyn`, `prog` and `run`
see. -/

namespace Sys2Proof.Machine

variable (c : Chip) (o o' : Fin 36) (i j : Fin 18)

@[simp] theorem setOp_reg (x : Operator) : (c.setOp o x).reg = c.reg := rfl
@[simp] theorem setOp_osc (x : Operator) : (c.setOp o x).osc = c.osc := rfl
@[simp] theorem setOp_latch (x : Operator) : (c.setOp o x).latch = c.latch := rfl
@[simp] theorem setOp_mix (x : Operator) : (c.setOp o x).mix = c.mix := rfl
@[simp] theorem setOp_outp (x : Operator) : (c.setOp o x).outp = c.outp := rfl
@[simp] theorem setOp_wb (x : Operator) : (c.setOp o x).wb = c.wb := rfl
@[simp] theorem setOp_wbSamplecnt (x : Operator) : (c.setOp o x).wbSamplecnt = c.wbSamplecnt := rfl
@[simp] theorem setOp_wbLasttime (x : Operator) : (c.setOp o x).wbLasttime = c.wbLasttime := rfl
@[simp] theorem setOp_rsm (x : Operator) : (c.setOp o x).rsm = c.rsm := rfl
@[simp] theorem setOp_chs (x : Operator) : (c.setOp o x).chs = c.chs := rfl
@[simp] theorem setOp_ch (x : Operator) : (c.setOp o x).ch i = c.ch i := rfl
@[simp] theorem setOp_run (x : Operator) : (c.setOp o x).run = c.run := rfl

@[simp] theorem modOp_reg (f : Operator → Operator) : (c.modOp o f).reg = c.reg := rfl
@[simp] theorem modOp_osc (f : Operator → Operator) : (c.modOp o f).osc = c.osc := rfl
@[simp] theorem modOp_latch (f : Operator → Operator) : (c.modOp o f).latch = c.latch := rfl
@[simp] theorem modOp_mix (f : Operator → Operator) : (c.modOp o f).mix = c.mix := rfl
@[simp] theorem modOp_outp (f : Operator → Operator) : (c.modOp o f).outp = c.outp := rfl
@[simp] theorem modOp_wb (f : Operator → Operator) : (c.modOp o f).wb = c.wb := rfl
@[simp] theorem modOp_wbSamplecnt (f : Operator → Operator) : (c.modOp o f).wbSamplecnt = c.wbSamplecnt := rfl
@[simp] theorem modOp_wbLasttime (f : Operator → Operator) : (c.modOp o f).wbLasttime = c.wbLasttime := rfl
@[simp] theorem modOp_rsm (f : Operator → Operator) : (c.modOp o f).rsm = c.rsm := rfl
@[simp] theorem modOp_chs (f : Operator → Operator) : (c.modOp o f).chs = c.chs := rfl
@[simp] theorem modOp_ch (f : Operator → Operator) : (c.modOp o f).ch i = c.ch i := rfl
@[simp] theorem modOp_run (f : Operator → Operator) : (c.modOp o f).run = c.run := rfl

@[simp] theorem setCh_reg (x : Channel) : (c.setCh i x).reg = c.reg := rfl
@[simp] theorem setCh_osc (x : Channel) : (c.setCh i x).osc = c.osc := rfl
@[simp] theorem setCh_latch (x : Channel) : (c.setCh i x).latch = c.latch := rfl
@[simp] theorem setCh_mix (x : Channel) : (c.setCh i x).mix = c.mix := rfl
@[simp] theorem setCh_outp (x : Channel) : (c.setCh i x).outp = c.outp := rfl
@[simp] theorem setCh_wb (x : Channel) : (c.setCh i x).wb = c.wb := rfl
@[simp] theorem setCh_wbSamplecnt (x : Channel) : (c.setCh i x).wbSamplecnt = c.wbSamplecnt := rfl
@[simp] theorem setCh_wbLasttime (x : Channel) : (c.setCh i x).wbLasttime = c.wbLasttime := rfl
@[simp] theorem setCh_rsm (x : Channel) : (c.setCh i x).rsm = c.rsm := rfl
@[simp] theorem setCh_ops (x : Channel) : (c.setCh i x).ops = c.ops := rfl
@[simp] theorem setCh_op (x : Channel) : (c.setCh i x).op o = c.op o := rfl
@[simp] theorem setCh_run (x : Channel) : (c.setCh i x).run = c.run := rfl

@[simp] theorem modCh_reg (f : Channel → Channel) : (c.modCh i f).reg = c.reg := rfl
@[simp] theorem modCh_osc (f : Channel → Channel) : (c.modCh i f).osc = c.osc := rfl
@[simp] theorem modCh_latch (f : Channel → Channel) : (c.modCh i f).latch = c.latch := rfl
@[simp] theorem modCh_mix (f : Channel → Channel) : (c.modCh i f).mix = c.mix := rfl
@[simp] theorem modCh_outp (f : Channel → Channel) : (c.modCh i f).outp = c.outp := rfl
@[simp] theorem modCh_wb (f : Channel → Channel) : (c.modCh i f).wb = c.wb := rfl
@[simp] theorem modCh_wbSamplecnt (f : Channel → Channel) : (c.modCh i f).wbSamplecnt = c.wbSamplecnt := rfl
@[simp] theorem modCh_wbLasttime (f : Channel → Channel) : (c.modCh i f).wbLasttime = c.wbLasttime := rfl
@[simp] theorem modCh_rsm (f : Channel → Channel) : (c.modCh i f).rsm = c.rsm := rfl
@[simp] theorem modCh_ops (f : Channel → Channel) : (c.modCh i f).ops = c.ops := rfl
@[simp] theorem modCh_op (f : Channel → Channel) : (c.modCh i f).op o = c.op o := rfl
@[simp] theorem modCh_run (f : Channel → Channel) : (c.modCh i f).run = c.run := rfl

theorem op_setOp (x : Operator) : (c.setOp o x).op o' = if o = o' then x else c.op o' := by
  simp only [Chip.op, Chip.setOp, Fin.getElem_fin, Vector.getElem_set, Fin.ext_iff]

@[simp] theorem op_setOp_same (x : Operator) : (c.setOp o x).op o = x := by simp [op_setOp]

theorem op_setOp_ne (x : Operator) (h : o ≠ o') : (c.setOp o x).op o' = c.op o' := by simp [op_setOp, h]

theorem op_modOp (f : Operator → Operator) : (c.modOp o f).op o' = if o = o' then f (c.op o) else c.op o' := op_setOp ..

@[simp] theorem op_modOp_same (f : Operator → Operator) : (c.modOp o f).op o = f (c.op o) := op_setOp_same ..

theorem op_modOp_ne (f : Operator → Operator) (h : o ≠ o') : (c.modOp o f).op o' = c.op o' := op_setOp_ne _ _ _ _ h

theorem ch_setCh (x : Channel) : (c.setCh i x).ch j = if i = j then x else c.ch j := by
  simp only [Chip.ch, Chip.setCh, Fin.getElem_fin, Vector.getElem_set, Fin.ext_iff]

@[simp] theorem ch_setCh_same (x : Channel) : (c.setCh i x).ch i = x := by simp [ch_setCh]

theorem ch_modCh (f : Channel → Channel) : (c.modCh i f).ch j = if i = j then f (c.ch i) else c.ch j := ch_setCh ..

@[simp] theorem ch_modCh_same (f : Channel → Channel) : (c.modCh i f).ch i = f (c.ch i) := ch_setCh_same ..

theorem ch_modCh_ne (f : Channel → Channel) (h : i ≠ j) : (c.modCh i f).ch j = c.ch j := by simp [ch_modCh, h]

/-- An update of an operator that keeps a projection of it keeps that projection of every operator. -/
theorem op_modOp_proj {α : Type} (g : Operator → α) (f : Operator → Operator) (h : ∀ op, g (f op) = g op) :
    g ((c.modOp o f).op o') = g (c.op o') := by
  rw [op_modOp]
  split
  · next e => rw [h, e]
  · rfl

/-- An update of a channel that keeps a projection of it keeps that projection of every channel. -/
theorem ch_modCh_proj {α : Type} (g : Channel → α) (f : Channel → Channel) (h : ∀ ch, g (f ch) = g ch) :
    g ((c.modCh i f).ch j) = g (c.ch j) := by
  rw [ch_modCh]
  split
  · next e => rw [h, e]
  · rfl

/-- Two blocks are equal when every operator, every channel and every other field is. -/
theorem chip_ext {c d : Chip} (hop : ∀ o, c.op o = d.op o) (hch : ∀ i, c.ch i = d.ch i) (hreg : c.reg = d.reg)
    (hrun : c.run = d.run) : c = d := by
  have h1 : c.ops = d.ops := Vector.ext fun k hk => hop ⟨k, hk⟩
  have h2 : c.chs = d.chs := Vector.ext fun k hk => hch ⟨k, hk⟩
  cases c
  cases d
  simp only [Chip.run, ChipRun.mk.injEq] at hrun
  simp_all

/-- A change of the global registers alone. -/
@[simp] theorem op_reg (r : GlobalRegs) : ({ c with reg := r } : Chip).op o = c.op o := rfl
@[simp] theorem ch_reg (r : GlobalRegs) : ({ c with reg := r } : Chip).ch i = c.ch i := rfl
@[simp] theorem run_reg (r : GlobalRegs) : ({ c with reg := r } : Chip).run = c.run := rfl

end Sys2Proof.Machine
end

