-- ==== Sys2Proof/Laws/Frame.lean ====
section
/-! SUPPORT. What the procedures of a register write leave alone, said once as `Keeps gO gC`: the running part and the global
registers are the same, every operator is the same as far as `gO` sees, every channel as far as `gC` sees. -/

namespace Sys2Proof.Machine

/-- `c'` agrees with `c` on the running part, the global registers, what `gO` sees of operators and `gC` of channels. -/
structure Keeps {α β : Type} (gO : Operator → α) (gC : Channel → β) (c c' : Chip) : Prop where
  run : c'.run = c.run
  reg : c'.reg = c.reg
  op : ∀ o, gO (c'.op o) = gO (c.op o)
  ch : ∀ i, gC (c'.ch i) = gC (c.ch i)

variable {α β γ δ : Type} {gO : Operator → α} {gC : Channel → β} {c c' c'' : Chip}

theorem Keeps.refl (c : Chip) : Keeps gO gC c c := ⟨rfl, rfl, fun _ => rfl, fun _ => rfl⟩

theorem Keeps.trans (h : Keeps gO gC c c') (h' : Keeps gO gC c' c'') : Keeps gO gC c c'' :=
  ⟨h'.run.trans h.run, h'.reg.trans h.reg, fun o => (h'.op o).trans (h.op o), fun i => (h'.ch i).trans (h.ch i)⟩

/-- A frame for a finer view is a frame for a coarser one. -/
theorem Keeps.mono {hO : Operator → γ} {hC : Channel → δ} (h : Keeps gO gC c c') (fO : ∀ a b, gO a = gO b → hO a = hO b)
    (fC : ∀ a b, gC a = gC b → hC a = hC b) : Keeps hO hC c c' :=
  ⟨h.run, h.reg, fun o => fO _ _ (h.op o), fun i => fC _ _ (h.ch i)⟩

theorem Keeps.modOp (o : Fin 36) (f : Operator → Operator) (h : ∀ op, gO (f op) = gO op) : Keeps gO gC c (c.modOp o f) :=
  ⟨rfl, rfl, fun _ => op_modOp_proj _ _ _ gO f h, fun _ => rfl⟩

theorem Keeps.modCh (i : Fin 18) (f : Channel → Channel) (h : ∀ ch, gC (f ch) = gC ch) : Keeps gO gC c (c.modCh i f) :=
  ⟨rfl, rfl, fun _ => rfl, fun _ => ch_modCh_proj _ _ _ gC f h⟩

/-- An operator without its modulation source. -/
def Operator.eraseMod (op : Operator) : Operator := { op with modsrc := .zero }

/-- An operator without its key bits. -/
def Operator.eraseKey (op : Operator) : Operator := { op with key := 0 }

/-- An operator without its key-scale-level contribution. -/
def Operator.eraseKsl (op : Operator) : Operator := { op with egKsl := 0 }

/-- A channel without its taps. -/
def Channel.eraseTap (ch : Channel) : Channel := { ch with tap := Quad.all .zero }

/-- A channel without its taps and algorithm code. -/
def Channel.eraseWire (ch : Channel) : Channel := { ch with tap := Quad.all .zero, alg := .two0 }

/-- A channel without its frequency registers and key-scale value. -/
def Channel.eraseFreq (ch : Channel) : Channel := { ch with fNum := 0, block := 0, ksv := 0 }

/-! ### The router changes wiring only -/

theorem setModsrc_frame (o : Fin 36) (s : Source) (c : Chip) :
    Keeps Operator.eraseMod Channel.eraseTap c (setModsrc o s c) := Keeps.modOp o _ fun _ => rfl

theorem setTap_frame (i : Fin 18) (t : Quad Source) (c : Chip) :
    Keeps Operator.eraseMod Channel.eraseTap c (setTap i t c) := Keeps.modCh i _ fun _ => rfl

theorem wireTwo_frame (i : Fin 18) (b : Bool) (c : Chip) :
    Keeps Operator.eraseMod Channel.eraseTap c (wireTwo i b c) := by
  unfold wireTwo
  cases b
  all_goals
    exact (setModsrc_frame ..).trans ((setModsrc_frame ..).trans (setTap_frame ..))

theorem wireFour_frame (i : Fin 18) (a b d : Source) (t : Quad Source) (c : Chip) :
    Keeps Operator.eraseMod Channel.eraseTap c (wireFour i a b d t c) :=
  (setModsrc_frame ..).trans <| (setModsrc_frame ..).trans <| (setModsrc_frame ..).trans <| (setModsrc_frame ..).trans <|
    (setTap_frame ..).trans (setTap_frame ..)

theorem wireDrum_frame (i : Fin 18) (c : Chip) : Keeps Operator.eraseMod Channel.eraseTap c (wireDrum i c) := by
  unfold wireDrum
  dsimp only
  split
  · exact (setModsrc_frame ..).trans (setModsrc_frame ..)
  · split <;> exact (setModsrc_frame ..).trans (setModsrc_frame ..)

theorem setupAlg_frame (i : Fin 18) (c : Chip) : Keeps Operator.eraseMod Channel.eraseTap c (setupAlg i c) := by
  unfold setupAlg
  dsimp only
  split
  · exact wireDrum_frame ..
  · split
    · exact Keeps.refl _
    all_goals first | exact wireFour_frame .. | exact wireTwo_frame ..

theorem setAlgCode_frame (i : Fin 18) (x : Alg) (c : Chip) :
    Keeps Operator.eraseMod Channel.eraseWire c (setAlgCode i x c) := Keeps.modCh i _ fun _ => rfl

theorem setupAlg_frame_wire (i : Fin 18) (c : Chip) : Keeps Operator.eraseMod Channel.eraseWire c (setupAlg i c) :=
  (setupAlg_frame i c).mono (fun _ _ h => h) fun _ _ h => (congrArg Channel.eraseWire h :)

theorem updateAlg_frame (i : Fin 18) (c : Chip) : Keeps Operator.eraseMod Channel.eraseWire c (updateAlg i c) := by
  unfold updateAlg
  refine Keeps.trans (setAlgCode_frame i (if (c.ch i).con then .two1 else .two0) c) ?_
  dsimp only
  generalize setAlgCode i _ c = c'
  have two : ∀ j k x y, Keeps Operator.eraseMod Channel.eraseWire c' (setupAlg j (setAlgCode i x (setAlgCode k y c'))) :=
    fun j k x y => ((setAlgCode_frame k y c').trans (setAlgCode_frame i x _)).trans (setupAlg_frame_wire j _)
  split
  · exact two ..
  · split
    · exact ((setAlgCode_frame ..).trans (setAlgCode_frame ..)).trans (setupAlg_frame_wire ..)
    · exact setupAlg_frame_wire ..

theorem setRhythmTaps_frame (p : Params) (c : Chip) : Keeps Operator.eraseMod Channel.eraseTap c (setRhythmTaps p c) := by
  unfold setRhythmTaps
  split <;> exact (setTap_frame ..).trans <| (setTap_frame ..).trans (setTap_frame ..)

/-! ### Key and frequency procedures -/

theorem keySet_frame (i : Fin 18) (v : Bool) (c : Chip) : Keeps Operator.eraseKey id c (keySet i v c) := by
  have two : ∀ (c : Chip) (i : Fin 18),
      Keeps Operator.eraseKey id c ((c.modOp (slot0 i) (setNormalKey v)).modOp (slot1 i) (setNormalKey v)) := fun c i =>
    Keeps.trans (Keeps.modOp (slot0 i) (setNormalKey v) fun _ => rfl)
      (Keeps.modOp (slot1 i) (setNormalKey v) fun _ => rfl)
  unfold keySet
  dsimp only
  split
  · split
    · exact (two ..).trans (two ..)
    · exact two ..
    · exact two ..
    · exact Keeps.refl _
  · exact two ..

theorem updateKsl_frame (o : Fin 36) (c : Chip) : Keeps Operator.eraseKsl id c (updateKsl o c) :=
  Keeps.modOp o _ fun _ => rfl

theorem updateKsv_frame (i : Fin 18) (c : Chip) : Keeps Operator.eraseKsl Channel.eraseFreq c (updateKsv i c) :=
  Keeps.modCh i _ fun _ => rfl

theorem freqFollow_frame (i : Fin 18) (b : Bool) (c : Chip) :
    Keeps Operator.eraseKsl Channel.eraseFreq c (freqFollow i b c) := by
  have ksl : ∀ (o : Fin 36) (c : Chip), Keeps Operator.eraseKsl Channel.eraseFreq c (updateKsl o c) := fun o c =>
    (updateKsl_frame o c).mono (fun _ _ h => h) fun _ _ h => (congrArg Channel.eraseFreq h :)
  unfold freqFollow
  refine Keeps.trans (((updateKsv_frame i c).trans (ksl (slot0 i) _)).trans (ksl (slot1 i) _)) ?_
  generalize updateKsl _ _ = c'
  dsimp only
  split
  · refine Keeps.trans (Keeps.trans ?_ (ksl ..)) (ksl ..)
    exact Keeps.modCh _ _ fun _ => rfl
  · exact Keeps.refl _

/-! ### The dynamic state of operators is out of reach of every register write -/

theorem dyn_of_eraseMod (a b : Operator) (h : a.eraseMod = b.eraseMod) : a.dyn = b.dyn := (congrArg Operator.dyn h :)

theorem dyn_of_eraseKey (a b : Operator) (h : a.eraseKey = b.eraseKey) : a.dyn = b.dyn := (congrArg Operator.dyn h :)

theorem dyn_of_eraseKsl (a b : Operator) (h : a.eraseKsl = b.eraseKsl) : a.dyn = b.dyn := (congrArg Operator.dyn h :)

/-- `c'` differs from `c` in programmed state only: a register write. -/
structure WriteFrame (c c' : Chip) : Prop where
  run : c'.run = c.run
  dyn : ∀ o, (c'.op o).dyn = (c.op o).dyn

theorem WriteFrame.refl (c : Chip) : WriteFrame c c := ⟨rfl, fun _ => rfl⟩

theorem WriteFrame.trans (h : WriteFrame c c') (h' : WriteFrame c' c'') : WriteFrame c c'' :=
  ⟨h'.run.trans h.run, fun o => (h'.dyn o).trans (h.dyn o)⟩

theorem Keeps.write (h : Keeps gO gC c c') (f : ∀ a b, gO a = gO b → a.dyn = b.dyn) : WriteFrame c c' :=
  ⟨h.run, fun o => f _ _ (h.op o)⟩

theorem WriteFrame.modOp (o : Fin 36) (f : Operator → Operator) (h : ∀ op, (f op).dyn = op.dyn) :
    WriteFrame c (c.modOp o f) := (Keeps.modOp (gC := id) o f h).write fun _ _ h => h

theorem WriteFrame.modCh (i : Fin 18) (f : Channel → Channel) : WriteFrame c (c.modCh i f) := ⟨rfl, fun _ => rfl⟩

theorem WriteFrame.reg (r : GlobalRegs) : WriteFrame c { c with reg := r } := ⟨rfl, fun _ => rfl⟩

theorem updateAlg_write (i : Fin 18) (c : Chip) : WriteFrame c (updateAlg i c) := (updateAlg_frame i c).write dyn_of_eraseMod

theorem setupAlg_write (i : Fin 18) (c : Chip) : WriteFrame c (setupAlg i c) := (setupAlg_frame i c).write dyn_of_eraseMod

theorem wr4opPair_write (d : Byte) (c : Chip) (k : Nat) : WriteFrame c (wr4opPair d c k) := by
  unfold wr4opPair
  dsimp only
  split
  · exact (WriteFrame.modCh ..).trans <| (WriteFrame.modCh ..).trans (updateAlg_write ..)
  · exact (WriteFrame.modCh ..).trans <| (WriteFrame.modCh ..).trans <| (updateAlg_write ..).trans (updateAlg_write ..)

theorem foldl_write {ι : Type} (f : Chip → ι → Chip) (hf : ∀ c k, WriteFrame c (f c k)) (l : List ι) (c : Chip) :
    WriteFrame c (l.foldl f c) := by
  induction l generalizing c with
  | nil => exact WriteFrame.refl c
  | cons k l ih => exact (hf c k).trans (ih _)

theorem wr4op_write (d : Byte) (c : Chip) : WriteFrame c (wr4op d c) :=
  (WriteFrame.reg _).trans (foldl_write _ (wr4opPair_write d) _ _)

theorem undrum_write (c : Chip) (i : Fin 18) : WriteFrame c (undrum c i) := by
  unfold undrum setChtype
  refine WriteFrame.trans ?_ (WriteFrame.modOp _ _ fun _ => rfl)
  refine WriteFrame.trans ?_ (WriteFrame.modOp _ _ fun _ => rfl)
  exact (WriteFrame.modCh ..).trans (setupAlg_write ..)

theorem setChtype_write (i : Fin 18) (t : ChType) (c : Chip) : WriteFrame c (setChtype i t c) := WriteFrame.modCh ..

theorem setRhythmKey_write (v : Bool) (o : Fin 36) (c : Chip) : WriteFrame c (c.modOp o (setRhythmKey v)) :=
  WriteFrame.modOp _ _ fun _ => rfl

theorem rhythmReconfig_write (p : Params) (d : Byte) (c : Chip) : WriteFrame c (rhythmReconfig p d c) := by
  unfold rhythmReconfig
  dsimp only
  refine WriteFrame.trans (WriteFrame.reg { c.reg with rhy := d.extractLsb' 0 6 }) ?_
  split
  · refine WriteFrame.trans ?_ (setRhythmKey_write ..)
    refine WriteFrame.trans ?_ (setRhythmKey_write ..)
    refine WriteFrame.trans ?_ (setRhythmKey_write ..)
    refine WriteFrame.trans ?_ (setRhythmKey_write ..)
    refine WriteFrame.trans ?_ (setRhythmKey_write ..)
    refine WriteFrame.trans ?_ (setRhythmKey_write ..)
    refine WriteFrame.trans ?_ (setupAlg_write ..)
    refine WriteFrame.trans ?_ (setupAlg_write ..)
    refine WriteFrame.trans ?_ (setupAlg_write ..)
    refine WriteFrame.trans ?_ (setChtype_write ..)
    refine WriteFrame.trans ?_ (setChtype_write ..)
    refine WriteFrame.trans ?_ (setChtype_write ..)
    exact (setRhythmTaps_frame ..).write dyn_of_eraseMod
  · exact foldl_write _ undrum_write _ _

theorem wrBd_write (p : Params) (d : Byte) (c : Chip) : WriteFrame c (wrBd p d c) :=
  WriteFrame.trans (c' := { c with reg := _ }) (WriteFrame.reg _) (rhythmReconfig_write ..)

theorem wrOp40_write (o : Fin 36) (d : Byte) (c : Chip) : WriteFrame c (wrOp40 o d c) := by
  unfold wrOp40
  refine WriteFrame.trans ?_ ((updateKsl_frame o _).write dyn_of_eraseKsl)
  exact WriteFrame.modOp o _ fun _ => rfl

theorem freqFollow_write (i : Fin 18) (b : Bool) (c : Chip) : WriteFrame c (freqFollow i b c) :=
  (freqFollow_frame i b c).write dyn_of_eraseKsl

theorem wrCha0_write (i : Fin 18) (d : Byte) (c : Chip) : WriteFrame c (wrCha0 i d c) := by
  unfold wrCha0
  split
  · exact WriteFrame.refl c
  · exact (WriteFrame.modCh ..).trans (freqFollow_write ..)

theorem keySet_write (i : Fin 18) (v : Bool) (c : Chip) : WriteFrame c (keySet i v c) :=
  (keySet_frame i v c).write dyn_of_eraseKey

theorem wrChb0_write (i : Fin 18) (d : Byte) (c : Chip) : WriteFrame c (wrChb0 i d c) := by
  unfold wrChb0
  dsimp only
  refine WriteFrame.trans ?_ (keySet_write ..)
  split
  · exact WriteFrame.refl c
  · exact WriteFrame.trans (WriteFrame.modCh ..) (freqFollow_write ..)

theorem wrChc0_write (i : Fin 18) (d : Byte) (c : Chip) : WriteFrame c (wrChc0 i d c) := by
  unfold wrChc0
  dsimp only
  have base : WriteFrame c (updateAlg i (c.modCh i fun ch => { ch with fb := d.extractLsb' 1 3, con := d.getLsbD 0 })) :=
    WriteFrame.trans (WriteFrame.modCh ..) (updateAlg_write ..)
  refine base.trans ?_
  generalize updateAlg i _ = c'
  by_cases h : (c'.modCh i fun ch =>
      if c'.reg.newm then
        { ch with cha := d.getLsbD 4, chb := d.getLsbD 5, chc := d.getLsbD 6, chd := d.getLsbD 7 }
      else { ch with cha := true, chb := true, chc := false, chd := false }).reg.stereoext = true
  · rw [if_pos h]
    exact WriteFrame.modCh ..
  · rw [if_neg h]
    exact WriteFrame.trans (WriteFrame.modCh ..) (WriteFrame.modCh ..)

theorem wrChd0_write (i : Fin 18) (d : Byte) (c : Chip) : WriteFrame c (wrChd0 i d c) := by
  unfold wrChd0
  split
  · exact WriteFrame.modCh ..
  · exact WriteFrame.refl c

/-- No register write, immediate or drained, changes dynamic state. -/
theorem regWrite_write (p : Params) (a : Addr) (d : Byte) (c : Chip) : WriteFrame c (regWrite p a d c) := by
  unfold regWrite
  split
  · exact WriteFrame.reg _
  · exact wr4op_write ..
  · exact WriteFrame.reg _
  · exact wrBd_write ..
  · exact WriteFrame.modOp _ _ fun _ => rfl
  · exact wrOp40_write ..
  · exact WriteFrame.modOp _ _ fun _ => rfl
  · exact WriteFrame.modOp _ _ fun _ => rfl
  · exact WriteFrame.modOp _ _ fun _ => rfl
  · exact wrCha0_write ..
  · exact wrChb0_write ..
  · exact wrChc0_write ..
  · exact wrChd0_write ..
  · exact WriteFrame.refl c

end Sys2Proof.Machine
end

