-- ==== Sys2Proof/Laws/PerInstr.lean ====
section
/-! SUPPORT. The family `RoundTrip`: each command decodes from its own word. -/

namespace Sys2Proof.Laws.RoundTrip

/-- A well-formed command decodes from its word. -/
def Statement (i : Instr) : Prop := i.wf = true → decode (encode i) = .ok i

theorem of_class {a : Addr} {d : Byte} {i : Instr} (h : decodeWrite a d = i) : decode (regWord 0 a d) = .ok i :=
  (decode_wr a d).trans (congrArg _ h)

theorem wrNts (d : Byte) : Statement (.wrNts d) := fun _ => of_class (d := d) (by rfl)

theorem wr4op (d : Byte) : Statement (.wr4op d) := fun _ => of_class (d := d) (by rfl)

theorem wrMode (d : Byte) : Statement (.wrMode d) := fun _ => of_class (d := d) (by rfl)

theorem wrBd (d : Byte) : Statement (.wrBd d) := fun _ => of_class (d := d) (by rfl)

theorem wrOp20 (o : Fin 36) (d : Byte) : Statement (.wrOp20 o d) := fun _ =>
  of_class (by simp only [decodeWrite, (classify_operatorAddr o).1])

theorem wrOp40 (o : Fin 36) (d : Byte) : Statement (.wrOp40 o d) := fun _ =>
  of_class (by simp only [decodeWrite, (classify_operatorAddr o).2.1])

theorem wrOp60 (o : Fin 36) (d : Byte) : Statement (.wrOp60 o d) := fun _ =>
  of_class (by simp only [decodeWrite, (classify_operatorAddr o).2.2.1])

theorem wrOp80 (o : Fin 36) (d : Byte) : Statement (.wrOp80 o d) := fun _ =>
  of_class (by simp only [decodeWrite, (classify_operatorAddr o).2.2.2.1])

theorem wrOpe0 (o : Fin 36) (d : Byte) : Statement (.wrOpe0 o d) := fun _ =>
  of_class (by simp only [decodeWrite, (classify_operatorAddr o).2.2.2.2])

theorem wrCha0 (c : Fin 18) (d : Byte) : Statement (.wrCha0 c d) := fun _ =>
  of_class (by simp only [decodeWrite, (classify_channelAddr c).1])

theorem wrChb0 (c : Fin 18) (d : Byte) : Statement (.wrChb0 c d) := fun _ =>
  of_class (by simp only [decodeWrite, (classify_channelAddr c).2.1])

theorem wrChc0 (c : Fin 18) (d : Byte) : Statement (.wrChc0 c d) := fun _ =>
  of_class (by simp only [decodeWrite, (classify_channelAddr c).2.2.1])

theorem wrChd0 (c : Fin 18) (d : Byte) : Statement (.wrChd0 c d) := fun _ =>
  of_class (by simp only [decodeWrite, (classify_channelAddr c).2.2.2])

theorem wrIgn (a : Addr) (d : Byte) : Statement (.wrIgn a d) := fun h =>
  of_class (by simp only [decodeWrite, classify_unmapped a (by simpa [Instr.wf] using h)])

theorem wrb (a : Addr) (d : Byte) : Statement (.wrb a d) := fun _ => decode_wrb a d

theorem tick : Statement .tick := fun _ => by rfl

theorem tickr : Statement .tickr := fun _ => by rfl

theorem reset (rate : BitVec 22) : Statement (.reset rate) := fun _ => by
  have h1 : (encode (.reset rate)).extractLsb' 28 4 = 4 := by
    ext j hj
    simp only [encode, BitVec.getElem_extractLsb', BitVec.getLsbD_append]
    simp [show ¬28 + j < 22 by omega, show ¬28 + j - 22 < 6 by omega, show 28 + j - 22 - 6 = j by omega,
      BitVec.getLsbD_eq_getElem hj]
  have h2 : (encode (.reset rate)).extractLsb' 22 6 = 0 := by
    ext j hj
    simp only [encode, BitVec.getElem_extractLsb', BitVec.getLsbD_append]
    simp [show ¬22 + j < 22 by omega, hj]
  have h3 : (encode (.reset rate)).extractLsb' 0 22 = rate := by
    ext j hj
    simp only [encode, BitVec.getElem_extractLsb', BitVec.getLsbD_append]
    simp [hj]
  simp [decode, h1, h2, h3]

theorem stream (n : BitVec 28) : Statement (.stream n) := fun _ => by
  have h1 : (encode (.stream n)).extractLsb' 28 4 = 5 := by
    ext j hj
    simp only [encode, BitVec.getElem_extractLsb', BitVec.getLsbD_append]
    simp [show ¬28 + j < 28 by omega, BitVec.getLsbD_eq_getElem hj]
  have h2 : (encode (.stream n)).extractLsb' 0 28 = n := by
    ext j hj
    simp only [encode, BitVec.getElem_extractLsb', BitVec.getLsbD_append]
    simp [hj]
  simp [decode, h1, h2]

end Sys2Proof.Laws.RoundTrip
end

