-- ==== Sys2Proof/Laws/Tick.lean ====
section
/-! SUPPORT. What one native tick does, said once: one operator step, the walk over all operators, the drain of the write buffer,
the tick as a whole, and what it keeps when only certain writes come due. -/

namespace Sys2Proof.Machine

/-- `d` agrees with `c` on everything but the operators and the rhythm latches. -/
structure OperatorsOnly (c d : Chip) : Prop where
  chs : d.chs = c.chs
  reg : d.reg = c.reg
  osc : d.osc = c.osc
  mix : d.mix = c.mix
  outp : d.outp = c.outp
  wb : d.wb = c.wb
  wbSamplecnt : d.wbSamplecnt = c.wbSamplecnt
  wbLasttime : d.wbLasttime = c.wbLasttime
  rsm : d.rsm = c.rsm

theorem OperatorsOnly.trans {c d e : Chip} (h : OperatorsOnly c d) (h' : OperatorsOnly d e) : OperatorsOnly c e :=
  ⟨h'.chs.trans h.chs, h'.reg.trans h.reg, h'.osc.trans h.osc, h'.mix.trans h.mix, h'.outp.trans h.outp, h'.wb.trans h.wb,
    h'.wbSamplecnt.trans h.wbSamplecnt, h'.wbLasttime.trans h.wbLasttime, h'.rsm.trans h.rsm⟩

theorem OperatorsOnly.ch {c d : Chip} (h : OperatorsOnly c d) (i : Fin 18) : d.ch i = c.ch i := by
  unfold Chip.ch
  rw [h.chs]

/-! ### One operator step -/

/-- The feedback buffer, then the envelope, of an operator before its phase step. -/
def afterEnvelope (p : Params) (c : Chip) (o : Fin 36) : Operator :=
  envelopeOp p c.osc (c.ch (chanOf o)).ksv
    { c.op o with fbmod := feedbackMod (c.ch (chanOf o)).fb (c.op o), prout := (c.op o).out }

/-- The operator after its phase step. -/
def afterPhase (p : Params) (c : Chip) (o : Fin 36) : Operator :=
  let op := afterEnvelope p c o
  let rhythm := c.reg.rhy.getLsbD 5
  let ph := phase16 (c.op o)
  { op with
    pgPhase := phaseNext (phaseIncr c.osc c.reg.vibshift (c.ch (chanOf o)) (c.op o)) op
    pgPhaseOut := phaseOut p o rhythm (latchNext o rhythm ph c.latch) (c.osc.noise.getLsbD 0) ph }

/-- One operator step: the operator, the latches, and nothing else. -/
theorem operatorStep_eq (p : Params) (hp : p.noisePerOperator = false) (c : Chip) (o : Fin 36) :
    operatorStep p c o =
      { c.setOp o { afterPhase p c o with
          out := waveOut (srcValue (c.setOp o (afterPhase p c o)) (c.op o).modsrc) (afterPhase p c o) } with
        latch := latchNext o (c.reg.rhy.getLsbD 5) (phase16 (c.op o)) c.latch } := by
  have h1 : feedbackStep o c = c.setOp o
      { c.op o with fbmod := feedbackMod (c.ch (chanOf o)).fb (c.op o), prout := (c.op o).out } := rfl
  have h2 : envelopeStep p o (feedbackStep o c) = c.setOp o (afterEnvelope p c o) := by
    rw [h1]
    unfold envelopeStep Chip.modOp
    rw [op_setOp_same]
    simp only [Chip.setOp, Vector.set_set]
    rfl
  have h3 : phaseStep p o (c.setOp o (afterEnvelope p c o)) =
      { c.setOp o (afterPhase p c o) with
        latch := latchNext o (c.reg.rhy.getLsbD 5) (phase16 (c.op o)) c.latch } := by
    unfold phaseStep
    simp only [op_setOp_same, hp, Bool.false_eq_true, if_false]
    simp only [Chip.setOp, Vector.set_set]
    rfl
  unfold operatorStep
  rw [h2, h3]
  unfold waveStep modValue
  have hop : (({ c.setOp o (afterPhase p c o) with
      latch := latchNext o (c.reg.rhy.getLsbD 5) (phase16 (c.op o)) c.latch } : Chip).op o) = afterPhase p c o :=
    op_setOp_same ..
  have hsrc : ∀ s, srcValue { c.setOp o (afterPhase p c o) with
      latch := latchNext o (c.reg.rhy.getLsbD 5) (phase16 (c.op o)) c.latch } s =
      srcValue (c.setOp o (afterPhase p c o)) s := fun s => by cases s <;> rfl
  unfold Chip.modOp
  rw [hop, hsrc]
  simp only [Chip.setOp, Vector.set_set]
  rfl

variable (p : Params) (hp : p.noisePerOperator = false) (c : Chip) (o : Fin 36)

include hp

/-- An operator step leaves the other operators alone. -/
theorem operatorStep_op_ne {j : Fin 36} (h : o ≠ j) : (operatorStep p c o).op j = c.op j := by
  rw [operatorStep_eq p hp]
  exact op_setOp_ne _ _ _ _ h

/-- An operator step leaves everything but its operator and the latches alone. -/
theorem operatorStep_rest : OperatorsOnly c (operatorStep p c o) := by
  rw [operatorStep_eq p hp]
  exact ⟨rfl, rfl, rfl, rfl, rfl, rfl, rfl, rfl, rfl⟩

theorem operatorStep_latch :
    (operatorStep p c o).latch = latchNext o (c.reg.rhy.getLsbD 5) (phase16 (c.op o)) c.latch := by
  rw [operatorStep_eq p hp]

theorem operatorStep_op : (operatorStep p c o).op o =
    { afterPhase p c o with
      out := waveOut (srcValue (c.setOp o (afterPhase p c o)) (c.op o).modsrc) (afterPhase p c o) } := by
  rw [operatorStep_eq p hp]
  exact op_setOp_same ..

/-- An operator step does not change what is programmed. -/
theorem operatorStep_prog (j : Fin 36) : ((operatorStep p c o).op j).prog = (c.op j).prog := by
  by_cases h : o = j
  · subst h
    rw [operatorStep_op p hp]
    rfl
  · rw [operatorStep_op_ne p hp c o h]

/-! ### The walk over the operators -/

theorem operatorSteps_rest (l : List (Fin 36)) : OperatorsOnly c (operatorSteps p l c) := by
  induction l generalizing c with
  | nil => exact ⟨rfl, rfl, rfl, rfl, rfl, rfl, rfl, rfl, rfl⟩
  | cons o l ih => exact (operatorStep_rest p hp c o).trans (ih (operatorStep p c o))

theorem operatorSteps_prog (l : List (Fin 36)) (j : Fin 36) : ((operatorSteps p l c).op j).prog = (c.op j).prog := by
  induction l generalizing c with
  | nil => rfl
  | cons o l ih => exact (ih (operatorStep p c o)).trans (operatorStep_prog p hp c o j)

theorem operatorSteps_op_of_not_mem (l : List (Fin 36)) {j : Fin 36} (h : j ∉ l) : (operatorSteps p l c).op j = c.op j := by
  induction l generalizing c with
  | nil => rfl
  | cons o l ih =>
    rw [List.mem_cons, not_or] at h
    exact (ih (operatorStep p c o) h.2).trans (operatorStep_op_ne p hp c o fun e => h.1 e.symm)

omit hp in
theorem operatorSteps_append (l l' : List (Fin 36)) : operatorSteps p (l ++ l') c = operatorSteps p l' (operatorSteps p l c) :=
  List.foldl_append

omit hp in
/-- The operators before `o`, `o`, and those after it. -/
theorem allOps_split (o : Fin 36) : allOps = allOps.take o.val ++ o :: allOps.drop (o.val + 1)
    ∧ (∀ j, j ∈ allOps.take o.val ↔ j < o) ∧ ∀ j, j ∈ allOps.drop (o.val + 1) ↔ o < j := by
  revert o
  decide +kernel

/-- The block as operator `o` finds it in a tick. -/
def beforeStep (p : Params) (c : Chip) (o : Fin 36) : Chip := operatorSteps p (allOps.take o.val) c

/-- What operator `o` finds: earlier operators as this tick leaves them, later ones and itself as the tick found them. -/
theorem beforeStep_op (j : Fin 36) :
    (beforeStep p c o).op j = if j < o then (operatorSteps p allOps c).op j else c.op j := by
  obtain ⟨h, h1, h2⟩ := allOps_split o
  unfold beforeStep
  by_cases hj : j < o
  · rw [if_pos hj]
    conv_rhs => rw [h, operatorSteps_append]
    refine (operatorSteps_op_of_not_mem p hp _ _ ?_).symm
    rw [List.mem_cons, h2, not_or]
    exact ⟨ne_of_lt hj, not_lt_of_gt hj⟩
  · rw [if_neg hj]
    exact operatorSteps_op_of_not_mem p hp _ _ fun hm => hj ((h1 j).1 hm)

theorem beforeStep_rest : OperatorsOnly c (beforeStep p c o) := operatorSteps_rest p hp c _

/-- What the walk makes of operator `o`. -/
theorem operatorSteps_op :
    (operatorSteps p allOps c).op o = (operatorStep p (beforeStep p c o) o).op o := by
  obtain ⟨h, _, h2⟩ := allOps_split o
  conv_lhs => rw [h, operatorSteps_append]
  refine operatorSteps_op_of_not_mem p hp _ (allOps.drop (o.val + 1)) ?_
  rw [h2]
  exact lt_irrefl o

omit hp

/-! ### The drain -/

/-- The drain changes programmed state and the queue only. -/
theorem drainFrom_frame (l : List WbEntry) : (drainFrom p l c).run = { c.run with wb := (drainFrom p l c).wb }
    ∧ ∀ o, ((drainFrom p l c).op o).dyn = (c.op o).dyn := by
  induction l generalizing c with
  | nil => exact ⟨rfl, fun _ => rfl⟩
  | cons e l ih =>
    unfold drainFrom
    split
    · obtain ⟨h1, h2⟩ := ih (regWrite p e.addr e.data { c with wb := l })
      have h := regWrite_write p e.addr e.data { c with wb := l }
      refine ⟨?_, fun o => (h2 o).trans (h.dyn o)⟩
      rw [h1, h.run]
      rfl
    · exact ⟨rfl, fun _ => rfl⟩

/-- Nothing drains when the head is not due. -/
theorem drain_of_not_due (h : ∀ e ∈ c.wb.head?, c.wbSamplecnt < e.time) : drainWriteBuffer p c = c := by
  unfold drainWriteBuffer
  cases hw : c.wb with
  | nil =>
    unfold drainFrom
    rw [← hw]
  | cons e l =>
    have he : c.wbSamplecnt < e.time := h e (by rw [hw]; rfl)
    unfold drainFrom
    rw [if_neg (Nat.not_le.2 he), ← hw]

/-- A due head is applied and the loop goes on. -/
theorem drain_of_due {e : WbEntry} {l : List WbEntry} (hw : c.wb = e :: l) (he : e.time ≤ c.wbSamplecnt) :
    drainWriteBuffer p c = drainWriteBuffer p (regWrite p e.addr e.data { c with wb := l }) := by
  have hwb : (regWrite p e.addr e.data { c with wb := l }).wb = l :=
    congrArg ChipRun.wb (regWrite_write p e.addr e.data { c with wb := l }).run
  unfold drainWriteBuffer
  rw [hw, hwb]
  conv_lhs => unfold drainFrom
  rw [if_pos he]

/-! ### The tick -/

/-- The block before the drain of a tick, under the parameters of the machine. -/
theorem beforeDrain_eq : oscPhase params (soundPhases params c) =
    { operatorSteps params allOps c with
      mix := laneSums (operatorSteps params allOps c)
      outp := (laneSums (operatorSteps params allOps c)).map clipLane
      osc := oscStep params c.reg.tremshift c.osc } := by
  have h := operatorSteps_rest params rfl c allOps
  show oscPhase params (mixAll (operatorSteps params allOps c)) = _
  unfold oscPhase mixAll
  dsimp only
  rw [h.reg, h.osc]

/-- What a tick leaves in the running part and in the dynamic state of the operators. -/
theorem tick_run : (tickChip params c).run =
      ⟨oscStep params c.reg.tremshift c.osc, (operatorSteps params allOps c).latch, laneSums (operatorSteps params allOps c),
        (laneSums (operatorSteps params allOps c)).map clipLane, (tickChip params c).wb, c.wbSamplecnt + 1, c.wbLasttime, c.rsm⟩
    ∧ ∀ o, ((tickChip params c).op o).dyn = ((operatorSteps params allOps c).op o).dyn := by
  have h := operatorSteps_rest params rfl c allOps
  have hm := beforeDrain_eq c
  show (drainPhase params (oscPhase params (soundPhases params c))).run = _
    ∧ ∀ o, ((drainPhase params (oscPhase params (soundPhases params c))).op o).dyn = _
  rw [show (tickChip params c).wb = (drainPhase params (oscPhase params (soundPhases params c))).wb from rfl]
  generalize oscPhase params (soundPhases params c) = m at hm
  generalize operatorSteps params allOps c = d at h hm
  obtain ⟨d1, d2⟩ := drainFrom_frame params m m.wb
  have d3 : (drainFrom params m.wb m).wbSamplecnt = m.wbSamplecnt := congrArg ChipRun.wbSamplecnt d1
  constructor
  · show { (drainFrom params m.wb m).run with wbSamplecnt := (drainFrom params m.wb m).wbSamplecnt + 1 } = _
    rw [d1, d3, hm]
    simp only [Chip.run, h.wbSamplecnt, h.wbLasttime, h.rsm, ChipRun.mk.injEq, true_and, and_true]
    rfl
  · intro o
    refine (d2 o).trans ?_
    rw [hm]
    rfl

/-- A tick with no due entry at the head of the buffer: the sound phases, the oscillators and the counter, nothing else. -/
theorem tick_of_not_due (h : ∀ e ∈ c.wb.head?, c.wbSamplecnt < e.time) : tickChip params c =
    { c with
      ops := (operatorSteps params allOps c).ops
      latch := (operatorSteps params allOps c).latch
      mix := laneSums (operatorSteps params allOps c)
      outp := (laneSums (operatorSteps params allOps c)).map clipLane
      osc := oscStep params c.reg.tremshift c.osc
      wbSamplecnt := c.wbSamplecnt + 1 } := by
  have hr := operatorSteps_rest params rfl c allOps
  have hm := beforeDrain_eq c
  have hd : drainWriteBuffer params (oscPhase params (soundPhases params c)) = oscPhase params (soundPhases params c) := by
    refine drain_of_not_due _ _ ?_
    rw [hm]
    dsimp only
    rw [hr.wb, hr.wbSamplecnt]
    exact h
  unfold tickChip drainPhase
  dsimp only
  rw [hd, hm]
  dsimp only
  rw [hr.chs, hr.reg, hr.wb, hr.wbSamplecnt, hr.wbLasttime, hr.rsm]

/-! ### What comes due -/

/-- The entries the drain of one tick takes off. -/
theorem drainFrom_wb (l : List WbEntry) :
    (drainFrom p l c).wb = l.dropWhile fun e => decide (e.time < c.wbSamplecnt + 1) := by
  induction l generalizing c with
  | nil => rfl
  | cons e l ih =>
    unfold drainFrom
    by_cases h : e.time ≤ c.wbSamplecnt
    · have hs : (regWrite p e.addr e.data { c with wb := l }).wbSamplecnt = c.wbSamplecnt :=
        congrArg ChipRun.wbSamplecnt (regWrite_write p e.addr e.data { c with wb := l }).run
      rw [if_pos h, ih, hs, List.dropWhile_cons_of_pos (by simpa using Nat.lt_succ_of_le h)]
    · rw [if_neg h, List.dropWhile_cons_of_neg (by simpa using h)]

/-- What every due write keeps, the drain keeps. -/
theorem drainFrom_keeps {α : Type} (f : Chip → α) (hwb : ∀ c w, f { c with wb := w } = f c) (l : List WbEntry)
    (h : ∀ e ∈ l.takeWhile fun e => decide (e.time < c.wbSamplecnt + 1), ∀ d, f (regWrite p e.addr e.data d) = f d) :
    f (drainFrom p l c) = f c := by
  induction l generalizing c with
  | nil => exact hwb ..
  | cons e l ih =>
    unfold drainFrom
    split
    · rename_i ht
      have hs : (regWrite p e.addr e.data { c with wb := l }).wbSamplecnt = c.wbSamplecnt :=
        congrArg ChipRun.wbSamplecnt (regWrite_write p e.addr e.data { c with wb := l }).run
      rw [List.takeWhile_cons_of_pos (by simpa using Nat.lt_succ_of_le ht)] at h
      rw [ih _ (by rw [hs]; exact fun e' he' => h e' (List.mem_cons_of_mem _ he')), h e List.mem_cons_self, hwb]
    · exact hwb ..

/-- `f` sees only what is programmed: the channels and the programmed part of the operators. -/
def SeesProgram {α : Type} (f : Chip → α) : Prop :=
  ∀ c d : Chip, d.chs = c.chs → (∀ o, (d.op o).prog = (c.op o).prog) → f d = f c

variable {c}

/-- The block a tick drains into, as far as the buffer, the counter and the program go. -/
theorem beforeDrain_frame : (oscPhase params (soundPhases params c)).wb = c.wb
    ∧ (oscPhase params (soundPhases params c)).wbSamplecnt = c.wbSamplecnt
    ∧ (oscPhase params (soundPhases params c)).chs = c.chs
    ∧ ∀ o, ((oscPhase params (soundPhases params c)).op o).prog = (c.op o).prog := by
  have h := operatorSteps_rest params rfl c allOps
  have hp := operatorSteps_prog params rfl c allOps
  rw [beforeDrain_eq]
  generalize operatorSteps params allOps c = d at h hp
  exact ⟨h.wb, h.wbSamplecnt, h.chs, hp⟩

theorem tick_wb : (tickChip params c).wb = c.wb.dropWhile fun e => decide (e.time < c.wbSamplecnt + 1) := by
  obtain ⟨h1, h2, _⟩ := beforeDrain_frame (c := c)
  show (drainFrom params (oscPhase params (soundPhases params c)).wb _).wb = _
  rw [drainFrom_wb, h1, h2]

/-- What every write that comes due keeps, a tick keeps. -/
theorem tick_keeps {α : Type} {f : Chip → α} (hf : SeesProgram f)
    (h : ∀ e ∈ c.wb.takeWhile fun e => decide (e.time < c.wbSamplecnt + 1), ∀ d, f (regWrite params e.addr e.data d) = f d) :
    f (tickChip params c) = f c := by
  obtain ⟨h1, h2, h3, h4⟩ := beforeDrain_frame (c := c)
  refine (hf (drainWriteBuffer params (oscPhase params (soundPhases params c))) (tickChip params c) rfl fun _ => rfl).trans ?_
  refine (drainFrom_keeps params _ f (fun c w => hf c _ rfl fun _ => rfl) _ ?_).trans (hf _ _ h3 h4)
  rw [h1, h2]
  exact h

/-- The entries that come due in `n + 1` ticks: those of the first tick, then those of the `n` after it. -/
theorem takeWhile_due (l : List WbEntry) (m n : Nat) :
    (l.takeWhile fun e => decide (e.time < m + (n + 1))) =
      (l.takeWhile fun e => decide (e.time < m + 1))
        ++ (l.dropWhile fun e => decide (e.time < m + 1)).takeWhile fun e => decide (e.time < m + 1 + n) := by
  induction l with
  | nil => rfl
  | cons e l ih =>
    by_cases h : e.time < m + 1
    · have h' : e.time < m + (n + 1) := by omega
      simp only [List.takeWhile_cons, List.dropWhile_cons, h, h', decide_true, if_true, List.cons_append, ih]
    · simp only [List.takeWhile_cons, List.dropWhile_cons, h, decide_false, Bool.false_eq_true, if_false, List.nil_append,
        show m + (n + 1) = m + 1 + n by omega]

/-- What every write that comes due keeps, `n` ticks keep. -/
theorem ticks_keep {α : Type} {f : Chip → α} (hf : SeesProgram f) (n : Nat)
    (h : ∀ e ∈ c.wb.takeWhile fun e => decide (e.time < c.wbSamplecnt + n), ∀ d, f (regWrite params e.addr e.data d) = f d) :
    f ((tickChip params)^[n] c) = f c := by
  induction n generalizing c with
  | zero => rfl
  | succ n ih =>
    rw [takeWhile_due] at h
    have hs : (tickChip params c).wbSamplecnt = c.wbSamplecnt + 1 := congrArg ChipRun.wbSamplecnt (tick_run c).1
    rw [Function.iterate_succ_apply, ih (by rw [tick_wb, hs]; exact fun e he => h e (List.mem_append_right _ he)),
      tick_keeps hf fun e he => h e (List.mem_append_left _ he)]

end Sys2Proof.Machine
end

