-- ==== Sys2Proof/Laws/Resample.lean ====
section
/-! SUPPORT. Register writes read nothing of the running part, a tick reads nothing of the resampler, and what the loop of
`TickResampled` therefore does. -/

namespace Sys2Proof.Machine

/-! ### Register writes and the running part -/

/-- The block with another running part. -/
def Chip.withRun (c : Chip) (r : ChipRun) : Chip :=
  { c with
    osc := r.osc, latch := r.latch, mix := r.mix, outp := r.outp, wb := r.wb, wbSamplecnt := r.wbSamplecnt
    wbLasttime := r.wbLasttime, rsm := r.rsm }

variable (c : Chip) (r : ChipRun)

@[simp] theorem withRun_op (o : Fin 36) : (c.withRun r).op o = c.op o := rfl
@[simp] theorem withRun_ch (i : Fin 18) : (c.withRun r).ch i = c.ch i := rfl
@[simp] theorem withRun_reg : (c.withRun r).reg = c.reg := rfl
@[simp] theorem withRun_run : (c.withRun r).run = r := rfl
@[simp] theorem withRun_modOp (o : Fin 36) (f : Operator → Operator) :
    (c.withRun r).modOp o f = (c.modOp o f).withRun r := rfl
@[simp] theorem withRun_modCh (i : Fin 18) (f : Channel → Channel) :
    (c.withRun r).modCh i f = (c.modCh i f).withRun r := rfl

/-- The procedure reads and writes programmed state only. -/
def Programs (f : Chip → Chip) : Prop := ∀ c r, f (c.withRun r) = (f c).withRun r

theorem setModsrc_programs (o : Fin 36) (s : Source) : Programs (setModsrc o s) := fun _ _ => rfl

theorem setTap_programs (i : Fin 18) (t : Quad Source) : Programs (setTap i t) := fun _ _ => rfl

theorem setAlgCode_programs (i : Fin 18) (x : Alg) : Programs (setAlgCode i x) := fun _ _ => rfl

theorem setChtype_programs (i : Fin 18) (t : ChType) : Programs (setChtype i t) := fun _ _ => rfl

theorem updateKsl_programs (o : Fin 36) : Programs (updateKsl o) := fun _ _ => rfl

theorem updateKsv_programs (i : Fin 18) : Programs (updateKsv i) := fun _ _ => rfl

theorem wireTwo_programs (i : Fin 18) (b : Bool) : Programs (wireTwo i b) := fun _ _ => by cases b <;> rfl

theorem wireFour_programs (i : Fin 18) (a b d : Source) (t : Quad Source) : Programs (wireFour i a b d t) := fun _ _ => rfl

theorem wireDrum_programs (i : Fin 18) : Programs (wireDrum i) := fun c r => by
  unfold wireDrum
  dsimp only
  split
  · rfl
  · rw [setModsrc_programs, withRun_ch]
    split <;> rfl

theorem setupAlg_programs (i : Fin 18) : Programs (setupAlg i) := fun c r => by
  unfold setupAlg
  dsimp only
  rw [withRun_ch]
  split
  · exact wireDrum_programs i c r
  · split
    · rfl
    all_goals first | exact wireFour_programs .. | exact wireTwo_programs ..

theorem updateAlg_programs (i : Fin 18) : Programs (updateAlg i) := fun c r => by
  unfold updateAlg
  dsimp only
  rw [withRun_ch]
  generalize (if (c.ch i).con then Alg.two1 else Alg.two0) = x
  rw [setAlgCode_programs, withRun_ch, withRun_reg, withRun_ch]
  generalize setAlgCode i x c = c'
  by_cases hA : c'.reg.newm = true ∧ (c'.ch i).chtype = .t4opA
  · rw [if_pos hA, if_pos hA, setAlgCode_programs, setAlgCode_programs, setupAlg_programs]
  · rw [if_neg hA, if_neg hA]
    by_cases hB : c'.reg.newm = true ∧ (c'.ch i).chtype = .t4opB
    · rw [if_pos hB, if_pos hB, setAlgCode_programs, setAlgCode_programs, setupAlg_programs]
    · rw [if_neg hB, if_neg hB, setupAlg_programs]

theorem foldl_programs {ι : Type} (f : Chip → ι → Chip) (hf : ∀ k, Programs fun c => f c k) (l : List ι) :
    Programs fun c => l.foldl f c := by
  induction l with
  | nil => exact fun _ _ => rfl
  | cons k l ih => exact fun c r => (congrArg (l.foldl f) (hf k c r)).trans (ih _ _)

theorem wr4opPair_programs (d : Byte) (k : Nat) : Programs fun c => wr4opPair d c k := fun c r => by
  unfold wr4opPair
  dsimp only
  split
  · rw [setChtype_programs, setChtype_programs, updateAlg_programs]
  · rw [setChtype_programs, setChtype_programs, updateAlg_programs, updateAlg_programs]

theorem wr4op_programs (d : Byte) : Programs (wr4op d) := fun c r =>
  foldl_programs _ (wr4opPair_programs d) [0, 1, 2, 3, 4, 5] { c with reg := { c.reg with fourop := d.extractLsb' 0 6 } } r

theorem undrum_programs (i : Fin 18) : Programs fun c => undrum c i := fun c r => by
  unfold undrum
  dsimp only
  rw [setChtype_programs, setupAlg_programs]
  rfl

theorem setRhythmTaps_programs (p : Params) : Programs (setRhythmTaps p) := fun c r => by
  unfold setRhythmTaps
  split <;> rfl

theorem rhythmReconfig_programs (p : Params) (d : Byte) : Programs (rhythmReconfig p d) := fun c r => by
  unfold rhythmReconfig
  dsimp only
  rw [show ({ c.withRun r with reg := { (c.withRun r).reg with rhy := d.extractLsb' 0 6 } } : Chip)
    = ({ c with reg := { c.reg with rhy := d.extractLsb' 0 6 } } : Chip).withRun r from rfl]
  split
  · simp only [setRhythmTaps_programs p _ _, setChtype_programs _ _ _ _, setupAlg_programs _ _ _, withRun_modOp]
  · exact foldl_programs _ undrum_programs _ _ _

theorem keySet_programs (i : Fin 18) (v : Bool) : Programs (keySet i v) := fun c r => by
  unfold keySet
  dsimp only
  rw [withRun_reg, withRun_ch]
  split
  · split <;> rfl
  · rfl

theorem freqFollow_programs (i : Fin 18) (b : Bool) : Programs (freqFollow i b) := fun c r => by
  unfold freqFollow
  rw [updateKsv_programs, updateKsl_programs, updateKsl_programs]
  generalize updateKsl (slot1 i) _ = c'
  dsimp only
  rw [withRun_reg, withRun_ch]
  by_cases h : c'.reg.newm = true ∧ (c'.ch i).chtype = .t4opA
  · rw [if_pos h, if_pos h]
    rfl
  · rw [if_neg h, if_neg h]

theorem wrCha0_programs (i : Fin 18) (d : Byte) : Programs (wrCha0 i d) := fun c r => by
  unfold wrCha0
  rw [show freqLocked i (c.withRun r) = freqLocked i c from rfl]
  split
  · rfl
  · rw [withRun_modCh, freqFollow_programs]

theorem wrChb0_programs (i : Fin 18) (d : Byte) : Programs (wrChb0 i d) := fun c r => by
  unfold wrChb0
  dsimp only
  rw [show freqLocked i (c.withRun r) = freqLocked i c from rfl]
  split
  · rw [keySet_programs]
  · rw [withRun_modCh, freqFollow_programs, keySet_programs]

theorem wrChc0_programs (i : Fin 18) (d : Byte) : Programs (wrChc0 i d) := fun c r => by
  unfold wrChc0
  rw [withRun_modCh, updateAlg_programs]
  generalize updateAlg i _ = c'
  dsimp only
  rw [withRun_modCh, withRun_reg, withRun_reg]
  generalize c'.modCh i _ = c'
  split <;> rfl

theorem wrChd0_programs (i : Fin 18) (d : Byte) : Programs (wrChd0 i d) := fun c r => by
  unfold wrChd0
  rw [withRun_reg]
  split <;> rfl

theorem regWrite_programs (p : Params) (a : Addr) (d : Byte) : Programs (regWrite p a d) := fun c r => by
  unfold regWrite
  cases classify a with
  | fourOp => exact wr4op_programs ..
  | bd =>
    exact rhythmReconfig_programs p d
      ({ c with reg := { c.reg with
        tremshift := if d.getLsbD 7 then 2 else 4, vibshift := if d.getLsbD 6 then 0 else 1 } }) r
  | cha0 i => exact wrCha0_programs ..
  | chb0 i => exact wrChb0_programs ..
  | chc0 i => exact wrChc0_programs ..
  | chd0 i => exact wrChd0_programs ..
  | nts => rfl
  | mode => rfl
  | op20 o => rfl
  | op40 o => rfl
  | op60 o => rfl
  | op80 o => rfl
  | ope0 o => rfl
  | ign => rfl

/-! ### A tick reads nothing of the resampler -/

theorem regWrite_rsm (p : Params) (a : Addr) (d : Byte) (x : Resampler) :
    regWrite p a d { c with rsm := x } = { regWrite p a d c with rsm := x } := by
  have h := regWrite_programs p a d c { c.run with rsm := x }
  have hr := (regWrite_write p a d c).run
  simp only [Chip.run, ChipRun.mk.injEq] at hr
  obtain ⟨h1, h2, h3, h4, h5, h6, h7, _⟩ := hr
  refine h.trans ?_
  unfold Chip.withRun
  simp only [Chip.run]
  rw [← h1, ← h2, ← h3, ← h4, ← h5, ← h6, ← h7]

theorem drainFrom_rsm (p : Params) (l : List WbEntry) (x : Resampler) :
    drainFrom p l { c with rsm := x } = { drainFrom p l c with rsm := x } := by
  induction l generalizing c with
  | nil => rfl
  | cons e l ih =>
    unfold drainFrom
    dsimp only
    split
    · rw [← ih, ← regWrite_rsm]
    · rfl

theorem operatorStep_rsm (o : Fin 36) (x : Resampler) :
    operatorStep params { c with rsm := x } o = { operatorStep params c o with rsm := x } := by
  rw [operatorStep_eq params rfl, operatorStep_eq params rfl]
  generalize hs : srcValue (Chip.setOp { c with rsm := x } o (afterPhase params { c with rsm := x } o))
    (Chip.op { c with rsm := x } o).modsrc = v
  have hv : v = srcValue (c.setOp o (afterPhase params c o)) (c.op o).modsrc := by
    rw [← hs]
    show srcValue (Chip.setOp { c with rsm := x } o (afterPhase params c o)) (c.op o).modsrc = _
    cases (c.op o).modsrc <;> rfl
  rw [← hv]
  rfl

theorem operatorSteps_rsm (l : List (Fin 36)) (x : Resampler) :
    operatorSteps params l { c with rsm := x } = { operatorSteps params l c with rsm := x } := by
  induction l generalizing c with
  | nil => rfl
  | cons o l ih => exact (congrArg (operatorSteps params l) (operatorStep_rsm c o x)).trans (ih _)

theorem srcValue_rsm (s : Source) (x : Resampler) : srcValue { c with rsm := x } s = srcValue c s := by
  cases s <;> rfl

theorem laneSums_rsm (x : Resampler) : laneSums { c with rsm := x } = laneSums c := by
  have h : ∀ i, chanSum { c with rsm := x } i = chanSum c i := fun i => by
    unfold chanSum tapSum
    simp only [srcValue_rsm]
    rfl
  unfold laneSums frontPart rearPart
  simp only [h]
  rfl

/-- A tick commutes with any change of the resampler. -/
theorem tickChip_rsm (x : Resampler) : tickChip params { c with rsm := x } = { tickChip params c with rsm := x } := by
  unfold tickChip drainPhase drainWriteBuffer
  rw [beforeDrain_eq, beforeDrain_eq]
  rw [operatorSteps_rsm, laneSums_rsm]
  generalize operatorSteps params allOps c = d
  have h := drainFrom_rsm { d with
    mix := laneSums d, outp := (laneSums d).map clipLane, osc := oscStep params c.reg.tremshift c.osc } params d.wb x
  dsimp only at h ⊢
  rw [h]

/-! ### The loop of `TickResampled` -/

/-- The resampler after `n` turns of the loop. -/
theorem resampleTicks_spec (n : Nat) (c : Chip) :
    { resampleTicks params n c with rsm := c.rsm } = (tickChip params)^[n] c
      ∧ (resampleTicks params n c).rsm =
        { c.rsm with
          acc := c.rsm.acc - n * c.rsm.ratio.toNat
          cur := if n = 0 then c.rsm.cur else ((tickChip params)^[n] c).outp
          prev := if n = 0 then c.rsm.prev else if n = 1 then c.rsm.cur else ((tickChip params)^[n - 1] c).outp } := by
  induction n generalizing c with
  | zero => simp [resampleTicks]
  | succ n ih =>
    have h1 : resampleTick params c = { tickChip params c with
        rsm := { c.rsm with prev := c.rsm.cur, cur := (tickChip params c).outp, acc := c.rsm.acc - c.rsm.ratio.toNat } } := by
      unfold resampleTick
      dsimp only
      rw [tickChip_rsm]
    have hit : ∀ k x, (tickChip params)^[k] { tickChip params c with rsm := x } =
        { (tickChip params)^[k + 1] c with rsm := x } := by
      intro k x
      induction k with
      | zero => rfl
      | succ k ihk => rw [Function.iterate_succ_apply', ihk, tickChip_rsm, ← Function.iterate_succ_apply' (tickChip params)]
    have hrsm : ((tickChip params)^[n + 1] c).rsm = c.rsm := by
      clear ih h1 hit
      induction n with
      | zero => exact congrArg ChipRun.rsm (tick_run c).1
      | succ n ihn =>
        rw [Function.iterate_succ_apply']
        exact (congrArg ChipRun.rsm (tick_run _).1).trans ihn
    obtain ⟨a1, a2⟩ := ih (resampleTick params c)
    constructor
    · show { resampleTicks params n (resampleTick params c) with rsm := c.rsm } = _
      have a3 := congrArg (fun x : Chip => { x with rsm := c.rsm }) a1
      dsimp only at a3
      rw [a3, h1, hit]
      dsimp only
      rw [← hrsm]
    · show (resampleTicks params n (resampleTick params c)).rsm = _
      rw [a2, h1]
      simp only [hit]
      rcases n with _ | n
      · simp
      · have e : c.rsm.acc - c.rsm.ratio.toNat - (n + 1) * c.rsm.ratio.toNat = c.rsm.acc - (n + 1 + 1) * c.rsm.ratio.toNat := by
          rw [Nat.sub_sub]
          congr 1
          ring
        rw [e]
        rcases n with _ | n <;> simp

end Sys2Proof.Machine
end

