-- ==== Sys2Proof/Laws/Wiring.lean ====
section
/-! SUPPORT. The constant wiring (10_state.md R12, R13) and what the router installs (44_router.md R178 to R182), said once. -/

namespace Sys2Proof.Machine

/-! ### Slots and pairs -/

theorem chanOf_slot0 (i : Fin 18) : chanOf (slot0 i) = i := by revert i; decide

theorem chanOf_slot1 (i : Fin 18) : chanOf (slot1 i) = i := by revert i; decide

theorem slot0_lt_slot1 (i : Fin 18) : slot0 i < slot1 i := by revert i; decide

theorem slot0_ne_slot1 (i : Fin 18) : slot0 i ≠ slot1 i := ne_of_lt (slot0_lt_slot1 i)

/-- A channel owns exactly its two direct slots. -/
theorem chanOf_eq_iff (o : Fin 36) (i : Fin 18) : chanOf o = i ↔ o = slot0 i ∨ o = slot1 i := by
  revert o i
  decide +kernel

theorem slot0_inj {i j : Fin 18} : slot0 i = slot0 j ↔ i = j := by revert i j; decide +kernel

theorem slot1_inj {i j : Fin 18} : slot1 i = slot1 j ↔ i = j := by revert i j; decide +kernel

theorem slot0_ne_slot1' (i j : Fin 18) : slot0 i ≠ slot1 j := by revert i j; decide +kernel

/-- In the channels that have one, the pair is another channel whose pair is the first. -/
theorem pairOf_spec (i : Fin 18) (h : i.val % 9 < 6) : pairOf i ≠ i ∧ pairOf (pairOf i) = i ∧ (pairOf i).val % 9 < 6 := by
  revert i
  decide

theorem pairOf_lower (i : Fin 18) (h : i.val % 9 < 3) : pairOf i = Fin.ofNat 18 (i.val + 3) ∧ 3 ≤ (pairOf i).val % 9 := by
  revert i
  decide

theorem pairOf_upper (i : Fin 18) (h : 3 ≤ i.val % 9 ∧ i.val % 9 < 6) : (pairOf i).val % 9 < 3 := by
  revert i
  decide

theorem pairLower_spec (k : Fin 6) :
    (pairLower k).val % 9 < 3 ∧ pairOf (pairLower k) = Fin.ofNat 18 ((pairLower k).val + 3) := by
  revert k
  decide

/-- Two mask bits never name one channel twice. -/
theorem pairLower_inj {k l : Fin 6} (h : k ≠ l) :
    pairLower k ≠ pairLower l ∧ pairLower k ≠ pairOf (pairLower l) ∧ pairOf (pairLower k) ≠ pairLower l
      ∧ pairOf (pairLower k) ≠ pairOf (pairLower l) := by
  revert k l
  decide

/-! ### One wiring operation -/

variable (c : Chip) (o o' : Fin 36) (i j : Fin 18)

theorem op_setModsrc (s : Source) :
    (setModsrc o s c).op o' = if o = o' then { c.op o' with modsrc := s } else c.op o' := by
  unfold setModsrc
  rw [op_modOp]
  split
  · next h => rw [h]
  · rfl

theorem ch_setTap (t : Quad Source) : (setTap i t c).ch j = if i = j then { c.ch j with tap := t } else c.ch j := by
  unfold setTap
  rw [ch_modCh]
  split
  · next h => rw [h]
  · rfl

theorem ch_setAlgCode (x : Alg) : (setAlgCode i x c).ch j = if i = j then { c.ch j with alg := x } else c.ch j := by
  unfold setAlgCode
  rw [ch_modCh]
  split
  · next h => rw [h]
  · rfl

theorem ch_setChtype (t : ChType) : (setChtype i t c).ch j = if i = j then { c.ch j with chtype := t } else c.ch j := by
  unfold setChtype
  rw [ch_modCh]
  split
  · next h => rw [h]
  · rfl

@[simp] theorem ch_setModsrc (s : Source) : (setModsrc o s c).ch j = c.ch j := rfl
@[simp] theorem op_setTap (t : Quad Source) : (setTap i t c).op o = c.op o := rfl
@[simp] theorem op_setAlgCode (x : Alg) : (setAlgCode i x c).op o = c.op o := rfl
@[simp] theorem op_setChtype (t : ChType) : (setChtype i t c).op o = c.op o := rfl

/-! ### Two-operator and four-operator wiring -/

/-- Two-operator wiring: what it installs and what it leaves. -/
theorem wireTwo_spec (b : Bool) :
    (wireTwo i b c).TwoOpWired i b
      ∧ (∀ o, chanOf o ≠ i → (wireTwo i b c).op o = c.op o) ∧ ∀ j, j ≠ i → (wireTwo i b c).ch j = c.ch j := by
  have ne := slot0_ne_slot1 i
  cases b
  all_goals
    refine ⟨⟨?_, ?_, ?_⟩, fun o h => ?_, fun j h => ?_⟩
    · simp [wireTwo, op_setModsrc, ne.symm]
    · simp [wireTwo, op_setModsrc]
    · simp [wireTwo, ch_setTap]
    · rw [Ne, chanOf_eq_iff, not_or] at h
      simp [wireTwo, op_setModsrc, Ne.symm h.1, Ne.symm h.2]
    · simp [wireTwo, ch_setTap, Ne.symm h]

/-- Four-operator wiring from the 4OP-B channel `i`: what it installs and what it leaves. -/
theorem wireFour_spec (h : i.val % 9 < 6) (s1 s2 s3 : Source) (t : Quad Source) :
    let d := wireFour i s1 s2 s3 t c
    let a := pairOf i
    (d.op (slot0 a)).modsrc = .fb (slot0 a) ∧ (d.op (slot1 a)).modsrc = s1 ∧ (d.op (slot0 i)).modsrc = s2
      ∧ (d.op (slot1 i)).modsrc = s3 ∧ (d.ch i).tap = t ∧ (d.ch a).tap = Quad.all .zero
      ∧ (∀ o, chanOf o ≠ i → chanOf o ≠ a → d.op o = c.op o) ∧ ∀ j, j ≠ i → j ≠ a → d.ch j = c.ch j := by
  have ha : pairOf i ≠ i := (pairOf_spec i h).1
  have e1 : slot0 i ≠ slot0 (pairOf i) := fun e => ha (slot0_inj.1 e).symm
  have e2 : slot1 i ≠ slot1 (pairOf i) := fun e => ha (slot1_inj.1 e).symm
  have e3 : ∀ j k, slot1 j ≠ slot0 k := fun j k => (slot0_ne_slot1' k j).symm
  have e4 := slot0_ne_slot1'
  dsimp only [wireFour]
  refine ⟨?_, ?_, ?_, ?_, ?_, ?_, fun o h1 h2 => ?_, fun j h1 h2 => ?_⟩
  · simp [op_setModsrc, e1, e3]
  · simp [op_setModsrc, e2, e4]
  · simp [op_setModsrc, e3]
  · simp [op_setModsrc]
  · simp [ch_setTap, ha]
  · simp [ch_setTap]
  · rw [Ne, chanOf_eq_iff, not_or] at h1 h2
    simp [op_setModsrc, Ne.symm h1.1, Ne.symm h1.2, Ne.symm h2.1, Ne.symm h2.2]
  · simp [ch_setTap, Ne.symm h1, Ne.symm h2]

/-- The router leaves the operators and the channels outside channel `i` and its pair alone. -/
theorem setupAlg_outside :
    (∀ o, chanOf o ≠ i → chanOf o ≠ pairOf i → (setupAlg i c).op o = c.op o)
      ∧ ∀ j, j ≠ i → j ≠ pairOf i → (setupAlg i c).ch j = c.ch j := by
  have four : ∀ s1 s2 s3 t,
      (∀ o, chanOf o ≠ i → chanOf o ≠ pairOf i → (wireFour i s1 s2 s3 t c).op o = c.op o)
        ∧ ∀ j, j ≠ i → j ≠ pairOf i → (wireFour i s1 s2 s3 t c).ch j = c.ch j := fun s1 s2 s3 t => by
    refine ⟨fun o h1 h2 => ?_, fun j h1 h2 => ?_⟩
    · rw [Ne, chanOf_eq_iff, not_or] at h1 h2
      simp [wireFour, op_setModsrc, Ne.symm h1.1, Ne.symm h1.2, Ne.symm h2.1, Ne.symm h2.2]
    · simp [wireFour, ch_setTap, Ne.symm h1, Ne.symm h2]
  have two : ∀ b, (∀ o, chanOf o ≠ i → chanOf o ≠ pairOf i → (wireTwo i b c).op o = c.op o)
      ∧ ∀ j, j ≠ i → j ≠ pairOf i → (wireTwo i b c).ch j = c.ch j := fun b =>
    ⟨fun o h _ => (wireTwo_spec c i b).2.1 o h, fun j h _ => (wireTwo_spec c i b).2.2 j h⟩
  have drum : (∀ o, chanOf o ≠ i → chanOf o ≠ pairOf i → (wireDrum i c).op o = c.op o)
      ∧ ∀ j, j ≠ i → j ≠ pairOf i → (wireDrum i c).ch j = c.ch j := by
    refine ⟨fun o h _ => ?_, fun j _ _ => ?_⟩
    · rw [Ne, chanOf_eq_iff, not_or] at h
      unfold wireDrum
      dsimp only
      split
      · simp [op_setModsrc, Ne.symm h.1, Ne.symm h.2]
      · split <;> simp [op_setModsrc, Ne.symm h.1, Ne.symm h.2]
    · unfold wireDrum
      dsimp only
      split
      · simp
      · split <;> simp
  unfold setupAlg
  dsimp only
  split
  · exact drum
  · split
    · exact ⟨fun _ _ _ => rfl, fun _ _ _ => rfl⟩
    · exact four _ _ _ _
    · exact four _ _ _ _
    · exact four _ _ _ _
    · exact four _ _ _ _
    · exact two _
    · exact two _

end Sys2Proof.Machine
end

