-- ==== Sys2Proof/Tests/Slice0.lean ====
section
/-! SUPPORT. Tests: the well-formedness check, words and effects from the vectors of 95_test_vectors.md (the vector's id stands at
each test), and a state or an operand that meets the hypotheses of every statement, clause by clause. -/

namespace Sys2Proof.Tests

set_option Elab.async false

open Sys2Proof.Machine

/-! ### Builders -/

/-- The reset state with another block. -/
def with_ (f : Chip → Chip) : State := { State.reset with chip := f State.reset.chip }

/-- The block after one immediate write. -/
def wr (a : Addr) (d : Byte) (c : Chip) : Chip := regWrite params a d c

/-- New mode, channels 0 and 3 a pair. -/
def paired : State := with_ fun c => wr 0x104 0x01 (wr 0x105 0x01 c)

/-- Rhythm mode with the bass drum and the hi-hat keyed. -/
def drums : State := with_ (wr 0x0BD 0x31)

/-- Operator 3 rewritten. -/
def withOp (f : Operator → Operator) : State := with_ fun c => c.modOp 3 f

/-- What a command leaves, seen through `f`. -/
def got {α : Type} (a : Answer) (f : State → α) : Option α :=
  match a with
  | .next t => some (f t)
  | .fault _ => none
  | .refused _ => none

/-- The refusal a command meets. -/
def refusal (a : Answer) : Option Refusal :=
  match a with
  | .next _ => none
  | .fault _ => none
  | .refused r => some r

/-! ### Well-formedness: the one check refuses an ill-formed term -/

theorem test_wf_refuses_mapped_ign : Instr.wf (.wrIgn 0x020 0) = false := by decide

theorem test_wf_accepts_unmapped_ign : Instr.wf (.wrIgn 0x1BD 0xFF) = true := by decide

/-! ### Decoding: words of the table of section 2.1 (V-ENC) and of the examples of 40_register_writes.md -/

theorem test_decode_op20 : decode 0x00002001#32 = .ok (.wrOp20 0 0x01) := by decide
theorem test_decode_op20_last : decode 0x00013500#32 = .ok (.wrOp20 35 0) := by decide
theorem test_decode_op40 : decode 0x000048BF#32 = .ok (.wrOp40 6 0xBF) := by decide
theorem test_decode_op60 : decode 0x00006D5A#32 = .ok (.wrOp60 11 0x5A) := by decide
theorem test_decode_op80 : decode 0x000192F3#32 = .ok (.wrOp80 32 0xF3) := by decide
theorem test_decode_ope0 : decode 0x0000F507#32 = .ok (.wrOpe0 17 0x07) := by decide
theorem test_decode_cha0 : decode 0x0001A800#32 = .ok (.wrCha0 17 0) := by decide
theorem test_decode_chb0 : decode 0x0000B732#32 = .ok (.wrChb0 7 0x32) := by decide
theorem test_decode_chc0 : decode 0x0000C30F#32 = .ok (.wrChc0 3 0x0F) := by decide
theorem test_decode_chd0 : decode 0x0001D880#32 = .ok (.wrChd0 17 0x80) := by decide
theorem test_decode_bd : decode 0x0000BD20#32 = .ok (.wrBd 0x20) := by decide
theorem test_decode_nts : decode 0x00000840#32 = .ok (.wrNts 0x40) := by decide
theorem test_decode_4op : decode 0x0001043F#32 = .ok (.wr4op 0x3F) := by decide
theorem test_decode_mode : decode 0x00010501#32 = .ok (.wrMode 0x01) := by decide
theorem test_decode_ign : decode 0x0001BD20#32 = .ok (.wrIgn 0x1BD 0x20) := by decide
theorem test_decode_ign_slot : decode 0x00002600#32 = .ok (.wrIgn 0x026 0) := by decide
theorem test_decode_wrb : decode 0x1001FFFF#32 = .ok (.wrb 0x1FF 0xFF) := by decide
theorem test_decode_tick : decode 0x20000000#32 = .ok .tick := by decide
theorem test_decode_tickr : decode 0x30000000#32 = .ok .tickr := by decide
theorem test_decode_reset : decode 0x403FFFFF#32 = .ok (.reset 4194303) := by decide
theorem test_decode_stream : decode 0x50000003#32 = .ok (.stream 3) := by decide
theorem test_decode_kind_six : decode 0x60000000#32 = .error (.unknownKind 6) := by decide
theorem test_decode_wide_address : decode 0x00020000#32 = .error .mustBeZero := by decide
theorem test_decode_wide_rate : decode 0x40400000#32 = .error .mustBeZero := by decide
theorem test_decode_tick_operand : decode 0x20000001#32 = .error .mustBeZero := by decide
theorem test_encode_reset : encode (.reset 44100) = 0x4000AC44#32 := by decide
theorem test_encode_ope0 : encode (.wrOpe0 17 7) = 0x0000F507#32 := by decide

/-- 256 addresses are ignored (30_encoding.md R80). -/
theorem test_ignored_count : ((List.range 512).filter fun n => !mapped (BitVec.ofNat 9 n)).length = 256 := by
  decide +kernel

/-! ### Tables: the entries section 2.6 and 2.8 list -/

theorem test_logsin : [logsinRom 0, logsinRom 1, logsinRom 127, logsinRom 128, logsinRom 255] = [2137, 1731, 129, 127, 0] := by
  decide +kernel
theorem test_exp : [expRom 0, expRom 1, expRom 128, expRom 255] = [2042, 2037, 1444, 1024] := by decide +kernel
theorem test_pan : [panLut 0, panLut 1, panLut 64, panLut 127, panLut 128, panLut 191, panLut 254, panLut 255] =
    [0, 402, 25079, 46055, 46340, 60392, 65531, 65534] := by decide +kernel

/-! ### Register writes (section 2.2, V-WR, and 2.7, V-RT) -/

/-- V-WR-13 -/
theorem test_nts : got (exec (.wrNts 0x40) State.reset) (fun t => t.chip.reg.nts) = some true := by decide +kernel

/-- R93 example -/
theorem test_mode : got (exec (.wrMode 0x03) State.reset) (fun t => (t.chip.reg.newm, t.chip.reg.stereoext)) =
    some (true, true) := by decide +kernel

/-- V-WR-24 -/
theorem test_4op_new_mode : got (exec (.wr4op 0x21) (with_ (wr 0x105 1)))
    (fun t => [0, 3, 11, 14, 1].map fun i => ((t.chip.ch i).chtype, (t.chip.ch i).alg)) =
    some [(.t4opA, .merged8), (.t4opB, .four4), (.t4opA, .merged8), (.t4opB, .four4), (.t2op, .two0)] := by decide +kernel

/-- V-WR-23: outside new mode the types are stored and the wiring stays two-operator -/
theorem test_4op_old_mode : got (exec (.wr4op 0x3F) State.reset)
    (fun t => (t.chip.reg.fourop, (t.chip.ch 12).chtype, (t.chip.ch 8).chtype, (t.chip.ch 3).alg)) =
    some (0x3F, .t4opB, .t2op, .two0) := by decide +kernel

/-- V-WR-20 -/
theorem test_bd_depths : got (exec (.wrBd 0xC0) State.reset) (fun t => (t.chip.reg.tremshift, t.chip.reg.vibshift, t.chip.reg.rhy)) =
    some (2, 0, 0) := by decide +kernel

/-- P3 line 5 and V-RT-7 -/
theorem test_bd_drums : got (exec (.wrBd 0x31) State.reset)
    (fun t => ([12, 13, 14, 15, 16, 17].map fun o => (t.chip.op o).key, (t.chip.op 15).modsrc, (t.chip.ch 7).tap)) =
    some ([2, 2, 0, 2, 0, 0], .out 12, ⟨.out 13, .out 16, .zero, .zero⟩) := by decide +kernel

/-- V-WR-2 -/
theorem test_op20 : got (exec (.wrOp20 35 0xA5) State.reset) (fun t =>
    ((t.chip.op 35).regTrem, (t.chip.op 35).regVib, (t.chip.op 35).regType, (t.chip.op 35).regKsr, (t.chip.op 35).regMult)) =
    some (true, false, true, false, 5) := by decide +kernel

/-- V-WR-3 -/
theorem test_op40 : got (exec (.wrOp40 6 0xBF) State.reset) (fun t => ((t.chip.op 6).regKsl, (t.chip.op 6).regTl)) =
    some (2, 63) := by decide +kernel

/-- V-WR-4 -/
theorem test_op60 : got (exec (.wrOp60 11 0x5A) State.reset) (fun t => ((t.chip.op 11).regAr, (t.chip.op 11).regDr)) =
    some (5, 10) := by decide +kernel

/-- V-WR-5 -/
theorem test_op80 : got (exec (.wrOp80 3 0x7C) State.reset) (fun t => ((t.chip.op 3).regSl, (t.chip.op 3).regRr)) =
    some (7, 12) := by decide +kernel

/-- V-WR-6 -/
theorem test_op80_fifteen : got (exec (.wrOp80 32 0xF3) State.reset) (fun t => ((t.chip.op 32).regSl, (t.chip.op 32).regRr)) =
    some (31, 3) := by decide +kernel

/-- V-WR-7 -/
theorem test_ope0_old_mode : got (exec (.wrOpe0 0 0xFF) State.reset) (fun t => (t.chip.op 0).regWf) = some 3 := by
  decide +kernel

/-- V-WR-8 -/
theorem test_ope0_new_mode : got (exec (.wrOpe0 0 0xFF) (with_ (wr 0x105 1))) (fun t => (t.chip.op 0).regWf) = some 7 := by
  decide +kernel

/-- V-WR-11 -/
theorem test_cha0 : got (exec (.wrCha0 3 0xAB) State.reset)
    (fun t => ((t.chip.ch 3).fNum, (t.chip.ch 3).block, (t.chip.ch 3).ksv)) = some (0x0AB, 0, 0) := by decide +kernel

/-- V-WR-14: KSV follows NTS at the next frequency write -/
theorem test_cha0_nts : got (exec (.wrCha0 3 0xAB) (with_ fun c => wr 0x008 0x40 (wr 0x0B3 0x1E (wr 0x0A3 0xAB c))))
    (fun t => (t.chip.ch 3).ksv) = some 14 := by decide +kernel

/-- V-WR-12 -/
theorem test_chb0 : got (exec (.wrChb0 3 0x3F) (with_ (wr 0x0A3 0xAB)))
    (fun t => ((t.chip.ch 3).fNum, (t.chip.ch 3).block, (t.chip.ch 3).ksv, (t.chip.op 6).key, (t.chip.op 9).key,
      (t.chip.op 9).egKsl)) = some (0x3AB, 7, 15, 1, 1, 220) := by decide +kernel

/-- R98 example: a 4OP-A channel keys four operators -/
theorem test_chb0_pair : got (exec (.wrChb0 0 0x20) paired) (fun t => [0, 3, 6, 9, 1].map fun o => (t.chip.op o).key) =
    some [1, 1, 1, 1, 0] := by decide +kernel

/-- V-WR-17 -/
theorem test_chc0 : got (exec (.wrChc0 0 0xAB) (with_ (wr 0x105 1)))
    (fun t => (((t.chip.ch 0).cha, (t.chip.ch 0).chb, (t.chip.ch 0).chc, (t.chip.ch 0).chd), (t.chip.ch 0).fb, (t.chip.ch 0).con,
      (t.chip.ch 0).alg)) = some ((false, true, false, true), 5, true, .two1) := by decide +kernel

/-- V-RT-5, V-RT-6: from both connection bits but the 4OP-B one to all four -/
theorem test_chc0_four : got (exec (.wrChc0 3 0x01) { paired with chip := wr 0x0C0 0x01 paired.chip })
    (fun t => ((t.chip.ch 3).alg, [0, 3, 6, 9].map fun o => (t.chip.op o).modsrc, (t.chip.ch 3).tap)) =
    some (.four7, [.fb 0, .zero, .out 3, .zero], ⟨.out 0, .out 6, .out 9, .zero⟩) := by decide +kernel

/-- V-WR-27 -/
theorem test_chd0 : got (exec (.wrChd0 0 0x80) (with_ (wr 0x105 2)))
    (fun t => ((t.chip.ch 0).leftpan, (t.chip.ch 0).rightpan)) = some (46055, 46340) := by decide +kernel

/-- V-WR-22 -/
theorem test_ign : (got (exec (.wrIgn 0x1BD 0xFF) paired) fun t => t.chip) = some paired.chip := by decide +kernel

/-! ### The write buffer (section 2.9, V-WB) -/

/-- V-WB-1, its first entry -/
theorem test_wrb : got (exec (.wrb 0x040 0) State.reset) (fun t => (t.chip.wb, t.chip.wbLasttime)) =
    some ([⟨0x040, 0, 2⟩], 2) := by decide +kernel

/-- V-WB-3 -/
theorem test_wrb_late : got (exec (.wrb 0x040 9) (with_ fun c => { c with wbSamplecnt := 10, wbLasttime := 8 }))
    (fun t => (t.chip.wb, t.chip.wbLasttime)) = some ([⟨0x040, 9, 10⟩], 10) := by decide +kernel

/-! ### TICK, TICKR, STREAM, RESET (sections 2.3 to 2.11) -/

/-- P1 tick 1, from the state the listing gives after tick 0 for operator 3 -/
theorem test_tick : got (exec .tick (withOp fun op =>
      { op with regMult := 1, regAr := 15, egGen := .attack, egRout := 0, key := 1, pgPhase := 4616 }))
    (fun t => (t.chip.outp, (t.chip.op 3).egGen, (t.chip.op 3).pgPhaseOut)) =
    some (⟨238, 238, 0, 0⟩, .decay, 9) := by decide +kernel

/-- Section 2.4, from tick 9 to tick 10 -/
theorem test_tick_clock : got (exec .tick (with_ fun c => { c with osc := { c.osc with
      timer := 10, egState := false, egTimer := 5, egAdd := 3, noise := 0x402000 } }))
    (fun t => (t.chip.osc.timer, t.chip.osc.egState, t.chip.osc.egTimer, t.chip.osc.egAdd, t.chip.osc.noise)) =
    some (11, true, 5, 1, 0x201000) := by decide +kernel

/-- R233, TICKR 9: two ticks, remainder 20 -/
theorem test_tickr : got (exec .tickr (with_ fun c => { c with rsm := { c.rsm with ratio := 908, acc := 1836 } }))
    (fun t => (t.chip.wbSamplecnt, t.chip.rsm.acc)) = some (2, 1044) := by decide +kernel

/-- V-RSM-1 -/
theorem test_interp : [interp params 908 116 100 200, interp params 908 116 (-100) (-201), interp params 908 454 (-7) 0,
    interp params 908 454 32767 (-32768)] = [187, -188, -3, 0] := by decide +kernel

/-- R109 corner case: STREAM 0 does nothing -/
theorem test_stream_zero : exec (.stream 0) State.reset = .next State.reset := by rfl

/-- R109 example, one of its three frames -/
theorem test_stream_one : got (exec (.stream 1) State.reset) (fun t => (t.output, t.chip.wbSamplecnt)) =
    some ([⟨0, 0, 0, 0⟩], 1) := by decide +kernel

/-- R226 example and V-WB-8 -/
theorem test_reset : got (exec (.reset 44100) (with_ (enqueue 0x020 1)))
    (fun t => (t.chip.rsm.ratio, t.chip.rsm.acc, t.chip.wb, t.chip.wbLasttime)) = some (908, 908, [], 0) := by decide +kernel

/-- V-ENC-35 -/
theorem test_reset_low : refusal (exec (.reset 48) State.reset) = some .rateOutOfRange := by decide +kernel

/-! ### Waveforms (section 2.6) -/

theorem test_wave : [wave 0 512 0, wave 0 768 0x010, wave 1 600 0, wave 2 600 0, wave 3 300 0, wave 4 300 0, wave 5 300 0,
    wave 6 700 0, wave 7 512 0, wave 0 255 0] = [-13, -2889, 0, 2110, 0, -2111, 2110, -4085, -1, 4084] := by decide +kernel

/-- The feedback table, ticks 3 and 7: `(238 + 1868) >> 2` and `(-3977 + 1893) >> 2` -/
theorem test_feedback : [feedbackMod 7 { resetOperator with prout := 238, out := 1868 },
    feedbackMod 7 { resetOperator with prout := -3977, out := 1893 }] = [526, -521] := by decide +kernel

/-! ### Witnesses: the hypotheses of each statement can be met

`exec .tick s = .next t` and the like hold with the `t` that `exec` gives; the states below are at the ends of the ranges the
clauses name. -/

theorem runs_tick {s : State} (h : s.ready = true) : ∃ t, exec .tick s = .next t ∧ t.ready = true := ⟨_, if_pos h, h⟩

theorem runs_write {s : State} (h : s.ready = true) (d : Byte) : ∃ t, exec (.wrNts d) s = .next t := ⟨_, if_pos h⟩

theorem runs_wrb {s : State} (h : s.ready = true) (hl : s.chip.wb.length < 1024) (a : Addr) (d : Byte) :
    ∃ t, exec (.wrb a d) s = .next t :=
  ⟨_, (if_neg (fun hf => Nat.not_le.mpr hl hf.2)).trans (if_pos h)⟩

theorem runs_reset (s : State) : ∃ t, exec (.reset 49716) s = .next t := by
  unfold exec execReset
  exact ⟨_, if_neg (by decide)⟩

theorem runs_tickr {s : State} (h : s.ready = true) (hr : s.chip.rsm.ratio ≠ 0) : ∃ t, exec .tickr s = .next t :=
  ⟨_, (if_neg (by simp [h])).trans (if_neg hr)⟩

theorem witness_round_trip : Instr.wf (.wrIgn 0x1FF 0xFF) = true ∧ decode 0x5FFFFFFF#32 = .ok (.stream 0xFFFFFFF) := by decide

theorem witness_step : ∃ (s : State) (w : Word) (rest : List Word) (i : Instr), s.cmds = w :: rest ∧ decode w = .ok i :=
  ⟨{ State.reset with cmds := [0x20000000, 0x30000000] }, 0x20000000, [0x30000000], .tick, rfl, by decide⟩

theorem witness_fetch_word : decodeTableWord 32 0x20000000 = some .tick := by decide

theorem witness_no_command : ∃ (s : State) (w : Word) (rest : List Word) (e : DecodeError), s.cmds = w :: rest ∧ decode w = .error e :=
  ⟨{ State.reset with cmds := [0x60000000] }, 0x60000000, [], .unknownKind 6, rfl, by decide⟩

theorem witness_idle : State.reset.cmds = [] := by rfl

/-- Ready, with a ratio; the least and the greatest rate are operands. -/
theorem witness_ready : State.reset.ready = true ∧ State.reset.chip.rsm.ratio ≠ 0 ∧ (49 : BitVec 22).toNat = 49
    ∧ (4194303 : BitVec 22).toNat = 4194303 := by decide +kernel

/-- Each refusal occurs. -/
theorem witness_refusals :
    refusal (exec .tick { State.reset with ready := false }) = some .beforeReset
      ∧ refusal (exec (.reset 48) State.reset) = some .rateOutOfRange
      ∧ refusal (exec (.wrb 0 0) (with_ fun c => { c with wb := List.replicate 1024 ⟨0, 0, 0⟩ })) = some .writeBufferFull := by
  decide +kernel

/-- The buffer just below and at its capacity. -/
theorem witness_capacity : (with_ fun c => { c with wb := List.replicate 1023 ⟨0, 0, 0⟩ }).chip.wb.length < 1024
    ∧ 1024 ≤ (with_ fun c => { c with wb := List.replicate 1024 ⟨0, 0, 0⟩ }).chip.wb.length := by decide +kernel

/-- WR_4OP: a bit set in new mode, set outside it, and clear, at the first and the last bit. -/
theorem witness_four_op : paired.ready = true ∧ paired.chip.reg.newm = true ∧ State.reset.chip.reg.newm = false
    ∧ (0x21 : Byte).getLsbD (0 : Fin 6) = true ∧ (0x21 : Byte).getLsbD (5 : Fin 6) = true
    ∧ (0x21 : Byte).getLsbD (1 : Fin 6) = false := by decide +kernel

/-- A wired state in four-operator mode: the premise of the wiring clauses. -/
theorem witness_wired_paired : paired.chip.Wired where
  typeA := by decide +kernel
  typeB := by decide +kernel
  typeDrum := by decide +kernel
  mask := by decide +kernel
  algMerged := by decide +kernel
  algFour := by decide +kernel
  modsrc := by unfold modsrcLocal; decide +kernel
  taps := by unfold tapLocal; decide +kernel

/-- A wired state in rhythm mode. -/
theorem witness_wired_drums : drums.chip.Wired where
  typeA := by decide +kernel
  typeB := by decide +kernel
  typeDrum := by decide +kernel
  mask := by decide +kernel
  algMerged := by decide +kernel
  algFour := by decide +kernel
  modsrc := by unfold modsrcLocal; decide +kernel
  taps := by unfold tapLocal; decide +kernel

/-- WR_BD: both values of the rhythm bit. -/
theorem witness_rhythm : drums.ready = true ∧ (0x20 : Byte).getLsbD 5 = true ∧ (0x1F : Byte).getLsbD 5 = false := by
  decide +kernel

/-- Channel 3 follows its pair, channel 0 leads it, channel 8 does neither; a drum channel and a pair that is not the channel
itself. -/
theorem witness_pairs : followsPair paired 3 ∧ leadsPair paired 0 ∧ ¬followsPair paired 0 ∧ ¬leadsPair paired 8
    ∧ ¬followsPair paired 8 ∧ (drums.chip.ch 6).chtype = .tdrum ∧ pairOf 0 ≠ 0 := by
  unfold followsPair leadsPair
  decide +kernel

theorem witness_reached : reached paired 0 0 ∧ reached paired 0 9 ∧ ¬reached paired 8 9 := by
  unfold reached leadsPair
  decide +kernel

theorem witness_pan : State.reset.chip.reg.stereoext = false ∧ (with_ (wr 0x105 2)).chip.reg.stereoext = true := by
  decide +kernel

/-- A write that runs: the premises of the rules about all writes. -/
theorem witness_write : isWrite (.wrNts 0x40) = true ∧ (∃ t, exec (.wrNts 0x40) State.reset = .next t) ∧ (∀ d, Instr.wrNts 0x40 ≠ .wr4op d)
    ∧ (∀ d, Instr.wrNts 0x40 ≠ .wrBd d) ∧ (∀ c d, Instr.wrNts 0x40 ≠ .wrChc0 c d) ∧ ∀ c d, Instr.wrNts 0x40 ≠ .wrChb0 c d :=
  ⟨rfl, runs_write rfl _, by simp, by simp, by simp, by simp⟩

theorem witness_wrb : ∃ t, exec (.wrb 0x1FF 0xFF) State.reset = .next t :=
  runs_wrb rfl (by decide +kernel) _ _

/-- A pending entry one sample away, and due at its own time. -/
def pending (n : Nat) : State := with_ fun c => { c with wb := [⟨0x020, 0x01, 2⟩], wbLasttime := 2, wbSamplecnt := n }

theorem witness_not_due : (∃ t, exec .tick (pending 1) = .next t)
    ∧ ∀ e ∈ (pending 1).chip.wb.head?, (pending 1).chip.wbSamplecnt < e.time := by
  refine ⟨⟨_, (runs_tick rfl).choose_spec.1⟩, fun e he => ?_⟩
  obtain rfl : e = ⟨0x020, 0x01, 2⟩ := by simpa [pending, with_] using he.symm
  decide

theorem witness_due : (pending 2).chip.wb = [⟨0x020, 0x01, 2⟩] ∧ 2 ≤ (pending 2).chip.wbSamplecnt
    ∧ State.reset.chip.wb = [] := by decide +kernel

/-- A tick, a TICKR and a STREAM in which an entry of class OP20 comes due, and none of the classes that rewire or key; a TICKR that
runs one native tick and a STREAM of two frames that runs two. -/
theorem witness_drains : (pending 2).chip.wb.takeWhile (fun e => decide (e.time < (pending 2).chip.wbSamplecnt + 1)) ≠ []
    ∧ (∀ f ∈ [rewires, writesNormalKey, writesRhythmKey], drainsNo f (pending 2) 1)
    ∧ nativeTicks (pending 2) 1 = 1 ∧ nativeTicks (pending 2) 2 = 2 ∧ (pending 2).ready = true
    ∧ (pending 2).chip.rsm.ratio ≠ 0 := by
  unfold drainsNo
  decide +kernel

/-- Each class that rewires or keys, and one that does neither. -/
theorem witness_classes : [(0x104 : Addr), 0x0BD, 0x0C0, 0x0B0, 0x020].map (fun a =>
      (rewires (classify a), writesRhythmKey (classify a), writesNormalKey (classify a))) =
    [(true, false, false), (true, true, false), (true, false, false), (false, false, true), (false, false, false)] := by
  decide +kernel

theorem witness_ordered : (pending 2).chip.WbOrdered where
  spaced := by decide +kernel
  newest := fun e he => by
    obtain rfl : e = ⟨0x020, 0x01, 2⟩ := by simpa [pending, with_] using he.symm
    rfl
  pending := by decide +kernel
  size := by decide +kernel

theorem witness_tick : ∃ t, exec .tick State.reset = .next t ∧ t.ready = true := runs_tick rfl

/-- The clauses on the LFO positions and on EG_ADD at the ends of their ranges. -/
theorem witness_clock : (209 : BitVec 8).toNat < 210 ∧ (1 : BitVec 36).toNat % 2 ^ (0 + 1) = 2 ^ 0
    ∧ (4096 : BitVec 36).toNat % 2 ^ (12 + 1) = 2 ^ 12 ∧ (8192 : BitVec 36).toNat % 8192 = 0 := by decide

/-- One operator for each clause of the envelope graph and of the level rules. -/
theorem witness_envelope :
    (∃ op : Operator, op.key = 0) ∧ (∃ op : Operator, op.key ≠ 0 ∧ op.egGen = .release)
      ∧ (∃ op : Operator, op.key ≠ 0 ∧ op.egGen = .attack ∧ op.egRout = 0)
      ∧ (∃ op : Operator, op.key ≠ 0 ∧ op.egGen = .decay ∧ op.egRout.toNat / 16 = op.regSl.toNat)
      ∧ (∃ op : Operator, op.key ≠ 0 ∧ op.egGen = .sustain)
      ∧ ∃ op : Operator, op.egGen ≠ .attack ∧ op.egRout.toNat = 0x1F8 ∧ (op.egGen = .release → op.key = 0) :=
  ⟨⟨resetOperator, rfl⟩, ⟨{ resetOperator with key := 1 }, by decide, rfl⟩,
    ⟨{ resetOperator with key := 1, egGen := .attack, egRout := 0 }, by decide, rfl, rfl⟩,
    ⟨{ resetOperator with key := 3, egGen := .decay, egRout := 0x1F0, regSl := 31 }, by decide, rfl, rfl⟩,
    ⟨{ resetOperator with key := 2, egGen := .sustain }, by decide, rfl⟩,
    ⟨{ resetOperator with egRout := 0x1F8 }, by decide, rfl, fun _ => rfl⟩⟩

/-- An operator in each state at the ends of the regimes of the step size: combined rates 47 and 48, 49, 59 and 60, and 75. -/
theorem witness_rates :
    let op := fun (g : EgGen) (key : BitVec 2) (rate : BitVec 4) (ksr : Bool) =>
      { resetOperator with key := key, egGen := g, egRout := 0x1F7, regAr := rate, regDr := rate, regRr := rate, regKsr := ksr }
    (op .decay 1 0 false).egRout.toNat < 0x1F8 ∧ (op .decay 1 0 false).egRout.toNat / 16 ≠ (op .decay 1 0 false).regSl.toNat
      ∧ [combinedRate 3 (op .decay 1 11 true), combinedRate 0 (op .decay 1 12 false), combinedRate 1 (op .sustain 1 12 true),
          combinedRate 15 (op .release 0 14 false), combinedRate 0 (op .attack 1 15 false), combinedRate 15 (op .attack 1 15 true)] =
        [47, 48, 49, 59, 60, 75]
      ∧ (op .attack 1 0 false).egRout ≠ 0 ∧ (op .sustain 1 0 false).regType = false := by decide

/-- R125's table at sub-step 0 and 3 with EG_STATE 0: combined rates 48 to 51, 55, 59 and the cap from 60 on. -/
theorem test_step_size :
    (let at_ := fun (timer : BitVec 16) (dr : BitVec 4) (ks : BitVec 4) =>
      egShift params { resetOsc with timer := timer, egState := false } ks
        { resetOperator with egGen := .decay, key := 1, regDr := dr, regKsr := true }
    ([at_ 0 12 0, at_ 0 12 1, at_ 3 12 1, at_ 3 12 2, at_ 3 12 3], [at_ 0 13 3, at_ 3 13 3, at_ 0 14 3, at_ 3 14 3, at_ 0 15 3])) =
    ([0, 1, 0, 0, 0], [2, 1, 3, 2, 3]) := by decide +kernel

/-- Rhythm mode off and on, for an operator that is overridden and one that is not. -/
theorem witness_phase : State.reset.chip.reg.rhy.getLsbD 5 = false ∧ drums.chip.reg.rhy.getLsbD 5 = true
    ∧ (12 : Fin 36) ≠ 13 ∧ (12 : Fin 36) ≠ 16 ∧ (12 : Fin 36) ≠ 17 := by decide +kernel

theorem witness_tick_drums : ∃ t, exec .tick drums = .next t ∧ t.ready = true := runs_tick rfl

/-- The table of R163 at level 0 for waveforms 0, 4 and 7: phases 0, 0x80, 0xFF, 0x100, 0x1FF, 0x200. -/
theorem test_wave_table : [(0 : BitVec 3), 4, 7].map (fun w => [(0 : BitVec 10), 0x80, 0xFF, 0x100, 0x1FF, 0x200].map fun p => wave w p 0) =
    [[12, 2896, 4084, 4084, 12, -13], [12, 4084, 12, -13, -13, 0], [4084, 255, 16, 15, 0, -1]] := by decide +kernel

theorem witness_waveform : (0x0FF : BitVec 10).toNat < 256 ∧ (0x17F : BitVec 10).getLsbD 7 = false ∧ (0x180 : BitVec 16).toNat = 0x180 ∧ (0x1FF : BitVec 10).getLsbD 9 = false
    ∧ (0x100 : BitVec 10).getLsbD 8 = true ∧ (0x0FF : BitVec 10).getLsbD 8 = false := by decide

/-- No tick, one tick and two ticks in a TICKR. -/
theorem witness_resampled : (with_ fun c => { c with rsm := { c.rsm with acc := 1023 } }).chip.rsm.acc / 1024 = 0
    ∧ State.reset.chip.rsm.acc / 1024 = 1 ∧ (with_ fun c => { c with rsm := { c.rsm with acc := 2048 } }).chip.rsm.acc / 1024 = 2
    ∧ ∃ t, exec .tickr State.reset = .next t :=
  ⟨by decide +kernel, by decide +kernel, by decide +kernel, runs_tickr rfl (by decide +kernel)⟩

theorem witness_interp : (0 : Nat) < 1 ∧ (907 : Nat) < 908 := by decide

theorem witness_identity : State.reset.chip.rsm.ratio = 1024 ∧ State.reset.chip.rsm.acc = 1024
    ∧ ∃ t, exec (.reset 49716) State.reset = .next t :=
  ⟨by decide +kernel, by decide +kernel, runs_reset _⟩

theorem witness_silent : State.reset.chip.Silent where
  ops := fun o =>
    ⟨by revert o; decide +kernel, by revert o; decide +kernel, by revert o; decide +kernel, by revert o; decide +kernel,
      by revert o; decide +kernel, by revert o; decide +kernel, by revert o; decide +kernel⟩
  fNum := by decide +kernel
  rhythmOff := by decide +kernel
  wb := by decide +kernel
  prev := by decide +kernel
  cur := by decide +kernel

theorem witness_bounded : drums.chip.RsmBounded where
  ratioPos := by decide +kernel
  ratioMax := by decide +kernel
  acc := by decide +kernel

theorem witness_drum_keyed : drums.chip.DrumKeyed := by
  unfold Chip.DrumKeyed
  decide +kernel

theorem witness_in_range : drums.chip.InRange where
  ops := fun o =>
    ⟨by revert o; decide +kernel, by revert o; decide +kernel, by revert o; decide +kernel, by revert o; decide +kernel,
      by revert o; decide +kernel, by revert o; decide +kernel⟩
  leftpan := by decide +kernel
  rightpan := by decide +kernel
  trempos := by decide +kernel
  tremolo := by decide +kernel
  egAdd := by decide +kernel
  tremshift := by decide +kernel
  noise := by decide +kernel

theorem runs_step {s : State} (h : s.ready = true) :
    ∃ t, step { s with cmds := [0x20000000] } = .next t ∧ t.ready = true :=
  runs_tick (s := { s with cmds := [] }) h

/-- A step from each of the witness states of the invariants. -/
theorem witness_steps : (∃ t, step { drums with cmds := [0x20000000] } = .next t ∧ t.ready = true)
    ∧ (∃ t, step { paired with cmds := [0x20000000] } = .next t ∧ t.ready = true)
    ∧ ∃ t, step { pending 2 with cmds := [0x20000000] } = .next t ∧ t.ready = true :=
  ⟨runs_step rfl, runs_step rfl, runs_step rfl⟩

end Sys2Proof.Tests
end

section
/-! The step on the command queue: which command it runs, and the state it runs it in. -/

namespace Sys2Proof.Machine

/-- The table's decoder and the word decoder read the same command. -/
theorem decodeTableWord_eq_some_iff {nbits w : Nat} {i : Instr} :
    decodeTableWord nbits w = some i ↔ decode (tableWord nbits w) = .ok i := by
  unfold decodeTableWord
  cases decode (tableWord nbits w) with
  | error e => simp
  | ok j => simp

@[simp] theorem withFetchWord_cmds (s : State) (nbits w : Nat) :
    (s.withFetchWord nbits w).cmds = tableWord nbits w :: s.cmds := rfl

/-- Taking the issued word off the queue again gives back the state it was issued in. -/
theorem withFetchWord_dropFetched (s : State) (nbits w : Nat) :
    { s.withFetchWord nbits w with cmds := s.cmds } = s := rfl

theorem step_of_decode_ok {s : State} {w : Word} {rest : List Word} {i : Instr} (hcmds : s.cmds = w :: rest)
    (hdecode : decode w = .ok i) : step s = exec i { s with cmds := rest } := by
  simp only [step, hcmds, hdecode]

theorem step_withFetchWord {s : State} {nbits w : Nat} {i : Instr} (h : decodeTableWord nbits w = some i) :
    step (s.withFetchWord nbits w) = exec i s := by
  rw [step_of_decode_ok (withFetchWord_cmds s nbits w) (decodeTableWord_eq_some_iff.mp h), withFetchWord_dropFetched]

/-- Settles O7: the queue's head is decoded and run on the rest, and an issued word is the head of the queue before it. -/
theorem stepRunsDecodedCommand : Obligations.StepRunsDecodedCommand := by
  unfold Obligations.StepRunsDecodedCommand
  exact ⟨fun _ _ _ _ hcmds hdecode => step_of_decode_ok hcmds hdecode, fun _ _ _ _ h => step_withFetchWord h⟩

end Sys2Proof.Machine
end

section
/-! What a command can do to the block and how it can stop, said once for all commands. -/

namespace Sys2Proof.Machine

/-! ### Register writes as commands -/

/-- A decoded `WR` runs the procedure the drain runs (40_register_writes.md R90). -/
theorem exec_decodeWrite (a : Addr) (d : Byte) (s : State) :
    exec (decodeWrite a d) s = s.onChip (regWrite params a d) := by
  show exec (decodeWrite a d) s = s.onChip fun c => regWrite params a d c
  unfold decodeWrite regWrite
  cases classify a <;> rfl

/-- Every immediate write but WR_IGN is what some address decodes to; WR_IGN acts as any ignored address does. -/
theorem exec_of_isWrite {i : Instr} (hi : isWrite i = true) :
    ∃ a d, ∀ s, exec i s = s.onChip (regWrite params a d) := by
  have of_address : ∀ a d, decodeWrite a d = i → ∃ a d, ∀ s, exec i s = s.onChip (regWrite params a d) :=
    fun a d h => ⟨a, d, fun s => h ▸ exec_decodeWrite a d s⟩
  cases i with
  | wrNts d => exact of_address 0x008 d rfl
  | wr4op d => exact of_address 0x104 d rfl
  | wrMode d => exact of_address 0x105 d rfl
  | wrBd d => exact of_address 0x0BD d rfl
  | wrOp20 o d => exact of_address (operatorAddr 0x20 o) d (by simp [decodeWrite, classify_operatorAddr])
  | wrOp40 o d => exact of_address (operatorAddr 0x40 o) d (by simp [decodeWrite, classify_operatorAddr])
  | wrOp60 o d => exact of_address (operatorAddr 0x60 o) d (by simp [decodeWrite, classify_operatorAddr])
  | wrOp80 o d => exact of_address (operatorAddr 0x80 o) d (by simp [decodeWrite, classify_operatorAddr])
  | wrOpe0 o d => exact of_address (operatorAddr 0xE0 o) d (by simp [decodeWrite, classify_operatorAddr])
  | wrCha0 c d => exact of_address (channelAddr 0xA0 c) d (by simp [decodeWrite, classify_channelAddr])
  | wrChb0 c d => exact of_address (channelAddr 0xB0 c) d (by simp [decodeWrite, classify_channelAddr])
  | wrChc0 c d => exact of_address (channelAddr 0xC0 c) d (by simp [decodeWrite, classify_channelAddr])
  | wrChd0 c d => exact of_address (channelAddr 0xD0 c) d (by simp [decodeWrite, classify_channelAddr])
  | wrIgn _ d => exact ⟨0x000, d, fun _ => rfl⟩
  | wrb _ _ => cases hi
  | tick => cases hi
  | tickr => cases hi
  | reset _ => cases hi
  | stream _ => cases hi

/-- A command is an immediate write or one of the five others. -/
theorem isWrite_or_eq (i : Instr) : isWrite i = true ∨ (∃ a d, i = .wrb a d) ∨ i = .tick ∨ i = .tickr
    ∨ (∃ rate, i = .reset rate) ∨ ∃ n, i = .stream n := by
  cases i <;> simp [isWrite]

/-! ### How each command ends -/

section
variable {s t : State} {r : Refusal}

theorem onChip_eq_refused_iff {f : Chip → Chip} : s.onChip f = .refused r ↔ s.ready = false ∧ .beforeReset = r := by
  unfold State.onChip
  cases s.ready <;> simp

theorem onChip_eq_next_iff {f : Chip → Chip} :
    s.onChip f = .next t ↔ s.ready = true ∧ { s with chip := f s.chip } = t := by
  unfold State.onChip
  cases s.ready <;> simp

theorem onChip_ne_fault (s : State) (f : Chip → Chip) (e : Fault) : s.onChip f ≠ .fault e := by
  unfold State.onChip
  cases s.ready <;> simp

/-- The capacity is WB_SIZE's default (46_writebuf.md R216). -/
theorem execWrb_of_full {a : Addr} {d : Byte} (hr : s.ready = true) (h : 1024 ≤ s.chip.wb.length) :
    execWrb a d s = .refused .writeBufferFull := if_pos ⟨hr, h⟩

theorem execWrb_of_room {a : Addr} {d : Byte} (h : s.ready = true → s.chip.wb.length < 1024) :
    execWrb a d s = s.onChip (enqueue a d) := if_neg fun ⟨hr, hw⟩ => Nat.not_lt.mpr hw (h hr)

theorem execWrb_eq_refused_iff {a : Addr} {d : Byte} : execWrb a d s = .refused r ↔
    s.ready = false ∧ .beforeReset = r ∨ (s.ready = true ∧ 1024 ≤ s.chip.wb.length) ∧ .writeBufferFull = r := by
  by_cases h : s.ready = true ∧ 1024 ≤ s.chip.wb.length
  · simp [execWrb_of_full h.1 h.2, h]
  · rw [execWrb_of_room fun hr => not_le.mp fun hw => h ⟨hr, hw⟩, onChip_eq_refused_iff]
    simp [h]

theorem execWrb_eq_next_iff {a : Addr} {d : Byte} : execWrb a d s = .next t ↔
    s.ready = true ∧ s.chip.wb.length < 1024 ∧ { s with chip := enqueue a d s.chip } = t := by
  by_cases h : s.ready = true ∧ 1024 ≤ s.chip.wb.length
  · simp [execWrb_of_full h.1 h.2, h]
  · have room : s.ready = true → s.chip.wb.length < 1024 := fun hr => not_le.mp fun hw => h ⟨hr, hw⟩
    rw [execWrb_of_room room, onChip_eq_next_iff]
    exact and_congr_right fun hr => (and_iff_right (room hr)).symm

theorem execTick_eq_refused_iff : execTick s = .refused r ↔ s.ready = false ∧ .beforeReset = r := by
  unfold execTick
  cases s.ready <;> simp

theorem execTick_eq_next_iff : execTick s = .next t ↔ s.ready = true
    ∧ { s with chip := tickChip params s.chip, output := s.output ++ [(tickChip params s.chip).outp] } = t := by
  unfold execTick
  cases s.ready <;> simp

/-- TICKR is STREAM 1. -/
theorem execTickr_eq_execStream (s : State) : execTickr s = execStream 1 s := by
  simp [execTickr, execStream, resampledFrames]

theorem execStream_of_ratio {n : BitVec 28} (hr : s.ready = true) (h : n ≠ 0 → s.chip.rsm.ratio ≠ 0) :
    execStream n s = .next (resampledFrames n.toNat s) := by
  rw [execStream, if_neg (not_not_intro hr), if_neg (not_and.mpr h)]

theorem execStream_of_no_ratio {n : BitVec 28} (hr : s.ready = true) (h : ¬(n ≠ 0 → s.chip.rsm.ratio ≠ 0)) :
    execStream n s = .fault .resamplerNeverEnds := by
  rw [execStream, if_neg (not_not_intro hr), if_pos (by simpa using h)]

theorem execStream_of_not_ready {n : BitVec 28} (hr : ¬s.ready = true) : execStream n s = .refused .beforeReset := if_pos hr

theorem execStream_eq_refused_iff {n : BitVec 28} : execStream n s = .refused r ↔ s.ready = false ∧ .beforeReset = r := by
  by_cases hr : s.ready = true
  · by_cases h : n ≠ 0 → s.chip.rsm.ratio ≠ 0
    · simp [execStream_of_ratio hr h, hr]
    · simp [execStream_of_no_ratio hr h, hr]
  · simp [execStream_of_not_ready hr, hr]

theorem execTickr_eq_refused_iff : execTickr s = .refused r ↔ s.ready = false ∧ .beforeReset = r :=
  execTickr_eq_execStream s ▸ execStream_eq_refused_iff

theorem execStream_eq_next_iff {n : BitVec 28} : execStream n s = .next t ↔
    s.ready = true ∧ (n ≠ 0 → s.chip.rsm.ratio ≠ 0) ∧ resampledFrames n.toNat s = t := by
  by_cases hr : s.ready = true
  · by_cases h : n ≠ 0 → s.chip.rsm.ratio ≠ 0
    · rw [execStream_of_ratio hr h, Host.Outcome.next.injEq, and_iff_right hr, and_iff_right h]
    · rw [execStream_of_no_ratio hr h]
      exact iff_of_false (by simp) fun ⟨_, hn, _⟩ => h hn
  · simp [execStream_of_not_ready hr, hr]

theorem execStream_ne_fault {n : BitVec 28} (h : s.chip.rsm.ratio ≠ 0) (f : Fault) : execStream n s ≠ .fault f := by
  by_cases hr : s.ready = true
  · simp [execStream_of_ratio hr fun _ => h]
  · simp [execStream_of_not_ready hr]

theorem execReset_eq_refused_iff {rate : BitVec 22} : execReset rate s = .refused r ↔
    (rate.toNat < 49 ∨ 4194303 < rate.toNat) ∧ .rateOutOfRange = r := by
  unfold execReset
  split
  · next h => simp [show rate.toNat < 49 ∨ 4194303 < rate.toNat from h]
  · next h => simp [show ¬(rate.toNat < 49 ∨ 4194303 < rate.toNat) from h]

theorem execReset_eq_next_iff {rate : BitVec 22} : execReset rate s = .next t ↔
    49 ≤ rate.toNat ∧ rate.toNat ≤ 4194303 ∧ { s with chip := resetChip params rate.toNat, ready := true } = t := by
  rw [← and_assoc, ← not_lt, ← not_lt, ← not_or]
  unfold execReset
  split
  · next h => simp [show rate.toNat < 49 ∨ 4194303 < rate.toNat from h]
  · next h => simp [show ¬(rate.toNat < 49 ∨ 4194303 < rate.toNat) from h]

end

/-! ### How any command ends -/

/-- The three refusals of a command, each with its condition (60_exceptions.md R238, RF1, RF2 and RF5). -/
theorem exec_eq_refused_iff (i : Instr) (s : State) (r : Refusal) : exec i s = .refused r ↔
    ((s.ready = false ∧ ∀ rate, i ≠ .reset rate) ∧ .beforeReset = r)
      ∨ ((∃ rate, i = .reset rate ∧ (rate.toNat < 49 ∨ 4194303 < rate.toNat)) ∧ .rateOutOfRange = r)
      ∨ ((s.ready = true ∧ 1024 ≤ s.chip.wb.length ∧ ∃ a d, i = .wrb a d) ∧ .writeBufferFull = r) := by
  rcases isWrite_or_eq i with h | ⟨a, d, rfl⟩ | rfl | rfl | ⟨rate, rfl⟩ | ⟨n, rfl⟩
  · obtain ⟨a, d, he⟩ := exec_of_isWrite h
    have hreset : ∀ rate, i ≠ .reset rate := fun _ e => by cases e; cases h
    have hwrb : ∀ a d, i ≠ .wrb a d := fun _ _ e => by cases e; cases h
    rw [he, onChip_eq_refused_iff]
    simp [hreset, hwrb]
  · exact execWrb_eq_refused_iff.trans (by simp)
  · exact execTick_eq_refused_iff.trans (by simp)
  · exact execTickr_eq_refused_iff.trans (by simp)
  · exact execReset_eq_refused_iff.trans (by simp)
  · exact execStream_eq_refused_iff.trans (by simp)

/-- No command faults in a state with a ratio (60_exceptions.md R235, 47_resampler.md R231). -/
theorem exec_ne_fault (i : Instr) {s : State} (h : s.chip.rsm.ratio ≠ 0) (f : Fault) : exec i s ≠ .fault f := by
  rcases isWrite_or_eq i with hw | ⟨a, d, rfl⟩ | rfl | rfl | ⟨rate, rfl⟩ | ⟨n, rfl⟩
  · obtain ⟨a, d, he⟩ := exec_of_isWrite hw
    rw [he]
    exact onChip_ne_fault _ _ f
  · show execWrb a d s ≠ .fault f
    unfold execWrb
    split
    · exact fun e => nomatch e
    · exact onChip_ne_fault _ _ f
  · show execTick s ≠ .fault f
    unfold execTick
    split <;> exact fun e => nomatch e
  · show execTickr s ≠ .fault f
    rw [execTickr_eq_execStream]
    exact execStream_ne_fault h f
  · show execReset rate s ≠ .fault f
    unfold execReset
    split <;> exact fun e => nomatch e
  · exact execStream_ne_fault h f

/-- Settles O10: `exec_eq_refused_iff` gives the four clauses on refusals, `exec_ne_fault` the one on faults. -/
theorem refusalsAndFaults : Obligations.RefusalsAndFaults := by
  unfold Obligations.RefusalsAndFaults
  refine fun i s => ⟨?_, ?_, ?_, fun r h => ?_, fun h => exec_ne_fault i h⟩
  · simp [exec_eq_refused_iff]
  · simp [exec_eq_refused_iff]
  · simp [exec_eq_refused_iff]
  · rcases (exec_eq_refused_iff i s r).mp h with h | h | h
    · exact .inl h.2.symm
    · exact .inr (.inl h.2.symm)
    · exact .inr (.inr h.2.symm)

end Sys2Proof.Machine
end

section
/-! What a step can do to the block, and when every step keeps a property of it. -/

namespace Sys2Proof.Machine

/-- What a command other than RESET does to the block: one of four things. -/
inductive CommandEffect (c : Chip) : Chip → Prop where
  /-- an immediate register write (40_register_writes.md R90) -/
  | write (a : Addr) (d : Byte) : CommandEffect c (regWrite params a d c)
  /-- WRB on a buffer with room (46_writebuf.md R211, R216) -/
  | queue (a : Addr) (d : Byte) (room : c.wb.length < 1024) : CommandEffect c (enqueue a d c)
  /-- TICK (45_mixer_lfo.md R190) -/
  | tick : CommandEffect c (tickChip params c)
  /-- TICKR, with `n = 1`, and STREAM (47_resampler.md R227) -/
  | resampled (n : Nat) (ratio : n ≠ 0 → c.rsm.ratio ≠ 0) : CommandEffect c ((tickResampled params)^[n] c)

theorem resampledFrames_ready (n : Nat) (s : State) : (resampledFrames n s).ready = s.ready := by
  induction n generalizing s with
  | zero => rfl
  | succ n ih => exact ih (resampledFrame s)

theorem resampledFrames_chip (n : Nat) (s : State) :
    (resampledFrames n s).chip = (tickResampled params)^[n] s.chip := by
  induction n generalizing s with
  | zero => rfl
  | succ n ih => exact ih (resampledFrame s)

/-- STREAM, and with it TICKR, in terms of the block. -/
theorem execStream_effect {n : BitVec 28} {s t : State} (h : execStream n s = .next t) :
    s.ready = true ∧ t.ready = true ∧ CommandEffect s.chip t.chip := by
  obtain ⟨hr, ratio, rfl⟩ := execStream_eq_next_iff.mp h
  refine ⟨hr, (resampledFrames_ready ..).trans hr, ?_⟩
  rw [resampledFrames_chip]
  exact .resampled _ fun hn => ratio fun h0 => hn (congrArg BitVec.toNat h0)

/-- A command that completes was issued after a RESET and has one of the four effects, or is a RESET in range. -/
theorem exec_next {i : Instr} {s t : State} (h : exec i s = .next t) : t.ready = true
    ∧ ((s.ready = true ∧ CommandEffect s.chip t.chip)
      ∨ ∃ rate : Nat, 49 ≤ rate ∧ rate ≤ 4194303 ∧ t.chip = resetChip params rate) := by
  rcases isWrite_or_eq i with hw | ⟨a, d, rfl⟩ | rfl | rfl | ⟨rate, rfl⟩ | ⟨n, rfl⟩
  · obtain ⟨a, d, he⟩ := exec_of_isWrite hw
    obtain ⟨hr, rfl⟩ := onChip_eq_next_iff.mp ((he s).symm.trans h)
    exact ⟨hr, .inl ⟨hr, .write a d⟩⟩
  · obtain ⟨hr, room, rfl⟩ := execWrb_eq_next_iff.mp h
    exact ⟨hr, .inl ⟨hr, .queue a d room⟩⟩
  · obtain ⟨hr, rfl⟩ := execTick_eq_next_iff.mp h
    exact ⟨hr, .inl ⟨hr, .tick⟩⟩
  · obtain ⟨hr, ht, he⟩ := execStream_effect ((execTickr_eq_execStream s).symm.trans h)
    exact ⟨ht, .inl ⟨hr, he⟩⟩
  · obtain ⟨hmin, hmax, rfl⟩ := execReset_eq_next_iff.mp h
    exact ⟨rfl, .inr ⟨rate.toNat, hmin, hmax, by dsimp only⟩⟩
  · obtain ⟨hr, ht, he⟩ := execStream_effect h
    exact ⟨ht, .inl ⟨hr, he⟩⟩

/-- A step that completes is idle or runs the command at the head of the queue. -/
theorem step_next {s t : State} (h : step s = .next t) :
    t = s ∨ ∃ w rest i, s.cmds = w :: rest ∧ decode w = .ok i ∧ exec i { s with cmds := rest } = .next t := by
  unfold step at h
  split at h
  · cases h
    exact .inl rfl
  · next w rest hw =>
    split at h
    · cases h
    · next i hi => exact .inr ⟨w, rest, i, hw, hi, h⟩

/-- What the four effects keep and every RESET sets up, every step keeps. -/
theorem step_keeps {P : Chip → Prop} (effect : ∀ c d, P c → CommandEffect c d → P d)
    (reset : ∀ rate, 49 ≤ rate → rate ≤ 4194303 → P (resetChip params rate)) :
    ∀ s t : State, (s.ready = true → P s.chip) → step s = .next t → t.ready = true → P t.chip := by
  intro s t hs h ht
  rcases step_next h with rfl | ⟨_, rest, i, -, -, he⟩
  · exact hs ht
  · rcases (exec_next he).2 with ⟨hr, hd⟩ | ⟨rate, hmin, hmax, hd⟩
    · exact effect _ _ (hs hr) hd
    · exact hd ▸ reset rate hmin hmax

/-! ### The native ticks inside an output-rate step -/

theorem resampleTicks_keeps {P : Chip → Prop} (tick : ∀ c, P c → P (tickChip params c))
    (rsm : ∀ c x, P c → P { c with rsm := x }) (n : Nat) {c : Chip} (h : P c) : P (resampleTicks params n c) := by
  induction n generalizing c with
  | zero => exact h
  | succ n ih => exact ih (rsm _ _ (tick _ (rsm _ _ h)))

/-- What a native tick keeps and the resampler's state does not touch, any number of output-rate steps keep. -/
theorem tickResampled_iterate_keeps {P : Chip → Prop} (tick : ∀ c, P c → P (tickChip params c))
    (rsm : ∀ c x, P c → P { c with rsm := x }) (n : Nat) {c : Chip} (h : P c) : P ((tickResampled params)^[n] c) :=
  Function.Iterate.rec P h (fun _ h => rsm _ _ (resampleTicks_keeps tick rsm _ h)) n

end Sys2Proof.Machine
end

section
/-! The state RESET leaves (70_reset_and_hazards.md R255), element by element, for every rate. -/

namespace Sys2Proof.Machine

/-- The wiring loop of RESET does not look at the running part, so the rate reaches the resampler only. -/
theorem resetChip_eq_withRun (p : Params) (rate : Nat) : resetChip p rate = (resetChip params 49716).withRun
    ⟨resetOsc, ⟨false, false, false, false, false, false⟩, Quad.all 0, Quad.all 0, [], 0, 0, resetResampler p rate⟩ := by
  have wiring := fun c r => foldl_programs (fun c i => setupAlg i c) setupAlg_programs allChs c r
  unfold resetChip
  rw [← wiring]
  unfold Chip.withRun
  dsimp only

@[simp] theorem resetChip_reg (p : Params) (rate : Nat) : (resetChip p rate).reg = resetRegs := by
  rw [resetChip_eq_withRun, withRun_reg]
  decide +kernel

/-- The modulation source RESET gives operator `o`: every channel is a serial pair (44_router.md R178). -/
def resetModsrc (o : Fin 36) : Source := if o.val % 6 < 3 then .fb o else .out (Fin.ofNat 36 (o.val - 3))

@[simp] theorem resetChip_op (p : Params) (rate : Nat) (o : Fin 36) :
    (resetChip p rate).op o = { resetOperator with modsrc := resetModsrc o } := by
  rw [resetChip_eq_withRun, withRun_op]
  revert o
  decide +kernel

@[simp] theorem resetChip_ch (p : Params) (rate : Nat) (i : Fin 18) :
    (resetChip p rate).ch i = { resetChannel with tap := ⟨.out (slot1 i), .zero, .zero, .zero⟩ } := by
  rw [resetChip_eq_withRun, withRun_ch]
  revert i
  decide +kernel

section
variable (p : Params) (rate : Nat)

@[simp] theorem resetChip_osc : (resetChip p rate).osc = resetOsc := by rw [resetChip_eq_withRun]; rfl
@[simp] theorem resetChip_wb : (resetChip p rate).wb = [] := by rw [resetChip_eq_withRun]; rfl
@[simp] theorem resetChip_wbSamplecnt : (resetChip p rate).wbSamplecnt = 0 := by rw [resetChip_eq_withRun]; rfl
@[simp] theorem resetChip_wbLasttime : (resetChip p rate).wbLasttime = 0 := by rw [resetChip_eq_withRun]; rfl
@[simp] theorem resetChip_rsm : (resetChip p rate).rsm = resetResampler p rate := by rw [resetChip_eq_withRun]; rfl

end

/-! ### Every part of the invariant after RESET -/

theorem resetChip_wbOrdered (p : Params) (rate : Nat) : (resetChip p rate).WbOrdered where
  spaced := by simp
  newest := by simp
  pending := by simp
  size := by simp

theorem resetChip_inRange (p : Params) (rate : Nat) : (resetChip p rate).InRange where
  ops o := by
    rw [resetChip_op]
    constructor <;> simp [resetOperator]
  leftpan i := by simp [resetChannel]
  rightpan i := by simp [resetChannel]
  trempos := by simp [resetOsc]
  tremolo := by simp [resetOsc]
  egAdd := by simp [resetOsc]
  tremshift := by simp [resetRegs]
  noise := by simp [resetOsc, noiseSeed]

theorem resetChip_drumKeyed (p : Params) (rate : Nat) : (resetChip p rate).DrumKeyed := fun o => by
  simp [drumKey, resetOperator, resetRegs]

theorem modsrcLocal_resetModsrc (o : Fin 36) : modsrcLocal o (resetModsrc o) := by
  unfold resetModsrc
  split
  · exact .inr (.inl rfl)
  · next h =>
    have below : ∀ o : Fin 36, ¬o.val % 6 < 3 →
        Fin.ofNat 36 (o.val - 3) < o ∧ chanOf (Fin.ofNat 36 (o.val - 3)) = chanOf o := by decide
    exact .inr (.inr ⟨_, (below o h).1, rfl, .inl (below o h).2⟩)

theorem resetChip_wired (p : Params) (rate : Nat) : (resetChip p rate).Wired where
  typeA i := by simp [resetChannel]
  typeB i := by simp [resetChannel]
  typeDrum i := by simp [resetChannel, resetRegs]
  mask k := by simp [resetChannel, resetRegs]
  algMerged i := by simp [resetChannel]
  algFour i := by simp [resetChannel]
  modsrc o := by
    rw [resetChip_op]
    exact modsrcLocal_resetModsrc o
  taps i := by
    rw [resetChip_ch]
    exact ⟨.inr ⟨_, rfl, .inl (chanOf_slot1 i)⟩, .inl rfl, .inl rfl, .inl rfl⟩

theorem ratioOf_eq (rate : Nat) : ratioOf rate = rate * 1024 / 49716 := by
  simp [ratioOf, fracBits, nativeRate, Nat.shiftLeft_eq]

/-- The ratio of every rate RESET accepts is in 1 .. 86390 (47_resampler.md R231). -/
theorem resetChip_rsmBounded (rate : Nat) (hmin : 49 ≤ rate) (hmax : rate ≤ 4194303) :
    (resetChip params rate).RsmBounded := by
  have h := ratioOf_eq rate
  have hr : (resetChip params rate).rsm.ratio.toNat = ratioOf rate := by
    rw [resetChip_rsm]
    exact Nat.mod_eq_of_lt (by omega)
  refine ⟨fun h0 => ?_, by omega, ?_⟩
  · have := congrArg BitVec.toNat h0
    rw [hr] at this
    simp at this
    omega
  · rw [hr, resetChip_rsm]
    show ratioOf rate < _
    omega

/-- The model starts right after a RESET (log 2). -/
theorem reset_chip : State.reset.chip = resetChip params 49716 := by unfold State.reset; dsimp only

/-- Settles O54: RESET sets up each part of the invariant at every rate it accepts, and 49716 is one. -/
theorem resetMeetsInv : Obligations.ResetMeetsInv := by
  unfold Obligations.ResetMeetsInv
  constructor
  all_goals rw [reset_chip]; intro _
  · exact resetChip_inRange params 49716
  · exact resetChip_wbOrdered params 49716
  · exact resetChip_rsmBounded 49716 (by decide) (by decide)
  · exact resetChip_wired params 49716
  · exact resetChip_drumKeyed params 49716

end Sys2Proof.Machine
end

section
/-! The order of the write buffer (46_writebuf.md R212, R213, R216) under every effect of a command. -/

namespace Sys2Proof.Machine

variable {c d : Chip}

/-- The order looks at the queue, the counter and WB_LASTTIME only. -/
theorem Chip.WbOrdered.of_eq (h : c.WbOrdered) (hwb : d.wb = c.wb) (hcnt : d.wbSamplecnt = c.wbSamplecnt)
    (hlast : d.wbLasttime = c.wbLasttime) : d.WbOrdered where
  spaced := by rw [hwb]; exact h.spaced
  newest := by rw [hwb, hlast]; exact h.newest
  pending := by rw [hwb, hcnt]; exact h.pending
  size := by rw [hwb]; exact h.size

theorem Chip.WbOrdered.of_run (h : c.WbOrdered) (hrun : d.run = c.run) : d.WbOrdered :=
  h.of_eq (congrArg ChipRun.wb hrun) (congrArg ChipRun.wbSamplecnt hrun) (congrArg ChipRun.wbLasttime hrun)

/-- In an ordered buffer no entry is newer than WB_LASTTIME. -/
theorem Chip.WbOrdered.time_le_lasttime (h : c.WbOrdered) {e : WbEntry} (he : e ∈ c.wb) : e.time ≤ c.wbLasttime := by
  have hne : c.wb ≠ [] := List.ne_nil_of_mem he
  have hlast := h.newest _ (List.getLast?_eq_getLast_of_ne_nil hne)
  have hsp := h.spaced
  rw [← List.dropLast_append_getLast hne] at he hsp
  rcases List.mem_append.mp he with he | he
  · have := (List.pairwise_append.mp hsp).2.2 e he _ (List.mem_singleton_self _)
    omega
  · rw [List.mem_singleton.mp he]
    omega

theorem enqueue_wbOrdered (a : Addr) (b : Byte) (h : c.WbOrdered) (room : c.wb.length < 1024) :
    (enqueue a b c).WbOrdered where
  spaced := by
    refine List.pairwise_append.mpr ⟨h.spaced, List.pairwise_singleton .., fun e he f hf => ?_⟩
    rw [List.mem_singleton.mp hf]
    exact le_max_of_le_left (Nat.add_le_add_right (h.time_le_lasttime he) 2)
  newest e he := by
    have : some _ = some e := List.getLast?_concat.symm.trans he
    cases this
    rfl
  pending e he := by
    rcases List.mem_append.mp he with he | he
    · exact h.pending e he
    · rw [List.mem_singleton.mp he]
      exact le_max_right ..
  size := by
    show (c.wb ++ [_]).length ≤ 1024
    simp
    omega

/-- In a spaced queue nothing behind the first entry that is not due is due. -/
theorem le_time_of_mem_dropWhile {l : List WbEntry} {m : Nat} (hl : l.Pairwise fun e f => e.time + 2 ≤ f.time)
    {e : WbEntry} (he : e ∈ l.dropWhile fun e => decide (e.time < m)) : m ≤ e.time := by
  induction l with
  | nil => cases he
  | cons f l ih =>
    obtain ⟨hf, hl⟩ := List.pairwise_cons.mp hl
    by_cases hdue : f.time < m
    · rw [List.dropWhile_cons_of_pos (by simpa using hdue)] at he
      exact ih hl he
    · rw [List.dropWhile_cons_of_neg (by simpa using hdue)] at he
      rcases List.mem_cons.mp he with rfl | he
      · omega
      · have := hf e he
        omega

theorem tickChip_wbSamplecnt (c : Chip) : (tickChip params c).wbSamplecnt = c.wbSamplecnt + 1 :=
  congrArg ChipRun.wbSamplecnt (tick_run c).1

theorem tickChip_wbLasttime (c : Chip) : (tickChip params c).wbLasttime = c.wbLasttime :=
  congrArg ChipRun.wbLasttime (tick_run c).1

/-- What a tick leaves in the queue is its end from the first entry that is not due. -/
theorem tickChip_wb_suffix (c : Chip) : (tickChip params c).wb <:+ c.wb := tick_wb ▸ List.dropWhile_suffix _

theorem tickChip_wbOrdered (h : c.WbOrdered) : (tickChip params c).WbOrdered := by
  have hsuf := tickChip_wb_suffix c
  have hsp := h.spaced.sublist hsuf.sublist
  refine ⟨hsp, fun e he => ?_, fun e he => ?_, hsuf.length_le.trans h.size⟩
  · rw [tickChip_wbLasttime]
    obtain ⟨pre, hpre⟩ := hsuf
    refine h.newest e ?_
    rw [← hpre, List.getLast?_append, he]
    rfl
  · rw [tickChip_wbSamplecnt]
    exact le_time_of_mem_dropWhile h.spaced (tick_wb ▸ he)

theorem commandEffect_wbOrdered (h : c.WbOrdered) (he : CommandEffect c d) : d.WbOrdered := by
  cases he with
  | write a b => exact h.of_run (regWrite_write params a b c).run
  | queue a b room => exact enqueue_wbOrdered a b h room
  | tick => exact tickChip_wbOrdered h
  | resampled n _ =>
    exact tickResampled_iterate_keeps (P := Chip.WbOrdered) (fun _ => tickChip_wbOrdered) (fun _ _ h => h.of_eq rfl rfl rfl) n h

/-- Settles O56: each effect of a command keeps the order, and RESET empties the buffer. -/
theorem stepKeepsWriteBufferOrder : Obligations.StepKeepsWriteBufferOrder := by
  unfold Obligations.StepKeepsWriteBufferOrder
  exact step_keeps (P := Chip.WbOrdered) (fun _ _ => commandEffect_wbOrdered) fun rate _ _ => resetChip_wbOrdered params rate

end Sys2Proof.Machine
end

section
/-! Ranges of the values the procedures compute: tables, waves, feedback, envelope, oscillators. -/

namespace Sys2Proof.Machine

/-! ### Tables -/

/-- A bound on every row is a bound on every entry, also past the end. -/
theorem tableEntry_le {rows : List (List Nat)} {m : Nat} (h : ∀ r ∈ rows, ∀ x ∈ r, x ≤ m) (i : Nat) :
    tableEntry rows i ≤ m := by
  have getD_le : ∀ r : List Nat, (∀ x ∈ r, x ≤ m) → ∀ k, r.getD k 0 ≤ m := fun r hr k => by
    by_cases hk : k < r.length
    · rw [List.getD_eq_getElem _ _ hk]
      exact hr _ (List.getElem_mem hk)
    · rw [List.getD_eq_default _ _ (by omega)]
      exact Nat.zero_le m
  refine getD_le _ (fun x hx => ?_) _
  by_cases hi : i / 16 < rows.length
  · rw [List.getD_eq_getElem _ _ hi] at hx
    exact h _ (List.getElem_mem hi) x hx
  · rw [List.getD_eq_default _ _ (by omega)] at hx
    cases hx

theorem expRom_le (i : Nat) : expRom i ≤ 2042 := tableEntry_le (by decide) i

theorem panLut_le (i : Nat) : panLut i ≤ 65534 := tableEntry_le (by decide) i

theorem kslRom_le (i : BitVec 4) : kslRom i ≤ 64 := by
  revert i
  decide

/-! ### Waves and feedback (43_waveform_feedback.md R165, R166) -/

theorem expLookup_le (level : Nat) : expLookup level ≤ 4084 := by
  unfold expLookup
  refine (Nat.shiftRight_le ..).trans ?_
  rw [Nat.shiftLeft_eq]
  have := expRom_le ((if level > 0x1FFF then 0x1FFF else level) % 256)
  omega

theorem wave_range (wf : BitVec 3) (p : BitVec 10) (env : BitVec 16) : -4085 ≤ wave wf p env ∧ wave wf p env ≤ 4084 := by
  unfold wave
  have := expLookup_le (waveLog wf p + (env.toNat <<< 3))
  dsimp only
  split <;> omega

/-- Narrowing keeps a value that fits. -/
theorem toInt_wrapS16 {v : Int} (h : -32768 ≤ v ∧ v ≤ 32767) : (wrapS16 v).toInt = v := by
  rw [wrapS16, BitVec.toInt_ofInt]
  exact Int.bmod_eq_of_le (by omega) (by omega)

theorem waveOut_range (m : Int) (op : Operator) : -4085 ≤ (waveOut m op).toInt ∧ (waveOut m op).toInt ≤ 4084 := by
  unfold waveOut
  have := wave_range op.regWf ((BitVec.ofInt 16 ((op.pgPhaseOut.toNat : Int) + m)).extractLsb' 0 10) op.egOut
  rw [toInt_wrapS16 (by omega)]
  exact this

/-- The shift is at least 2 for every feedback level but 0, which gives 0. -/
theorem feedbackMod_range (fb : BitVec 3) {op : Operator} (h : op.InRange) :
    -2043 ≤ (feedbackMod fb op).toInt ∧ (feedbackMod fb op).toInt ≤ 2042 := by
  unfold feedbackMod
  split
  · simp
  · obtain ⟨hl, hu⟩ := h.out
    obtain ⟨hl', hu'⟩ := h.prout
    have hpow : (2 : Int) ^ 2 ≤ 2 ^ (9 - fb.toNat) := pow_le_pow_right₀ (by decide) (by omega)
    have hpos : (0 : Int) < 2 ^ (9 - fb.toNat) := by positivity
    have hlow : -2043 ≤ (op.prout.toInt + op.out.toInt) >>> (9 - fb.toNat) := by
      rw [Int.shiftRight_eq_div_pow]
      exact (Int.le_ediv_iff_mul_le (by exact_mod_cast hpos)).mpr (by push_cast; omega)
    have hup : (op.prout.toInt + op.out.toInt) >>> (9 - fb.toNat) < 2043 := by
      rw [Int.shiftRight_eq_div_pow]
      exact (Int.ediv_lt_iff_lt_mul (by exact_mod_cast hpos)).mpr (by push_cast; omega)
    rw [toInt_wrapS16 (by omega)]
    omega

/-! ### Envelope (41_envelope.md R121, 40_register_writes.md R105, R111) -/

theorem sustainLevel_range (sl : BitVec 4) : (sustainLevel sl).toNat ≤ 14 ∨ sustainLevel sl = 31 := by
  revert sl
  decide

theorem kslOf_le (ch : Channel) : (kslOf ch).toNat ≤ 224 := by
  have := kslRom_le (ch.fNum.extractLsb' 6 4)
  have := ch.block.isLt
  unfold kslOf
  simp only [Nat.shiftLeft_eq]
  split
  · simp
  · rw [BitVec.toNat_ofInt]
    omega

theorem egLevelOut_le {g : Oscillators} {op : Operator} (htrem : g.tremolo.toNat ≤ 26) (hksl : op.egKsl.toNat ≤ 224) :
    (egLevelOut g op).toNat ≤ 1013 := by
  have hrout := op.egRout.isLt
  have htl := op.regTl.isLt
  have hshift := Nat.shiftRight_le op.egKsl.toNat (kslShift op.regKsl)
  unfold egLevelOut
  rw [BitVec.toNat_ofNat, Nat.shiftLeft_eq]
  refine (Nat.mod_le ..).trans ?_
  split <;> omega

/-! ### Oscillators (45_mixer_lfo.md R201, R204, 42_phase_noise_rhythm.md R146) -/

/-- The envelope timer's step leaves the other oscillators alone. -/
theorem egTimerStep_frame (g : Oscillators) : egTimerStep g =
    { g with
      egTimer := (egTimerStep g).egTimer
      egTimerrem := (egTimerStep g).egTimerrem
      egState := (egTimerStep g).egState } := by
  unfold egTimerStep
  dsimp only
  split
  · split <;> rfl
  · rfl

section
variable (k : BitVec 3) (g : Oscillators)

theorem oscStep_trempos : (oscStep params k g).trempos = (tremoloStep k g).trempos := by
  rw [oscStep, egTimerStep_frame]
  rfl

theorem oscStep_tremolo : (oscStep params k g).tremolo = (tremoloStep k g).tremolo := by
  rw [oscStep, egTimerStep_frame]
  rfl

theorem oscStep_egAdd : (oscStep params k g).egAdd = (egAddStep g).egAdd := by
  rw [oscStep, egTimerStep_frame]
  rfl

theorem oscStep_noise : (oscStep params k g).noise = noiseNext g.noise := by
  rw [oscStep, egTimerStep_frame]
  rfl

end

theorem tremoloStep_range {k : BitVec 3} {g : Oscillators} (hk : k = 2 ∨ k = 4) (h : g.trempos.toNat < 210) :
    (tremoloStep k g).trempos.toNat < 210 ∧ (tremoloStep k g).tremolo.toNat ≤ 26 := by
  unfold tremoloStep
  dsimp only
  generalize hpos : (if g.timer.toNat % 64 = 63 then (g.trempos.toNat + 1) % 210 else g.trempos.toNat) = pos
  have hlt : pos < 210 := by
    rw [← hpos]
    split <;> omega
  constructor
  · exact (Nat.mod_le ..).trans_lt hlt
  · refine (Nat.mod_le ..).trans ?_
    have ht : (if pos < 105 then pos else 210 - pos) ≤ 105 := by split <;> omega
    rcases hk with rfl | rfl
    · rw [Nat.shiftRight_eq_div_pow]
      exact Nat.le_of_lt_succ ((Nat.div_lt_iff_lt_mul (by decide)).mpr (by simp; omega))
    · rw [Nat.shiftRight_eq_div_pow]
      exact Nat.le_of_lt_succ ((Nat.div_lt_iff_lt_mul (by decide)).mpr (by simp; omega))

theorem egAddStep_le (g : Oscillators) : (egAddStep g).egAdd.toNat ≤ 13 := by
  unfold egAddStep
  dsimp only
  split
  · simp
  · split
    · simp
    · rw [BitVec.toNat_ofNat]
      omega

/-- The step loses no bit: what falls out at 0 comes back at 22 when nothing else is left. -/
theorem noiseNext_ne_zero {n : BitVec 23} (h : n ≠ 0) : noiseNext n ≠ 0 := by
  intro h0
  have hshift : n >>> 1 = 0 := (BitVec.or_eq_zero_iff.mp h0).1
  have hhalf : n.toNat / 2 = 0 := by simpa [Nat.shiftRight_eq_div_pow] using congrArg BitVec.toNat hshift
  have hone : n = 1 := by bv_omega
  subst hone
  exact absurd h0 (by decide)

end Sys2Proof.Machine
end

section
/-! The ranges of the block's elements under every register write (40_register_writes.md R91 to R106). -/

namespace Sys2Proof.Machine

variable {c d : Chip}

/-! ### The rules for one update -/

/-- The ranges look at the operators, the channels, TREMSHIFT and the oscillators only. -/
theorem Chip.InRange.of_eq (h : c.InRange) (hop : ∀ o, (d.op o).InRange)
    (hpan : ∀ i, (d.ch i).leftpan.toNat ≤ 0x10000 ∧ (d.ch i).rightpan.toNat ≤ 0x10000)
    (hosc : d.osc = c.osc) (hreg : d.reg.tremshift = c.reg.tremshift) : d.InRange where
  ops := hop
  leftpan i := (hpan i).1
  rightpan i := (hpan i).2
  trempos := hosc ▸ h.trempos
  tremolo := hosc ▸ h.tremolo
  egAdd := hosc ▸ h.egAdd
  tremshift := hreg ▸ h.tremshift
  noise := hosc ▸ h.noise

theorem Chip.InRange.pan (h : c.InRange) (i : Fin 18) :
    (c.ch i).leftpan.toNat ≤ 0x10000 ∧ (c.ch i).rightpan.toNat ≤ 0x10000 := ⟨h.leftpan i, h.rightpan i⟩

theorem Chip.InRange.modOp (h : c.InRange) (o : Fin 36) {f : Operator → Operator}
    (hf : ∀ op, op.InRange → (f op).InRange) : (c.modOp o f).InRange := by
  refine h.of_eq (fun j => ?_) h.pan rfl rfl
  rw [op_modOp]
  split
  · exact hf _ (h.ops o)
  · exact h.ops j

theorem Chip.InRange.modCh (h : c.InRange) (i : Fin 18) {f : Channel → Channel}
    (hf : ∀ ch : Channel, ch.leftpan.toNat ≤ 0x10000 ∧ ch.rightpan.toNat ≤ 0x10000 →
      (f ch).leftpan.toNat ≤ 0x10000 ∧ (f ch).rightpan.toNat ≤ 0x10000) : (c.modCh i f).InRange := by
  refine h.of_eq h.ops (fun j => ?_) rfl rfl
  rw [ch_modCh]
  split
  · exact hf _ (h.pan i)
  · exact h.pan j

/-- A change of the global registers that leaves TREMSHIFT 2 or 4. -/
theorem Chip.InRange.setReg (h : c.InRange) {r : GlobalRegs} (hr : r.tremshift = 2 ∨ r.tremshift = 4) :
    ({ c with reg := r } : Chip).InRange := { h with tremshift := hr }

/-- A frame whose views still show the ranges. -/
theorem Chip.InRange.of_keeps {α β : Type} {gO : Operator → α} {gC : Channel → β} (h : c.InRange) (hk : Keeps gO gC c d)
    (fO : ∀ a b, gO a = gO b → b.InRange → a.InRange)
    (fC : ∀ a b, gC a = gC b → a.leftpan = b.leftpan ∧ a.rightpan = b.rightpan) : d.InRange := by
  refine h.of_eq (fun o => fO _ _ (hk.op o) (h.ops o)) (fun i => ?_) (congrArg ChipRun.osc hk.run)
    (congrArg GlobalRegs.tremshift hk.reg)
  obtain ⟨hl, hr⟩ := fC _ _ (hk.ch i)
  rw [hl, hr]
  exact h.pan i

/-! ### The router and the keys -/

theorem inRange_of_eraseMod (a b : Operator) (h : a.eraseMod = b.eraseMod) (hb : b.InRange) : a.InRange := by
  have he : b.eraseMod.InRange := { hb with }
  rw [← h] at he
  exact { he with }

theorem inRange_of_eraseKey (a b : Operator) (h : a.eraseKey = b.eraseKey) (hb : b.InRange) : a.InRange := by
  have he : b.eraseKey.InRange := { hb with }
  rw [← h] at he
  exact { he with }

theorem pans_of_eraseTap (a b : Channel) (h : a.eraseTap = b.eraseTap) :
    a.leftpan = b.leftpan ∧ a.rightpan = b.rightpan :=
  ⟨(congrArg Channel.leftpan h :), (congrArg Channel.rightpan h :)⟩

theorem pans_of_eraseWire (a b : Channel) (h : a.eraseWire = b.eraseWire) :
    a.leftpan = b.leftpan ∧ a.rightpan = b.rightpan :=
  ⟨(congrArg Channel.leftpan h :), (congrArg Channel.rightpan h :)⟩

theorem setupAlg_inRange (i : Fin 18) (h : c.InRange) : (setupAlg i c).InRange :=
  h.of_keeps (setupAlg_frame i c) inRange_of_eraseMod pans_of_eraseTap

theorem updateAlg_inRange (i : Fin 18) (h : c.InRange) : (updateAlg i c).InRange :=
  h.of_keeps (updateAlg_frame i c) inRange_of_eraseMod pans_of_eraseWire

theorem setRhythmTaps_inRange (p : Params) (h : c.InRange) : (setRhythmTaps p c).InRange :=
  h.of_keeps (setRhythmTaps_frame p c) inRange_of_eraseMod pans_of_eraseTap

theorem keySet_inRange (i : Fin 18) (v : Bool) (h : c.InRange) : (keySet i v c).InRange :=
  h.of_keeps (keySet_frame i v c) inRange_of_eraseKey fun _ _ e =>
    ⟨congrArg Channel.leftpan e, congrArg Channel.rightpan e⟩

theorem setChtype_inRange (i : Fin 18) (t : ChType) (h : c.InRange) : (setChtype i t c).InRange :=
  h.modCh i fun _ hp => hp

theorem setRhythmKey_inRange (v : Bool) (o : Fin 36) (h : c.InRange) : (c.modOp o (setRhythmKey v)).InRange :=
  h.modOp o fun _ ho => { ho with }

/-! ### The key-scale level -/

theorem updateKsl_inRange (o : Fin 36) (h : c.InRange) : (updateKsl o c).InRange :=
  h.modOp o fun _ ho => { ho with egKsl := kslOf_le _ }

theorem updateKsv_inRange (i : Fin 18) (h : c.InRange) : (updateKsv i c).InRange := h.modCh i fun _ hp => hp

theorem freqFollow_inRange (i : Fin 18) (b : Bool) (h : c.InRange) : (freqFollow i b c).InRange := by
  have own : (updateKsl (slot1 i) (updateKsl (slot0 i) (updateKsv i c))).InRange :=
    updateKsl_inRange _ (updateKsl_inRange _ (updateKsv_inRange i h))
  unfold freqFollow
  generalize updateKsl (slot1 i) _ = c' at own
  dsimp only
  split
  · exact updateKsl_inRange _ (updateKsl_inRange _ (own.modCh _ fun _ hp => hp))
  · exact own

/-! ### The classes of writes -/

theorem foldl_inRange {ι : Type} {f : Chip → ι → Chip} (hf : ∀ c k, c.InRange → (f c k).InRange) (l : List ι)
    (h : c.InRange) : (l.foldl f c).InRange :=
  List.foldlRecOn l f h fun c hc k _ => hf c k hc

theorem wr4opPair_inRange (b : Byte) (c : Chip) (k : Nat) (h : c.InRange) : (wr4opPair b c k).InRange := by
  unfold wr4opPair
  dsimp only
  split
  · exact updateAlg_inRange _ (setChtype_inRange _ _ (setChtype_inRange _ _ h))
  · exact updateAlg_inRange _ (updateAlg_inRange _ (setChtype_inRange _ _ (setChtype_inRange _ _ h)))

theorem wr4op_inRange (b : Byte) (h : c.InRange) : (wr4op b c).InRange :=
  foldl_inRange (wr4opPair_inRange b) _ (h.setReg h.tremshift)

theorem undrum_inRange (c : Chip) (i : Fin 18) (h : c.InRange) : (undrum c i).InRange :=
  setRhythmKey_inRange _ _ (setRhythmKey_inRange _ _ (setupAlg_inRange _ (setChtype_inRange _ _ h)))

theorem rhythmReconfig_inRange (p : Params) (b : Byte) (h : c.InRange) : (rhythmReconfig p b c).InRange := by
  have h' := h.setReg (r := { c.reg with rhy := b.extractLsb' 0 6 }) h.tremshift
  unfold rhythmReconfig
  dsimp only
  split
  · iterate 6 refine setRhythmKey_inRange _ _ ?_
    iterate 3 refine setupAlg_inRange _ ?_
    iterate 3 refine setChtype_inRange _ _ ?_
    exact setRhythmTaps_inRange p h'
  · exact foldl_inRange undrum_inRange _ h'

theorem wrBd_inRange (p : Params) (b : Byte) (h : c.InRange) : (wrBd p b c).InRange := by
  refine rhythmReconfig_inRange p b (h.setReg ?_)
  dsimp only
  split
  · exact .inl rfl
  · exact .inr rfl

theorem wrOp40_inRange (o : Fin 36) (b : Byte) (h : c.InRange) : (wrOp40 o b c).InRange :=
  updateKsl_inRange o (h.modOp o fun _ ho => { ho with })

theorem wrCha0_inRange (i : Fin 18) (b : Byte) (h : c.InRange) : (wrCha0 i b c).InRange := by
  unfold wrCha0
  split
  · exact h
  · exact freqFollow_inRange i _ (h.modCh i fun _ hp => hp)

theorem wrChb0_inRange (i : Fin 18) (b : Byte) (h : c.InRange) : (wrChb0 i b c).InRange := by
  unfold wrChb0
  refine keySet_inRange i _ ?_
  split
  · exact h
  · exact freqFollow_inRange i _ (h.modCh i fun _ hp => hp)

theorem directPan_le (b : Bool) : (directPan b).toNat ≤ 0x10000 := by cases b <;> decide

theorem wrChc0_inRange (i : Fin 18) (b : Byte) (h : c.InRange) : (wrChc0 i b c).InRange := by
  have wired : (updateAlg i (c.modCh i fun ch => { ch with fb := b.extractLsb' 1 3, con := b.getLsbD 0 })).InRange :=
    updateAlg_inRange i (h.modCh i fun _ hp => hp)
  unfold wrChc0
  generalize updateAlg i _ = c' at wired
  cases hs : c'.reg.stereoext with
  | true =>
    simp only [modCh_reg, hs, if_true]
    exact wired.modCh i fun _ hp => by split <;> exact hp
  | false =>
    simp only [modCh_reg, hs, Bool.false_eq_true, if_false]
    refine Chip.InRange.modCh ?_ i fun ch _ => ⟨directPan_le ch.cha, directPan_le ch.chb⟩
    exact wired.modCh i fun _ hp => by split <;> exact hp

theorem wrChd0_inRange (i : Fin 18) (b : Byte) (h : c.InRange) : (wrChd0 i b c).InRange := by
  have weight : ∀ k, (BitVec.ofNat 17 (panLut k)).toNat ≤ 0x10000 := fun k =>
    (Nat.mod_le ..).trans ((panLut_le k).trans (by decide))
  unfold wrChd0
  split
  · exact h.modCh i fun _ _ => ⟨weight _, weight _⟩
  · exact h

/-- Every register write, immediate or drained, keeps the ranges. -/
theorem regWrite_inRange (p : Params) (a : Addr) (b : Byte) (h : c.InRange) : (regWrite p a b c).InRange := by
  unfold regWrite
  cases classify a with
  | nts => exact h.setReg h.tremshift
  | fourOp => exact wr4op_inRange b h
  | mode => exact h.setReg h.tremshift
  | bd => exact wrBd_inRange p b h
  | op20 o => exact h.modOp o fun _ ho => { ho with }
  | op40 o => exact wrOp40_inRange o b h
  | op60 o => exact h.modOp o fun _ ho => { ho with }
  | op80 o => exact h.modOp o fun _ ho => { ho with sl := sustainLevel_range _ }
  | ope0 o => exact h.modOp o fun _ ho => { ho with }
  | cha0 i => exact wrCha0_inRange i b h
  | chb0 i => exact wrChb0_inRange i b h
  | chc0 i => exact wrChc0_inRange i b h
  | chd0 i => exact wrChd0_inRange i b h
  | ign => exact h

end Sys2Proof.Machine
end

section
/-! The ranges of the block's elements under a tick and under every step. -/

namespace Sys2Proof.Machine

variable {c d : Chip}

/-- What one operator step leaves of its operator: the new output by the wave, PROUT the old output, FBMOD from the two outputs
before, EG_OUT from the level before. -/
theorem operatorStep_op_inRange (h : c.InRange) (o : Fin 36) : ((operatorStep params c o).op o).InRange := by
  rw [operatorStep_op params rfl]
  have ho := h.ops o
  exact {
    sl := ho.sl
    out := waveOut_range ..
    prout := ho.out
    fbmod := feedbackMod_range _ ho
    egKsl := ho.egKsl
    egOut := egLevelOut_le h.tremolo ho.egKsl }

theorem operatorStep_inRange (c : Chip) (o : Fin 36) (h : c.InRange) : (operatorStep params c o).InRange := by
  have hrest := operatorStep_rest params rfl c o
  refine h.of_eq (fun j => ?_) (fun i => hrest.ch i ▸ h.pan i) hrest.osc (congrArg GlobalRegs.tremshift hrest.reg)
  by_cases hj : o = j
  · exact hj ▸ operatorStep_op_inRange h o
  · rw [operatorStep_op_ne params rfl c o hj]
    exact h.ops j

theorem mixAll_inRange (h : c.InRange) : (mixAll c).InRange := { h with }

theorem oscPhase_inRange (h : c.InRange) : (oscPhase params c).InRange :=
  have htrem := tremoloStep_range h.tremshift h.trempos
  { h with
    trempos := (congrArg BitVec.toNat (oscStep_trempos ..)).trans_lt htrem.1
    tremolo := (congrArg BitVec.toNat (oscStep_tremolo ..)).trans_le htrem.2
    egAdd := (congrArg BitVec.toNat (oscStep_egAdd ..)).trans_le (egAddStep_le _)
    noise := fun h0 => noiseNext_ne_zero h.noise ((oscStep_noise ..).symm.trans h0) }

theorem drainFrom_inRange (p : Params) (l : List WbEntry) (h : c.InRange) : (drainFrom p l c).InRange := by
  induction l generalizing c with
  | nil => exact { h with }
  | cons e l ih =>
    unfold drainFrom
    split
    · exact ih (regWrite_inRange p _ _ { h with })
    · exact { h with }

theorem tickChip_inRange (h : c.InRange) : (tickChip params c).InRange := by
  have hops : (operatorSteps params allOps c).InRange := foldl_inRange operatorStep_inRange allOps h
  have hsound : (soundPhases params c).InRange := mixAll_inRange hops
  have hdrain := drainFrom_inRange params (oscPhase params (soundPhases params c)).wb (oscPhase_inRange hsound)
  exact { hdrain with }

theorem commandEffect_inRange (h : c.InRange) (he : CommandEffect c d) : d.InRange := by
  cases he with
  | write a b => exact regWrite_inRange params a b h
  | queue a b _ => exact { h with }
  | tick => exact tickChip_inRange h
  | resampled n _ =>
    exact tickResampled_iterate_keeps (P := Chip.InRange) (fun _ => tickChip_inRange) (fun _ _ h => { h with }) n h

/-- Settles O55: each effect of a command keeps the ranges, and RESET meets them. -/
theorem stepKeepsRanges : Obligations.StepKeepsRanges := by
  unfold Obligations.StepKeepsRanges
  exact step_keeps (P := Chip.InRange) (fun _ _ => commandEffect_inRange) fun rate _ _ => resetChip_inRange params rate

end Sys2Proof.Machine
end

section
/-! The memory map (20_memory.md): the unmapped addresses, what every register write leaves alone, and a tick in which no
write comes due. -/

namespace Sys2Proof

/-- The converse of `classify_unmapped`: the decision list gives every address of the map a class of its own. -/
theorem unmapped_of_classify_ign (a : Addr) (h : classify a = .ign) : mapped a = false := by
  have all : ∀ a : Fin 512, classify (BitVec.ofFin a) = .ign → mapped (BitVec.ofFin a) = false := by decide +kernel
  exact all a.toFin h

theorem classify_eq_ign_iff (a : Addr) : classify a = .ign ↔ mapped a = false :=
  ⟨unmapped_of_classify_ign a, classify_unmapped a⟩

/-- Settles O5: the two ways of writing the map agree, so the ignored addresses are counted on the table of R48. -/
theorem ignoredAddresses : Obligations.IgnoredAddresses := by
  have ign_iff (n : Nat) : (classify (BitVec.ofNat 9 n) == .ign) = !mapped (BitVec.ofNat 9 n) := by
    rw [Bool.eq_iff_iff, beq_iff_eq, Bool.not_eq_true', classify_eq_ign_iff]
  refine ⟨classify_eq_ign_iff, ?_⟩
  simp only [ign_iff]
  decide +kernel

end Sys2Proof

namespace Sys2Proof.Machine

/-- Settles O25: a write command runs `regWrite`, whose frame is `regWrite_write`. -/
theorem writesKeepDynamicState : Obligations.WritesKeepDynamicState := by
  intro i s t hi h
  obtain ⟨a, d, he⟩ := exec_of_isWrite hi
  obtain ⟨-, rfl⟩ := onChip_eq_next_iff.mp ((he s).symm.trans h)
  obtain ⟨hrun, hdyn⟩ := regWrite_write params a d s.chip
  exact ⟨hrun, hdyn, rfl, rfl, rfl⟩

/-- Settles O33: with no due head the drain does nothing, and the operator steps change no programmed element. -/
theorem tickWithoutDueWriteKeepsRegisters : Obligations.TickWithoutDueWriteKeepsRegisters := by
  intro s t h hdue
  obtain ⟨-, ht⟩ := execTick_eq_next_iff.mp h
  have hchip : tickChip params s.chip = t.chip := congrArg State.chip ht
  have hprog := operatorSteps_prog params rfl s.chip allOps
  rw [← hchip, tick_of_not_due s.chip hdue]
  generalize operatorSteps params allOps s.chip = c at hprog ⊢
  exact ⟨rfl, rfl, rfl, hprog⟩

end Sys2Proof.Machine
end

section
/-! Two runs of one procedure in step (20_memory.md R47): at every element of the block either both runs end with the same
value or both keep the value they found. A procedure whose runs on a block and on what it made of that block are in step is
idempotent. -/

namespace Sys2Proof.Machine

/-- The elements of an operator that the write procedures assign one by one, and the rest of it. -/
inductive OpElement : ∀ α : Type, (Operator → α) → Prop
  | modsrc : OpElement _ Operator.modsrc
  | egKsl : OpElement _ Operator.egKsl
  | normalKey : OpElement _ fun op => op.key.getLsbD 0
  | rhythmKey : OpElement _ fun op => op.key.getLsbD 1
  | rest : OpElement _ fun op => { op with modsrc := .zero, egKsl := 0, key := 0 }

/-- The elements of a channel: its fields, F_NUM in the two parts that are written apart (40_register_writes.md R96, R97). -/
inductive ChElement : ∀ α : Type, (Channel → α) → Prop
  | fNumLow : ChElement _ fun ch => ch.fNum.extractLsb' 0 8
  | fNumHigh : ChElement _ fun ch => ch.fNum.extractLsb' 8 2
  | block : ChElement _ Channel.block
  | fb : ChElement _ Channel.fb
  | con : ChElement _ Channel.con
  | alg : ChElement _ Channel.alg
  | ksv : ChElement _ Channel.ksv
  | cha : ChElement _ Channel.cha
  | chb : ChElement _ Channel.chb
  | chc : ChElement _ Channel.chc
  | chd : ChElement _ Channel.chd
  | leftpan : ChElement _ Channel.leftpan
  | rightpan : ChElement _ Channel.rightpan
  | chtype : ChElement _ Channel.chtype
  | tap : ChElement _ Channel.tap

/-- The elements of the chip-global registers: their fields. -/
inductive RegElement : ∀ α : Type, (GlobalRegs → α) → Prop
  | newm : RegElement _ GlobalRegs.newm
  | stereoext : RegElement _ GlobalRegs.stereoext
  | nts : RegElement _ GlobalRegs.nts
  | rhy : RegElement _ GlobalRegs.rhy
  | fourop : RegElement _ GlobalRegs.fourop
  | tremshift : RegElement _ GlobalRegs.tremshift
  | vibshift : RegElement _ GlobalRegs.vibshift

/-- The elements of the block; no write reaches the running part, so it counts as one. -/
inductive Element : ∀ α : Type, (Chip → α) → Prop
  | op {α : Type} (o : Fin 36) {v : Operator → α} (hv : OpElement α v) : Element _ fun c => v (c.op o)
  | ch {α : Type} (i : Fin 18) {v : Channel → α} (hv : ChElement α v) : Element _ fun c => v (c.ch i)
  | reg {α : Type} {v : GlobalRegs → α} (hv : RegElement α v) : Element _ fun c => v c.reg
  | run : Element _ Chip.run

theorem operator_eq_of_elements {a b : Operator} (h : ∀ (α : Type) v, OpElement α v → v a = v b) : a = b := by
  have hkey : a.key = b.key := by
    ext k hk
    obtain rfl | rfl : k = 0 ∨ k = 1 := by omega
    · exact h _ _ .normalKey
    · exact h _ _ .rhythmKey
  have hmodsrc := h _ _ .modsrc
  have hegKsl := h _ _ .egKsl
  have hrest := h _ _ .rest
  cases a
  cases b
  simp_all

/-- F_NUM is its two parts. -/
theorem fNum_eq {x y : BitVec 10} (hlow : x.extractLsb' 0 8 = y.extractLsb' 0 8)
    (hhigh : x.extractLsb' 8 2 = y.extractLsb' 8 2) : x = y := by
  have split (z : BitVec 10) : z = z.extractLsb' 8 2 ++ z.extractLsb' 0 8 := by
    rw [BitVec.extractLsb'_append_extractLsb'_eq_extractLsb' (by rfl), BitVec.extractLsb'_eq_self]
  rw [split x, split y, hlow, hhigh]

theorem channel_eq_of_elements {a b : Channel} (h : ∀ (α : Type) v, ChElement α v → v a = v b) : a = b := by
  cases a
  cases b
  rw [Channel.mk.injEq]
  exact ⟨fNum_eq (h _ _ .fNumLow) (h _ _ .fNumHigh), h _ _ .block, h _ _ .fb, h _ _ .con, h _ _ .alg, h _ _ .ksv,
    h _ _ .cha, h _ _ .chb, h _ _ .chc, h _ _ .chd, h _ _ .leftpan, h _ _ .rightpan, h _ _ .chtype, h _ _ .tap⟩

theorem globalRegs_eq_of_elements {a b : GlobalRegs} (h : ∀ (α : Type) v, RegElement α v → v a = v b) : a = b := by
  cases a
  cases b
  rw [GlobalRegs.mk.injEq]
  exact ⟨h _ _ .newm, h _ _ .stereoext, h _ _ .nts, h _ _ .rhy, h _ _ .fourop, h _ _ .tremshift, h _ _ .vibshift⟩

theorem chip_eq_of_elements {c d : Chip} (h : ∀ (α : Type) v, Element α v → v c = v d) : c = d :=
  chip_ext (fun o => operator_eq_of_elements fun _ _ hv => h _ _ (.op o hv))
    (fun i => channel_eq_of_elements fun _ _ hv => h _ _ (.ch i hv))
    (globalRegs_eq_of_elements fun _ _ hv => h _ _ (.reg hv)) (h _ _ .run)

/-! ### Steps -/

/-- Two steps, from `a` to `a'` and from `b` to `b'`: each element ends with one value in both, or each run keeps its own. -/
structure InStep {σ : Type} (E : ∀ α : Type, (σ → α) → Prop) (a b a' b' : σ) : Prop where
  element : ∀ (α : Type) (v : σ → α), E α v → v a' = v b' ∨ (v a' = v a ∧ v b' = v b)

section
variable {σ : Type} {E : ∀ α : Type, (σ → α) → Prop} {a b a' b' a'' b'' : σ}

theorem InStep.refl (a b : σ) : InStep E a b a b := ⟨fun _ _ _ => .inr ⟨rfl, rfl⟩⟩

theorem InStep.trans (h : InStep E a b a' b') (h' : InStep E a' b' a'' b'') : InStep E a b a'' b'' where
  element α v hv := by
    obtain e' | ⟨ka', kb'⟩ := h'.element α v hv
    · exact .inl e'
    · obtain e | ⟨ka, kb⟩ := h.element α v hv
      · exact .inl (ka'.trans (e.trans kb'.symm))
      · exact .inr ⟨ka'.trans ka, kb'.trans kb⟩

/-- An element on which the two runs agree stays one. -/
theorem InStep.agree (h : InStep E a b a' b') {α : Type} {v : σ → α} (hv : E α v) (e : v a = v b) : v a' = v b' := by
  obtain e' | ⟨ka, kb⟩ := h.element α v hv
  · exact e'
  · rw [ka, kb, e]

end

/-- The run on `c` and the run on what it left are in step: the second changes nothing. -/
theorem InStep.idempotent {f : Chip → Chip} {c : Chip} (h : InStep Element c (f c) (f c) (f (f c))) : f (f c) = f c :=
  chip_eq_of_elements fun α v hv => by
    obtain e | ⟨-, k⟩ := h.element α v hv
    · exact e.symm
    · exact k

section
variable {c d c' d' : Chip}

/-- `InStep.agree` for the whole of F_NUM. -/
theorem InStep.fNum (h : InStep Element c d c' d') {i : Fin 18} (e : (c.ch i).fNum = (d.ch i).fNum) :
    (c'.ch i).fNum = (d'.ch i).fNum :=
  fNum_eq (h.agree (.ch i .fNumLow) (congrArg (BitVec.extractLsb' 0 8) e))
    (h.agree (.ch i .fNumHigh) (congrArg (BitVec.extractLsb' 8 2) e))

theorem InStep.modOp (o : Fin 36) {f g : Operator → Operator}
    (h : InStep OpElement (c.op o) (d.op o) (f (c.op o)) (g (d.op o))) :
    InStep Element c d (c.modOp o f) (d.modOp o g) where
  element α v hv := by
    cases hv with
    | op o' hv =>
      dsimp only
      rw [op_modOp, op_modOp]
      split
      · next e => subst e; exact h.element _ _ hv
      · exact .inr ⟨rfl, rfl⟩
    | _ => exact .inr ⟨rfl, rfl⟩

theorem InStep.modCh (i : Fin 18) {f g : Channel → Channel}
    (h : InStep ChElement (c.ch i) (d.ch i) (f (c.ch i)) (g (d.ch i))) :
    InStep Element c d (c.modCh i f) (d.modCh i g) where
  element α v hv := by
    cases hv with
    | ch j hv =>
      dsimp only
      rw [ch_modCh, ch_modCh]
      split
      · next e => subst e; exact h.element _ _ hv
      · exact .inr ⟨rfl, rfl⟩
    | _ => exact .inr ⟨rfl, rfl⟩

theorem InStep.setReg {r s : GlobalRegs} (h : InStep RegElement c.reg d.reg r s) :
    InStep Element c d { c with reg := r } { d with reg := s } where
  element α v hv := by
    cases hv with
    | reg hv => exact h.element _ _ hv
    | _ => exact .inr ⟨rfl, rfl⟩

/-- A loop, with what its body needs the runs to agree on (`P`) kept by any two runs in step. -/
theorem InStep.foldl {ι : Type} {f : Chip → ι → Chip} {P : Chip → Chip → Prop}
    (keep : ∀ {c d c' d'}, InStep Element c d c' d' → P c d → P c' d') (l : List ι)
    (step : ∀ k ∈ l, ∀ c d, P c d → InStep Element c d (f c k) (f d k)) (h : P c d) :
    InStep Element c d (l.foldl f c) (l.foldl f d) := by
  induction l generalizing c d with
  | nil => exact InStep.refl c d
  | cons k l ih =>
    have hk := step k List.mem_cons_self c d h
    exact hk.trans (ih (fun k' hk' => step k' (List.mem_cons_of_mem k hk')) (keep hk h))

end

end Sys2Proof.Machine
end

section
/-! The write procedures in step, each given that the two runs agree on what it reads before writing it. -/

namespace Sys2Proof.Machine

/-! ### One assignment -/

section
variable {c d c' d' : Chip}

theorem setModsrc_inStep (o : Fin 36) (s : Source) : InStep Element c d (setModsrc o s c) (setModsrc o s d) :=
  .modOp o ⟨fun _ _ hv => by
    cases hv with
    | modsrc => exact .inl rfl
    | _ => exact .inr ⟨rfl, rfl⟩⟩

theorem setTap_inStep (i : Fin 18) (t : Quad Source) : InStep Element c d (setTap i t c) (setTap i t d) :=
  .modCh i ⟨fun _ _ hv => by
    cases hv with
    | tap => exact .inl rfl
    | _ => exact .inr ⟨rfl, rfl⟩⟩

theorem setAlgCode_inStep (i : Fin 18) (x : Alg) : InStep Element c d (setAlgCode i x c) (setAlgCode i x d) :=
  .modCh i ⟨fun _ _ hv => by
    cases hv with
    | alg => exact .inl rfl
    | _ => exact .inr ⟨rfl, rfl⟩⟩

theorem setChtype_inStep (i : Fin 18) (t : ChType) : InStep Element c d (setChtype i t c) (setChtype i t d) :=
  .modCh i ⟨fun _ _ hv => by
    cases hv with
    | chtype => exact .inl rfl
    | _ => exact .inr ⟨rfl, rfl⟩⟩

theorem setNormalKey_inStep (o : Fin 36) (v : Bool) :
    InStep Element c d (c.modOp o (setNormalKey v)) (d.modOp o (setNormalKey v)) :=
  .modOp o ⟨fun _ _ hv => by
    cases hv with
    | normalKey => exact .inl (by simp [setNormalKey])
    | rhythmKey => exact .inr (by cases v <;> simp [setNormalKey])
    | _ => exact .inr ⟨rfl, rfl⟩⟩

theorem setRhythmKey_inStep (o : Fin 36) (v : Bool) :
    InStep Element c d (c.modOp o (setRhythmKey v)) (d.modOp o (setRhythmKey v)) :=
  .modOp o ⟨fun _ _ hv => by
    cases hv with
    | normalKey => exact .inr (by cases v <;> simp [setRhythmKey])
    | rhythmKey => exact .inl (by simp [setRhythmKey])
    | _ => exact .inr ⟨rfl, rfl⟩⟩

theorem setAlgCode_alg (i : Fin 18) (x : Alg) (c : Chip) : ((setAlgCode i x c).ch i).alg = x := by
  rw [ch_setAlgCode, if_pos rfl]

theorem setChtype_chtype (i : Fin 18) (t : ChType) (c : Chip) : ((setChtype i t c).ch i).chtype = t := by
  rw [ch_setChtype, if_pos rfl]

/-! ### The router (44_router.md R176 to R183) -/

theorem wireTwo_inStep (i : Fin 18) (b : Bool) : InStep Element c d (wireTwo i b c) (wireTwo i b d) := by
  unfold wireTwo
  cases b
  all_goals exact (setModsrc_inStep ..).trans ((setModsrc_inStep ..).trans (setTap_inStep ..))

theorem wireFour_inStep (i : Fin 18) (x y z : Source) (t : Quad Source) :
    InStep Element c d (wireFour i x y z t c) (wireFour i x y z t d) :=
  (setModsrc_inStep ..).trans <| (setModsrc_inStep ..).trans <| (setModsrc_inStep ..).trans <|
    (setModsrc_inStep ..).trans <| (setTap_inStep ..).trans (setTap_inStep ..)

theorem wireDrum_inStep (i : Fin 18) (halg : (c.ch i).alg = (d.ch i).alg) :
    InStep Element c d (wireDrum i c) (wireDrum i d) := by
  unfold wireDrum
  dsimp only
  rw [ch_setModsrc, ch_setModsrc, halg]
  split
  · exact (setModsrc_inStep ..).trans (setModsrc_inStep ..)
  · split
    all_goals exact (setModsrc_inStep ..).trans (setModsrc_inStep ..)

theorem setupAlg_inStep (i : Fin 18) (htype : (c.ch i).chtype = (d.ch i).chtype) (halg : (c.ch i).alg = (d.ch i).alg) :
    InStep Element c d (setupAlg i c) (setupAlg i d) := by
  unfold setupAlg
  dsimp only
  rw [htype, halg]
  split
  · exact wireDrum_inStep i halg
  · cases (d.ch i).alg with
    | merged8 => exact .refl c d
    | two0 => exact wireTwo_inStep ..
    | two1 => exact wireTwo_inStep ..
    | _ => exact wireFour_inStep ..

/-- The code of channel `i`, then that of channel `k`, then the wiring of channel `i`: the merged branches of `UpdateAlg`. -/
theorem setupAlg_codes_inStep (i k : Fin 18) (x y : Alg) (htype : (c.ch i).chtype = (d.ch i).chtype) :
    InStep Element c d (setupAlg i (setAlgCode k y (setAlgCode i x c))) (setupAlg i (setAlgCode k y (setAlgCode i x d))) := by
  have hi : InStep Element c d (setAlgCode i x c) (setAlgCode i x d) := setAlgCode_inStep i x
  have halg : ((setAlgCode i x c).ch i).alg = ((setAlgCode i x d).ch i).alg := by rw [setAlgCode_alg, setAlgCode_alg]
  have hk := setAlgCode_inStep k y (c := setAlgCode i x c) (d := setAlgCode i x d)
  exact (hi.trans hk).trans (setupAlg_inStep i ((hi.trans hk).agree (.ch i .chtype) htype) (hk.agree (.ch i .alg) halg))

theorem updateAlg_inStep (i : Fin 18) (hnewm : c.reg.newm = d.reg.newm) (hcon : (c.ch i).con = (d.ch i).con)
    (hconp : (c.ch (pairOf i)).con = (d.ch (pairOf i)).con) (htype : (c.ch i).chtype = (d.ch i).chtype)
    (htypep : (c.ch (pairOf i)).chtype = (d.ch (pairOf i)).chtype) :
    InStep Element c d (updateAlg i c) (updateAlg i d) := by
  unfold updateAlg
  dsimp only
  rw [hcon]
  generalize (if (d.ch i).con then Alg.two1 else Alg.two0) = x
  have h : InStep Element c d (setAlgCode i x c) (setAlgCode i x d) := setAlgCode_inStep i x
  have halg : ((setAlgCode i x c).ch i).alg = ((setAlgCode i x d).ch i).alg := by rw [setAlgCode_alg, setAlgCode_alg]
  refine h.trans ?_
  replace hnewm := h.agree (.reg .newm) hnewm
  replace hconp := h.agree (.ch _ .con) hconp
  replace htype := h.agree (.ch _ .chtype) htype
  replace htypep := h.agree (.ch _ .chtype) htypep
  generalize setAlgCode i x c = c at *
  generalize setAlgCode i x d = d at *
  rw [hnewm, htype, hconp]
  split
  · exact setupAlg_codes_inStep _ _ _ _ htypep
  · split
    · exact setupAlg_codes_inStep _ _ _ _ htype
    · exact setupAlg_inStep i htype halg

/-! ### WR_4OP (40_register_writes.md R92) -/

/-- The runs agree on what the loop of WR_4OP reads and does not write. -/
def ConAgree (c d : Chip) : Prop := c.reg.newm = d.reg.newm ∧ ∀ i, (c.ch i).con = (d.ch i).con

theorem InStep.conAgree (h : InStep Element c d c' d') (hc : ConAgree c d) : ConAgree c' d' :=
  ⟨h.agree (.reg .newm) hc.1, fun i => h.agree (.ch i .con) (hc.2 i)⟩

/-- The types of a pair, which the router reads next. -/
theorem setChtype_pair_inStep (i k : Fin 18) (s t : ChType) :
    InStep Element c d (setChtype k t (setChtype i s c)) (setChtype k t (setChtype i s d))
      ∧ ((setChtype k t (setChtype i s c)).ch i).chtype = ((setChtype k t (setChtype i s d)).ch i).chtype
      ∧ ((setChtype k t (setChtype i s c)).ch k).chtype = ((setChtype k t (setChtype i s d)).ch k).chtype := by
  have hk := setChtype_inStep k t (c := setChtype i s c) (d := setChtype i s d)
  refine ⟨(setChtype_inStep ..).trans hk, ?_, ?_⟩
  · exact hk.agree (.ch i .chtype) (by rw [setChtype_chtype, setChtype_chtype])
  · rw [setChtype_chtype, setChtype_chtype]

theorem wr4opPair_inStep (b : Byte) (k : Fin 6) (hc : ConAgree c d) :
    InStep Element c d (wr4opPair b c k) (wr4opPair b d k) := by
  obtain ⟨hlower, hpair⟩ := pairLower_spec k
  have hback : pairOf (pairOf (pairLower k)) = pairLower k := (pairOf_spec _ (by omega)).2.1
  unfold wr4opPair
  dsimp only
  rw [← hpair]
  generalize pairLower k = i at *
  split
  · obtain ⟨h, hi, hp⟩ := setChtype_pair_inStep (c := c) (d := d) i (pairOf i) .t4opA .t4opB
    obtain ⟨hnewm, hcon⟩ := h.conAgree hc
    exact h.trans (updateAlg_inStep i hnewm (hcon i) (hcon (pairOf i)) hi hp)
  · obtain ⟨h, hi, hp⟩ := setChtype_pair_inStep (c := c) (d := d) i (pairOf i) .t2op .t2op
    obtain ⟨hnewm, hcon⟩ := h.conAgree hc
    have h' := updateAlg_inStep i hnewm (hcon i) (hcon (pairOf i)) hi hp
    obtain ⟨hnewm', hcon'⟩ := h'.conAgree ⟨hnewm, hcon⟩
    refine h.trans (h'.trans (updateAlg_inStep (pairOf i) hnewm' (hcon' _) (hcon' _) ?_ ?_))
    · exact h'.agree (.ch _ .chtype) hp
    · exact h'.agree (.ch _ .chtype) (hback.symm ▸ hi)

theorem wr4op_inStep (b : Byte) (hc : ConAgree c d) : InStep Element c d (wr4op b c) (wr4op b d) := by
  have hreg : InStep Element c d { c with reg := { c.reg with fourop := b.extractLsb' 0 6 } }
      { d with reg := { d.reg with fourop := b.extractLsb' 0 6 } } := .setReg ⟨fun _ _ hv => by
    cases hv with
    | fourop => exact .inl rfl
    | _ => exact .inr ⟨rfl, rfl⟩⟩
  refine hreg.trans (InStep.foldl (P := ConAgree) InStep.conAgree [0, 1, 2, 3, 4, 5] ?_ (hreg.conAgree hc))
  intro k hk c d hc
  have hk6 : k < 6 := by simp at hk; omega
  exact wr4opPair_inStep b ⟨k, hk6⟩ hc

/-! ### WR_BD (40_register_writes.md R99, 42_phase_noise_rhythm.md R152) -/

theorem InStep.algAgree (h : InStep Element c d c' d') (ha : ∀ i, (c.ch i).alg = (d.ch i).alg) (i : Fin 18) :
    (c'.ch i).alg = (d'.ch i).alg := h.agree (.ch i .alg) (ha i)

theorem undrum_inStep (i : Fin 18) (ha : ∀ i, (c.ch i).alg = (d.ch i).alg) :
    InStep Element c d (undrum c i) (undrum d i) := by
  unfold undrum
  have h : InStep Element c d (setChtype i .t2op c) (setChtype i .t2op d) := setChtype_inStep ..
  have hroute := setupAlg_inStep i (by rw [setChtype_chtype, setChtype_chtype]) (h.algAgree ha i)
  exact ((h.trans hroute).trans (setRhythmKey_inStep ..)).trans (setRhythmKey_inStep ..)

theorem setRhythmTaps_inStep (p : Params) : InStep Element c d (setRhythmTaps p c) (setRhythmTaps p d) := by
  unfold setRhythmTaps
  split
  all_goals exact (setTap_inStep ..).trans ((setTap_inStep ..).trans (setTap_inStep ..))

theorem setupAlg_drum_inStep (ha : ∀ i, (c.ch i).alg = (d.ch i).alg) :
    InStep Element c d (setupAlg 8 (setupAlg 7 (setupAlg 6 (setChtype 8 .tdrum (setChtype 7 .tdrum (setChtype 6 .tdrum c))))))
      (setupAlg 8 (setupAlg 7 (setupAlg 6 (setChtype 8 .tdrum (setChtype 7 .tdrum (setChtype 6 .tdrum d)))))) := by
  have htypes : InStep Element c d (setChtype 8 .tdrum (setChtype 7 .tdrum (setChtype 6 .tdrum c)))
      (setChtype 8 .tdrum (setChtype 7 .tdrum (setChtype 6 .tdrum d))) :=
    (setChtype_inStep ..).trans ((setChtype_inStep ..).trans (setChtype_inStep ..))
  have h6 := setupAlg_inStep 6 (by simp [ch_setChtype]) (htypes.algAgree ha 6)
  have h7 := setupAlg_inStep 7 (h6.agree (.ch 7 .chtype) (by simp [ch_setChtype])) ((htypes.trans h6).algAgree ha 7)
  have h67 := h6.trans h7
  have h8 := setupAlg_inStep 8 (h67.agree (.ch 8 .chtype) (by simp [ch_setChtype])) ((htypes.trans h67).algAgree ha 8)
  exact htypes.trans (h67.trans h8)

theorem rhythmReconfig_inStep (p : Params) (b : Byte) (ha : ∀ i, (c.ch i).alg = (d.ch i).alg) :
    InStep Element c d (rhythmReconfig p b c) (rhythmReconfig p b d) := by
  have hreg : InStep Element c d { c with reg := { c.reg with rhy := b.extractLsb' 0 6 } }
      { d with reg := { d.reg with rhy := b.extractLsb' 0 6 } } := .setReg ⟨fun _ _ hv => by
    cases hv with
    | rhy => exact .inl rfl
    | _ => exact .inr ⟨rfl, rfl⟩⟩
  have ha' := hreg.algAgree ha
  unfold rhythmReconfig
  dsimp only
  refine hreg.trans ?_
  split
  · have htaps := setRhythmTaps_inStep p (c := { c with reg := { c.reg with rhy := b.extractLsb' 0 6 } })
      (d := { d with reg := { d.reg with rhy := b.extractLsb' 0 6 } })
    have hdrum := htaps.trans (setupAlg_drum_inStep (htaps.algAgree ha'))
    iterate 6 refine InStep.trans ?_ (setRhythmKey_inStep _ _)
    exact hdrum
  · exact InStep.foldl (P := fun c d => ∀ i, (c.ch i).alg = (d.ch i).alg) InStep.algAgree [6, 7, 8]
      (fun i _ _ _ => undrum_inStep i) ha'

theorem wrBd_inStep (p : Params) (b : Byte) (ha : ∀ i, (c.ch i).alg = (d.ch i).alg) :
    InStep Element c d (wrBd p b c) (wrBd p b d) := by
  have hreg : InStep Element c d
      { c with reg := { c.reg with
        tremshift := if b.getLsbD 7 then 2 else 4, vibshift := if b.getLsbD 6 then 0 else 1 } }
      { d with reg := { d.reg with
        tremshift := if b.getLsbD 7 then 2 else 4, vibshift := if b.getLsbD 6 then 0 else 1 } } := .setReg ⟨fun _ _ hv => by
    cases hv with
    | tremshift => exact .inl rfl
    | vibshift => exact .inl rfl
    | _ => exact .inr ⟨rfl, rfl⟩⟩
  exact hreg.trans (rhythmReconfig_inStep p b (hreg.algAgree ha))

/-! ### WR_CHC0 (40_register_writes.md R100) -/

/-- The first half of WR_CHC0: feedback and connection, before the router. -/
def setConnection (i : Fin 18) (b : Byte) (c : Chip) : Chip :=
  c.modCh i fun ch => { ch with fb := b.extractLsb' 1 3, con := b.getLsbD 0 }

/-- The output enables of WR_CHC0 in either mode. -/
def setEnables (i : Fin 18) (b : Byte) (c : Chip) : Chip :=
  c.modCh i fun ch =>
    if c.reg.newm then { ch with cha := b.getLsbD 4, chb := b.getLsbD 5, chc := b.getLsbD 6, chd := b.getLsbD 7 }
    else { ch with cha := true, chb := true, chc := false, chd := false }

/-- The pan weights that follow the output enables outside stereo extension. -/
def setDirectPan (i : Fin 18) (c : Chip) : Chip :=
  if c.reg.stereoext then c
  else c.modCh i fun ch => { ch with leftpan := directPan ch.cha, rightpan := directPan ch.chb }

theorem wrChc0_eq (i : Fin 18) (b : Byte) (c : Chip) :
    wrChc0 i b c = setDirectPan i (setEnables i b (updateAlg i (setConnection i b c))) := rfl

theorem setConnection_inStep (i : Fin 18) (b : Byte) : InStep Element c d (setConnection i b c) (setConnection i b d) :=
  .modCh i ⟨fun _ _ hv => by
    cases hv with
    | fb => exact .inl rfl
    | con => exact .inl rfl
    | _ => exact .inr ⟨rfl, rfl⟩⟩

theorem setConnection_con (i : Fin 18) (b : Byte) (hcon : ∀ j, j ≠ i → (c.ch j).con = (d.ch j).con) (j : Fin 18) :
    ((setConnection i b c).ch j).con = ((setConnection i b d).ch j).con := by
  unfold setConnection
  rw [ch_modCh, ch_modCh]
  split
  · rfl
  · next h => exact hcon j (Ne.symm h)

theorem setEnables_inStep (i : Fin 18) (b : Byte) (hnewm : c.reg.newm = d.reg.newm) :
    InStep Element c d (setEnables i b c) (setEnables i b d) := by
  unfold setEnables
  rw [hnewm]
  refine .modCh i ⟨fun _ _ hv => ?_⟩
  cases d.reg.newm
  all_goals
    cases hv with
    | cha => exact .inl rfl
    | chb => exact .inl rfl
    | chc => exact .inl rfl
    | chd => exact .inl rfl
    | _ => exact .inr ⟨rfl, rfl⟩

theorem setDirectPan_inStep (i : Fin 18) (hstereo : c.reg.stereoext = d.reg.stereoext)
    (hcha : (c.ch i).cha = (d.ch i).cha) (hchb : (c.ch i).chb = (d.ch i).chb) :
    InStep Element c d (setDirectPan i c) (setDirectPan i d) := by
  unfold setDirectPan
  rw [hstereo]
  split
  · exact .refl c d
  · refine .modCh i ⟨fun _ _ hv => ?_⟩
    cases hv with
    | leftpan => exact .inl (congrArg directPan hcha)
    | rightpan => exact .inl (congrArg directPan hchb)
    | _ => exact .inr ⟨rfl, rfl⟩

theorem setEnables_agree (i : Fin 18) (b : Byte) (hnewm : c.reg.newm = d.reg.newm) :
    ((setEnables i b c).ch i).cha = ((setEnables i b d).ch i).cha
      ∧ ((setEnables i b c).ch i).chb = ((setEnables i b d).ch i).chb := by
  unfold setEnables
  rw [ch_modCh_same, ch_modCh_same, hnewm]
  split <;> exact ⟨rfl, rfl⟩

theorem wrChc0_inStep (i : Fin 18) (b : Byte) (hreg : c.reg = d.reg) (htype : ∀ j, (c.ch j).chtype = (d.ch j).chtype)
    (hcon : ∀ j, j ≠ i → (c.ch j).con = (d.ch j).con) : InStep Element c d (wrChc0 i b c) (wrChc0 i b d) := by
  have h : InStep Element c d (setConnection i b c) (setConnection i b d) := setConnection_inStep ..
  have hcon' := setConnection_con i b hcon
  have hroute := updateAlg_inStep i (h.agree (.reg .newm) (congrArg GlobalRegs.newm hreg)) (hcon' i) (hcon' _)
    (h.agree (.ch i .chtype) (htype i)) (h.agree (.ch _ .chtype) (htype _))
  have h' := h.trans hroute
  have hnewm := h'.agree (.reg .newm) (congrArg GlobalRegs.newm hreg)
  have h'' := h'.trans (setEnables_inStep i b hnewm)
  have hstereo := h''.agree (.reg .stereoext) (congrArg GlobalRegs.stereoext hreg)
  obtain ⟨hcha, hchb⟩ := setEnables_agree i b hnewm
  rw [wrChc0_eq, wrChc0_eq]
  exact h''.trans (setDirectPan_inStep i hstereo hcha hchb)

/-! ### WR_CHA0 and WR_CHB0 (40_register_writes.md R96 to R98, R102, R110, R111) -/

theorem updateKsl_inStep (o : Fin 36) (hfNum : (c.ch (chanOf o)).fNum = (d.ch (chanOf o)).fNum)
    (hblock : (c.ch (chanOf o)).block = (d.ch (chanOf o)).block) :
    InStep Element c d (updateKsl o c) (updateKsl o d) := .modOp o ⟨fun _ _ hv => by
  cases hv with
  | egKsl => exact .inl (by simp only [kslOf, hfNum, hblock])
  | _ => exact .inr ⟨rfl, rfl⟩⟩

/-- Both operators of a channel. -/
theorem updateKsl_both_inStep (i : Fin 18) (hfNum : (c.ch i).fNum = (d.ch i).fNum)
    (hblock : (c.ch i).block = (d.ch i).block) :
    InStep Element c d (updateKsl (slot1 i) (updateKsl (slot0 i) c)) (updateKsl (slot1 i) (updateKsl (slot0 i) d)) := by
  have h : InStep Element c d (updateKsl (slot0 i) c) (updateKsl (slot0 i) d) :=
    updateKsl_inStep _ (by rwa [chanOf_slot0]) (by rwa [chanOf_slot0])
  exact h.trans (updateKsl_inStep _ (by rw [chanOf_slot1]; exact hfNum) (by rw [chanOf_slot1]; exact hblock))

/-- The pair takes the frequency of the leading channel, and its block where that is written too. -/
def copyFreq (p : Fin 18) (withBlock : Bool) (ch : Channel) (c : Chip) : Chip :=
  c.modCh p fun q => { q with fNum := ch.fNum, block := if withBlock then ch.block else q.block, ksv := ch.ksv }

theorem freqFollow_eq (i : Fin 18) (withBlock : Bool) (c : Chip) : freqFollow i withBlock c =
    let c := updateKsl (slot1 i) (updateKsl (slot0 i) (updateKsv i c))
    if c.reg.newm ∧ (c.ch i).chtype = .t4opA then
      updateKsl (slot1 (pairOf i)) (updateKsl (slot0 (pairOf i)) (copyFreq (pairOf i) withBlock (c.ch i) c))
    else c := rfl

theorem copyFreq_inStep (p : Fin 18) (withBlock : Bool) {a b : Channel} (hfNum : a.fNum = b.fNum) (hblock : a.block = b.block)
    (hksv : a.ksv = b.ksv) : InStep Element c d (copyFreq p withBlock a c) (copyFreq p withBlock b d) :=
  .modCh p ⟨fun _ _ hv => by
    cases hv with
    | fNumLow => exact .inl (by rw [hfNum])
    | fNumHigh => exact .inl (by rw [hfNum])
    | ksv => exact .inl hksv
    | block =>
      cases withBlock
      · exact .inr ⟨rfl, rfl⟩
      · exact .inl hblock
    | _ => exact .inr ⟨rfl, rfl⟩⟩

theorem updateKsv_inStep (i : Fin 18) (hnts : c.reg.nts = d.reg.nts) (hfNum : (c.ch i).fNum = (d.ch i).fNum)
    (hblock : (c.ch i).block = (d.ch i).block) :
    InStep Element c d (updateKsv i c) (updateKsv i d) ∧ ((updateKsv i c).ch i).ksv = ((updateKsv i d).ch i).ksv := by
  have e : ksvOf c.reg.nts (c.ch i) = ksvOf d.reg.nts (d.ch i) := by simp only [ksvOf, hnts, hfNum, hblock]
  refine ⟨.modCh i ⟨fun _ _ hv => ?_⟩, ?_⟩
  · cases hv with
    | ksv => exact .inl e
    | _ => exact .inr ⟨rfl, rfl⟩
  · unfold updateKsv
    rw [ch_modCh_same, ch_modCh_same]
    exact e

theorem freqFollow_inStep (i : Fin 18) (withBlock : Bool) (hreg : c.reg = d.reg) (htype : (c.ch i).chtype = (d.ch i).chtype)
    (hfNum : (c.ch i).fNum = (d.ch i).fNum) (hblock : (c.ch i).block = (d.ch i).block)
    (hblockp : withBlock = false → (c.ch (pairOf i)).block = (d.ch (pairOf i)).block) :
    InStep Element c d (freqFollow i withBlock c) (freqFollow i withBlock d) := by
  obtain ⟨h, hksv⟩ := updateKsv_inStep i (congrArg GlobalRegs.nts hreg) hfNum hblock
  replace h := h.trans (updateKsl_both_inStep i (h.fNum hfNum) (h.agree (.ch i .block) hblock))
  rw [freqFollow_eq, freqFollow_eq]
  dsimp only
  refine h.trans ?_
  replace hksv : ((updateKsl (slot1 i) (updateKsl (slot0 i) (updateKsv i c))).ch i).ksv
    = ((updateKsl (slot1 i) (updateKsl (slot0 i) (updateKsv i d))).ch i).ksv := hksv
  generalize updateKsl (slot1 i) (updateKsl (slot0 i) (updateKsv i c)) = x at *
  generalize updateKsl (slot1 i) (updateKsl (slot0 i) (updateKsv i d)) = y at *
  rw [h.agree (.reg .newm) (congrArg GlobalRegs.newm hreg), h.agree (.ch i .chtype) htype]
  split
  · have hcopy : InStep Element x y (copyFreq (pairOf i) withBlock (x.ch i) x) (copyFreq (pairOf i) withBlock (y.ch i) y) :=
      copyFreq_inStep _ _ (h.fNum hfNum) (h.agree (.ch i .block) hblock) hksv
    refine hcopy.trans (updateKsl_both_inStep _ ?_ ?_)
    · unfold copyFreq
      rw [ch_modCh_same, ch_modCh_same]
      exact h.fNum hfNum
    · cases withBlock with
      | false => exact hcopy.agree (.ch _ .block) (h.agree (.ch _ .block) (hblockp rfl))
      | true =>
        unfold copyFreq
        rw [ch_modCh_same, ch_modCh_same]
        exact h.agree (.ch i .block) hblock
  · exact .refl x y

theorem keySet_inStep (i : Fin 18) (v : Bool) (hnewm : c.reg.newm = d.reg.newm) (htype : (c.ch i).chtype = (d.ch i).chtype) :
    InStep Element c d (keySet i v c) (keySet i v d) := by
  have two (c d : Chip) (j : Fin 18) : InStep Element c d
      ((c.modOp (slot0 j) (setNormalKey v)).modOp (slot1 j) (setNormalKey v))
      ((d.modOp (slot0 j) (setNormalKey v)).modOp (slot1 j) (setNormalKey v)) :=
    (setNormalKey_inStep ..).trans (setNormalKey_inStep ..)
  unfold keySet
  dsimp only
  rw [hnewm, htype]
  split
  · cases (d.ch i).chtype with
    | t4opA => exact (two ..).trans (two ..)
    | t4opB => exact .refl c d
    | _ => exact two ..
  · exact two ..

/-! ### The two halves of F_NUM (30_encoding.md R71, R72) -/

/-- What WR_CHA0 writes: the low half. -/
def setFreqLow (b : Byte) (ch : Channel) : Channel := { ch with fNum := (ch.fNum &&& 0x300) ||| b.setWidth 10 }

/-- What WR_CHB0 writes: the high half and the block. -/
def setFreqHigh (b : Byte) (ch : Channel) : Channel :=
  { ch with
    fNum := (ch.fNum &&& 0x0FF) ||| ((b.extractLsb' 0 2).setWidth 10 <<< 8)
    block := b.extractLsb' 2 3 }

theorem wrCha0_eq (i : Fin 18) (b : Byte) (c : Chip) :
    wrCha0 i b c = if freqLocked i c then c else freqFollow i false (c.modCh i (setFreqLow b)) := rfl

theorem wrChb0_eq (i : Fin 18) (b : Byte) (c : Chip) : wrChb0 i b c =
    keySet i (b.getLsbD 5) (if freqLocked i c then c else freqFollow i true (c.modCh i (setFreqHigh b))) := rfl

theorem setFreqLow_low (b : Byte) (ch : Channel) : (setFreqLow b ch).fNum.extractLsb' 0 8 = b := by
  ext k hk
  simp only [setFreqLow, BitVec.getElem_extractLsb', BitVec.getLsbD_or, BitVec.getLsbD_and, BitVec.getLsbD_setWidth]
  interval_cases k <;> simp

theorem setFreqLow_high (b : Byte) (ch : Channel) : (setFreqLow b ch).fNum.extractLsb' 8 2 = ch.fNum.extractLsb' 8 2 := by
  ext k hk
  simp only [setFreqLow, BitVec.getElem_extractLsb', BitVec.getLsbD_or, BitVec.getLsbD_and, BitVec.getLsbD_setWidth]
  interval_cases k <;> simp

theorem setFreqHigh_low (b : Byte) (ch : Channel) : (setFreqHigh b ch).fNum.extractLsb' 0 8 = ch.fNum.extractLsb' 0 8 := by
  ext k hk
  simp only [setFreqHigh, BitVec.getElem_extractLsb', BitVec.getLsbD_or, BitVec.getLsbD_and, BitVec.getLsbD_shiftLeft]
  interval_cases k <;> simp

theorem setFreqHigh_high (b : Byte) (ch : Channel) : (setFreqHigh b ch).fNum.extractLsb' 8 2 = b.extractLsb' 0 2 := by
  ext k hk
  simp only [setFreqHigh, BitVec.getElem_extractLsb', BitVec.getLsbD_or, BitVec.getLsbD_and, BitVec.getLsbD_shiftLeft,
    BitVec.getLsbD_setWidth]
  interval_cases k <;> simp

theorem setFreqLow_inStep (i : Fin 18) (b : Byte) :
    InStep Element c d (c.modCh i (setFreqLow b)) (d.modCh i (setFreqLow b)) := .modCh i ⟨fun _ _ hv => by
  cases hv with
  | fNumLow => exact .inl ((setFreqLow_low ..).trans (setFreqLow_low ..).symm)
  | fNumHigh => exact .inr ⟨setFreqLow_high .., setFreqLow_high ..⟩
  | _ => exact .inr ⟨rfl, rfl⟩⟩

theorem setFreqHigh_inStep (i : Fin 18) (b : Byte) :
    InStep Element c d (c.modCh i (setFreqHigh b)) (d.modCh i (setFreqHigh b)) := .modCh i ⟨fun _ _ hv => by
  cases hv with
  | fNumLow => exact .inr ⟨setFreqHigh_low .., setFreqHigh_low ..⟩
  | fNumHigh => exact .inl ((setFreqHigh_high ..).trans (setFreqHigh_high ..).symm)
  | block => exact .inl rfl
  | _ => exact .inr ⟨rfl, rfl⟩⟩

theorem freqLocked_congr {i : Fin 18} (hreg : c.reg = d.reg) (htype : (c.ch i).chtype = (d.ch i).chtype) :
    freqLocked i c = freqLocked i d := by simp only [freqLocked, hreg, htype]

theorem wrCha0_inStep (i : Fin 18) (b : Byte) (hreg : c.reg = d.reg) (htype : (c.ch i).chtype = (d.ch i).chtype)
    (hhigh : freqLocked i c = false → (c.ch i).fNum.extractLsb' 8 2 = (d.ch i).fNum.extractLsb' 8 2)
    (hblock : freqLocked i c = false → ∀ j, (c.ch j).block = (d.ch j).block) :
    InStep Element c d (wrCha0 i b c) (wrCha0 i b d) := by
  rw [wrCha0_eq, wrCha0_eq, ← freqLocked_congr hreg htype]
  cases hl : freqLocked i c with
  | true => exact .refl c d
  | false =>
    have h : InStep Element c d (c.modCh i (setFreqLow b)) (d.modCh i (setFreqLow b)) := setFreqLow_inStep ..
    have hfNum : ((c.modCh i (setFreqLow b)).ch i).fNum = ((d.modCh i (setFreqLow b)).ch i).fNum := by
      rw [ch_modCh_same, ch_modCh_same]
      exact fNum_eq (by rw [setFreqLow_low, setFreqLow_low]) (by rw [setFreqLow_high, setFreqLow_high, hhigh hl])
    exact h.trans (freqFollow_inStep i false hreg (h.agree (.ch i .chtype) htype) hfNum
      (h.agree (.ch i .block) (hblock hl i)) fun _ => h.agree (.ch _ .block) (hblock hl _))

theorem wrChb0_inStep (i : Fin 18) (b : Byte) (hreg : c.reg = d.reg) (htype : (c.ch i).chtype = (d.ch i).chtype)
    (hlow : freqLocked i c = false → (c.ch i).fNum.extractLsb' 0 8 = (d.ch i).fNum.extractLsb' 0 8) :
    InStep Element c d (wrChb0 i b c) (wrChb0 i b d) := by
  have keys {x y : Chip} (h : InStep Element c d x y) :
      InStep Element c d (keySet i (b.getLsbD 5) x) (keySet i (b.getLsbD 5) y) :=
    h.trans (keySet_inStep i _ (h.agree (.reg .newm) (congrArg GlobalRegs.newm hreg)) (h.agree (.ch i .chtype) htype))
  rw [wrChb0_eq, wrChb0_eq, ← freqLocked_congr hreg htype]
  apply keys
  cases hl : freqLocked i c with
  | true => exact .refl c d
  | false =>
    have h : InStep Element c d (c.modCh i (setFreqHigh b)) (d.modCh i (setFreqHigh b)) := setFreqHigh_inStep ..
    have hfNum : ((c.modCh i (setFreqHigh b)).ch i).fNum = ((d.modCh i (setFreqHigh b)).ch i).fNum := by
      rw [ch_modCh_same, ch_modCh_same]
      exact fNum_eq (by rw [setFreqHigh_low, setFreqHigh_low, hlow hl]) (by rw [setFreqHigh_high, setFreqHigh_high])
    have hblock : ((c.modCh i (setFreqHigh b)).ch i).block = ((d.modCh i (setFreqHigh b)).ch i).block := by
      rw [ch_modCh_same, ch_modCh_same]
      rfl
    exact h.trans (freqFollow_inStep i true hreg (h.agree (.ch i .chtype) htype) hfNum hblock nofun)

end
end Sys2Proof.Machine
end

section
/-! The same register write twice (20_memory.md R47). A write changes nothing its procedure reads before writing it, so its
runs on a block and on what it made of that block are in step. -/

namespace Sys2Proof.Machine

/-- The global registers and what `g` sees of the channels are the same. -/
abbrev KeepsCh {α : Type} (g : Channel → α) : Chip → Chip → Prop := Keeps (fun _ : Operator => ()) g

section
variable {α β γ : Type} {gO : Operator → α} {gC : Channel → β} {g : Channel → γ} {c c' : Chip}

theorem Keeps.onCh (h : Keeps gO gC c c') (hg : ∀ a b, gC a = gC b → g a = g b) : KeepsCh g c c' :=
  h.mono (fun _ _ _ => rfl) hg

end

theorem foldl_keepsCh {α ι : Type} {g : Channel → α} {f : Chip → ι → Chip} (hf : ∀ c k, KeepsCh g c (f c k))
    (l : List ι) (c : Chip) : KeepsCh g c (l.foldl f c) := by
  induction l generalizing c with
  | nil => exact Keeps.refl c
  | cons k l ih => exact (hf c k).trans (ih _)

/-! ### Writes to one operator or one channel -/

theorem modOp_idempotent (c : Chip) (o : Fin 36) {f : Operator → Operator} (h : ∀ op, f (f op) = f op) :
    (c.modOp o f).modOp o f = c.modOp o f := by
  unfold Chip.modOp
  rw [op_setOp_same, h]
  simp only [Chip.setOp, Vector.set_set]

theorem modCh_idempotent (c : Chip) (i : Fin 18) {f : Channel → Channel} (h : ∀ ch, f (f ch) = f ch) :
    (c.modCh i f).modCh i f = c.modCh i f := by
  unfold Chip.modCh
  rw [ch_setCh_same, h]
  simp only [Chip.setCh, Vector.set_set]

theorem wrOp40_eq (o : Fin 36) (b : Byte) (c : Chip) : wrOp40 o b c = c.modOp o fun op =>
    { op with regKsl := b.extractLsb' 6 2, regTl := b.extractLsb' 0 6, egKsl := kslOf (c.ch (chanOf o)) } := by
  unfold wrOp40 updateKsl
  unfold Chip.modOp
  rw [op_setOp_same]
  simp only [Chip.setOp, Vector.set_set]
  rfl

theorem wrOp40_idempotent (o : Fin 36) (b : Byte) (c : Chip) : wrOp40 o b (wrOp40 o b c) = wrOp40 o b c := by
  rw [wrOp40_eq, wrOp40_eq]
  exact modOp_idempotent c o fun _ => rfl

theorem wrChd0_idempotent (i : Fin 18) (b : Byte) (c : Chip) : wrChd0 i b (wrChd0 i b c) = wrChd0 i b c := by
  by_cases h : c.reg.stereoext = true
  · simp only [wrChd0, h, if_true, modCh_reg]
    exact modCh_idempotent c i fun _ => rfl
  · simp only [wrChd0, h, if_false, Bool.false_eq_true]

/-! ### Writes that rewire -/

theorem setChtype_keeps {α : Type} {g : Channel → α} (i : Fin 18) (t : ChType) (c : Chip)
    (hg : ∀ ch, g { ch with chtype := t } = g ch) : KeepsCh g c (setChtype i t c) := Keeps.modCh i _ hg

theorem wr4opPair_con (b : Byte) (c : Chip) (k : Nat) : KeepsCh Channel.con c (wr4opPair b c k) := by
  have type (i : Fin 18) (t : ChType) (c : Chip) : KeepsCh Channel.con c (setChtype i t c) :=
    setChtype_keeps i t c fun _ => rfl
  have route (i : Fin 18) (c : Chip) : KeepsCh Channel.con c (updateAlg i c) :=
    (updateAlg_frame i c).onCh fun _ _ h => (congrArg Channel.con h :)
  unfold wr4opPair
  dsimp only
  split
  · exact (type ..).trans ((type ..).trans (route ..))
  · exact (type ..).trans ((type ..).trans ((route ..).trans (route ..)))

theorem wr4op_conAgree (b : Byte) (c : Chip) : ConAgree c (wr4op b c) := by
  have h : KeepsCh Channel.con { c with reg := { c.reg with fourop := b.extractLsb' 0 6 } } (wr4op b c) :=
    foldl_keepsCh (wr4opPair_con b) _ _
  exact ⟨(congrArg GlobalRegs.newm h.reg).symm, fun i => (h.ch i).symm⟩

theorem wr4op_idempotent (b : Byte) (c : Chip) : wr4op b (wr4op b c) = wr4op b c :=
  (wr4op_inStep b (wr4op_conAgree b c)).idempotent

theorem setupAlg_alg (i : Fin 18) (c : Chip) : KeepsCh Channel.alg c (setupAlg i c) :=
  (setupAlg_frame i c).onCh fun _ _ h => (congrArg Channel.alg h :)

theorem setChtype_alg (i : Fin 18) (t : ChType) (c : Chip) : KeepsCh Channel.alg c (setChtype i t c) :=
  setChtype_keeps i t c fun _ => rfl

theorem setRhythmKey_alg (o : Fin 36) (v : Bool) (c : Chip) : KeepsCh Channel.alg c (c.modOp o (setRhythmKey v)) :=
  Keeps.modOp o _ fun _ => rfl

theorem undrum_alg (c : Chip) (i : Fin 18) : KeepsCh Channel.alg c (undrum c i) :=
  (setChtype_alg ..).trans <| (setupAlg_alg ..).trans <| (setRhythmKey_alg ..).trans (setRhythmKey_alg ..)

theorem rhythmReconfig_alg (p : Params) (b : Byte) (c : Chip) :
    KeepsCh Channel.alg { c with reg := { c.reg with rhy := b.extractLsb' 0 6 } } (rhythmReconfig p b c) := by
  unfold rhythmReconfig
  dsimp only
  split
  · iterate 6 refine Keeps.trans ?_ (setRhythmKey_alg ..)
    iterate 3 refine Keeps.trans ?_ (setupAlg_alg ..)
    iterate 3 refine Keeps.trans ?_ (setChtype_alg ..)
    exact (setRhythmTaps_frame ..).onCh fun _ _ h => (congrArg Channel.alg h :)
  · exact foldl_keepsCh undrum_alg _ _

theorem wrBd_alg (p : Params) (b : Byte) (c : Chip) (i : Fin 18) : ((wrBd p b c).ch i).alg = (c.ch i).alg :=
  (rhythmReconfig_alg p b _).ch i

theorem wrBd_idempotent (p : Params) (b : Byte) (c : Chip) : wrBd p b (wrBd p b c) = wrBd p b c :=
  (wrBd_inStep p b fun i => (wrBd_alg p b c i).symm).idempotent

theorem updateAlg_keeps (i : Fin 18) (c : Chip) : KeepsCh (fun ch => (ch.con, ch.chtype)) c (updateAlg i c) :=
  (updateAlg_frame i c).onCh fun _ _ h => (congrArg (fun ch : Channel => (ch.con, ch.chtype)) h :)

theorem setEnables_keeps (i : Fin 18) (b : Byte) (c : Chip) :
    KeepsCh (fun ch => (ch.con, ch.chtype)) c (setEnables i b c) := by
  unfold setEnables
  cases c.reg.newm
  all_goals exact Keeps.modCh i _ fun _ => by rfl

theorem setDirectPan_keeps (i : Fin 18) (c : Chip) : KeepsCh (fun ch => (ch.con, ch.chtype)) c (setDirectPan i c) := by
  unfold setDirectPan
  split
  · exact Keeps.refl c
  · exact Keeps.modCh i _ fun _ => by rfl

theorem wrChc0_keeps (i : Fin 18) (b : Byte) (c : Chip) :
    KeepsCh (fun ch => (ch.con, ch.chtype)) (setConnection i b c) (wrChc0 i b c) :=
  (updateAlg_keeps ..).trans ((setEnables_keeps ..).trans (setDirectPan_keeps ..))

theorem wrChc0_idempotent (i : Fin 18) (b : Byte) (c : Chip) : wrChc0 i b (wrChc0 i b c) = wrChc0 i b c := by
  have h := wrChc0_keeps i b c
  have hreg : (wrChc0 i b c).reg = c.reg := h.reg
  have htype (j : Fin 18) : ((wrChc0 i b c).ch j).chtype = (c.ch j).chtype :=
    (congrArg Prod.snd (h.ch j)).trans (ch_modCh_proj _ _ _ Channel.chtype _ fun _ => by rfl)
  have hcon (j : Fin 18) (hj : j ≠ i) : ((wrChc0 i b c).ch j).con = (c.ch j).con :=
    (congrArg Prod.fst (h.ch j)).trans (congrArg Channel.con (ch_modCh_ne _ _ _ _ hj.symm))
  exact (wrChc0_inStep i b hreg.symm (fun j => (htype j).symm) fun j hj => (hcon j hj).symm).idempotent

/-! ### Writes of the frequency -/

theorem updateKsv_ch (i : Fin 18) (c : Chip) (j : Fin 18) :
    ((updateKsv i c).ch j).fNum = (c.ch j).fNum ∧ ((updateKsv i c).ch j).block = (c.ch j).block :=
  ⟨ch_modCh_proj c i j Channel.fNum _ fun _ => by rfl, ch_modCh_proj c i j Channel.block _ fun _ => by rfl⟩

/-- The frequency procedure does not write the F_NUM it reads. -/
theorem freqFollow_fNum (i : Fin 18) (withBlock : Bool) (c : Chip) :
    ((freqFollow i withBlock c).ch i).fNum = (c.ch i).fNum := by
  have copy (p : Fin 18) (d : Chip) : ((copyFreq p withBlock (d.ch i) d).ch i).fNum = (d.ch i).fNum := by
    unfold copyFreq
    rw [ch_modCh]
    split <;> rfl
  rw [freqFollow_eq]
  dsimp only
  split
  · exact (copy ..).trans (updateKsv_ch i c i).1
  · exact (updateKsv_ch i c i).1

/-- Without its block argument the frequency procedure writes no block. -/
theorem freqFollow_block (i : Fin 18) (c : Chip) (j : Fin 18) : ((freqFollow i false c).ch j).block = (c.ch j).block := by
  have copy (p : Fin 18) (ch : Channel) (d : Chip) : ((copyFreq p false ch d).ch j).block = (d.ch j).block :=
    ch_modCh_proj d p j Channel.block _ fun _ => by rfl
  rw [freqFollow_eq]
  dsimp only
  split
  · exact (copy ..).trans (updateKsv_ch i c j).2
  · exact (updateKsv_ch i c j).2

theorem freqFollow_chtype (i : Fin 18) (withBlock : Bool) (c : Chip) : KeepsCh Channel.chtype c (freqFollow i withBlock c) :=
  (freqFollow_frame i withBlock c).onCh fun _ _ h => (congrArg Channel.chtype h :)

theorem wrCha0_chtype (i : Fin 18) (b : Byte) (c : Chip) : KeepsCh Channel.chtype c (wrCha0 i b c) := by
  rw [wrCha0_eq]
  split
  · exact Keeps.refl c
  · exact Keeps.trans (Keeps.modCh i (setFreqLow b) fun _ => rfl) (freqFollow_chtype ..)

theorem wrChb0_chtype (i : Fin 18) (b : Byte) (c : Chip) : KeepsCh Channel.chtype c (wrChb0 i b c) := by
  rw [wrChb0_eq]
  refine Keeps.trans ?_ ((keySet_frame ..).onCh fun _ _ h => (congrArg Channel.chtype h :))
  split
  · exact Keeps.refl c
  · exact Keeps.trans (Keeps.modCh i (setFreqHigh b) fun _ => rfl) (freqFollow_chtype ..)

theorem wrCha0_idempotent (i : Fin 18) (b : Byte) (c : Chip) : wrCha0 i b (wrCha0 i b c) = wrCha0 i b c := by
  have h := wrCha0_chtype i b c
  refine (wrCha0_inStep i b h.reg.symm (h.ch i).symm (fun hl => ?_) fun hl j => ?_).idempotent
  all_goals rw [wrCha0_eq, hl, if_neg Bool.false_ne_true]
  · rw [freqFollow_fNum, ch_modCh_same, setFreqLow_high]
  · rw [freqFollow_block]
    exact (ch_modCh_proj c i j Channel.block (setFreqLow b) fun _ => rfl).symm

theorem wrChb0_idempotent (i : Fin 18) (b : Byte) (c : Chip) : wrChb0 i b (wrChb0 i b c) = wrChb0 i b c := by
  have h := wrChb0_chtype i b c
  refine (wrChb0_inStep i b h.reg.symm (h.ch i).symm fun hl => ?_).idempotent
  have keys (v : Bool) (c : Chip) : (keySet i v c).ch i = c.ch i := (keySet_frame i v c).ch i
  rw [wrChb0_eq, keys, hl, if_neg Bool.false_ne_true, freqFollow_fNum, ch_modCh_same, setFreqHigh_low]

/-! ### Every write -/

theorem regWrite_idempotent (p : Params) (a : Addr) (b : Byte) (c : Chip) :
    regWrite p a b (regWrite p a b c) = regWrite p a b c := by
  unfold regWrite
  cases classify a with
  | nts => rfl
  | fourOp => exact wr4op_idempotent b c
  | mode => rfl
  | bd => exact wrBd_idempotent p b c
  | op20 o => exact modOp_idempotent c o fun _ => rfl
  | op40 o => exact wrOp40_idempotent o b c
  | op60 o => exact modOp_idempotent c o fun _ => rfl
  | op80 o => exact modOp_idempotent c o fun _ => rfl
  | ope0 o => exact modOp_idempotent c o fun _ => rfl
  | cha0 i => exact wrCha0_idempotent i b c
  | chb0 i => exact wrChb0_idempotent i b c
  | chc0 i => exact wrChc0_idempotent i b c
  | chd0 i => exact wrChd0_idempotent i b c
  | ign => rfl

/-- Settles O26: a write command runs `regWrite`, which is idempotent on every block. -/
theorem writesAreIdempotent : Obligations.WritesAreIdempotent := by
  intro i s t hi h
  obtain ⟨a, b, he⟩ := exec_of_isWrite hi
  obtain ⟨hr, rfl⟩ := onChip_eq_next_iff.mp ((he s).symm.trans h)
  rw [he, onChip_eq_next_iff]
  exact ⟨hr, by dsimp only; rw [regWrite_idempotent]⟩

end Sys2Proof.Machine
end

section
/-! The command word (30_encoding.md R60 to R65): the layouts a decoded word can have, the words that are refused, and the round
trip both ways. -/

namespace Sys2Proof

/-! ### The layouts -/

/-- A word of format REG is put together from its fields. -/
theorem eq_regWord {w : Word} {k : BitVec 4} (hkind : w.extractLsb' 28 4 = k) (hzero : w.extractLsb' 17 11 = 0) :
    w = regWord k (w.extractLsb' 8 9) (w.extractLsb' 0 8) := by
  unfold regWord
  rw [← hkind, ← hzero, BitVec.extractLsb'_append_extractLsb'_eq_extractLsb' (by rfl),
    BitVec.extractLsb'_append_extractLsb'_eq_extractLsb' (by rfl)]
  exact (BitVec.extractLsb'_append_extractLsb' (w := 24) (len := 8)).symm

theorem eq_kind_append {w : Word} {k : BitVec 4} (hkind : w.extractLsb' 28 4 = k) : w = k ++ w.extractLsb' 0 28 := by
  rw [← hkind]
  exact (BitVec.extractLsb'_append_extractLsb' (w := 4) (len := 28)).symm

/-- The command `i` is spelled by the word `w`, by the format and the kind of `w` (R60, R61). -/
inductive Layout (w : Word) : Instr → Prop where
  | wr (a : Addr) (d : Byte) (h : w = regWord 0 a d) : Layout w (decodeWrite a d)
  | wrb (a : Addr) (d : Byte) (h : w = regWord 1 a d) : Layout w (.wrb a d)
  | tick (h : w = encode .tick) : Layout w .tick
  | tickr (h : w = encode .tickr) : Layout w .tickr
  | reset (rate : BitVec 22) (h : w = encode (.reset rate)) : Layout w (.reset rate)
  | stream (n : BitVec 28) (h : w = encode (.stream n)) : Layout w (.stream n)

/-- A word that decodes has the layout of its kind. -/
theorem layout_of_decode {w : Word} {i : Instr} (h : decode w = .ok i) : Layout w i := by
  unfold decode at h
  dsimp only at h
  split_ifs at h with hk hz hk hz hk hz hk hz hk hz hk <;> cases h
  · exact .wr _ _ (eq_regWord hk hz)
  · exact .wrb _ _ (eq_regWord hk hz)
  · exact .tick (by rw [eq_kind_append hk, hz]; rfl)
  · exact .tickr (by rw [eq_kind_append hk, hz]; rfl)
  · refine .reset _ ?_
    unfold encode
    rw [← hk, ← hz, BitVec.extractLsb'_append_extractLsb'_eq_extractLsb' (by rfl)]
    exact (BitVec.extractLsb'_append_extractLsb' (w := 10) (len := 22)).symm
  · exact .stream _ (eq_kind_append hk)

/-! ### From the command to its word and back -/

/-- Settles O1: each command is decoded by the rule of its layout. -/
theorem decodeOfEncode : Obligations.DecodeOfEncode := by
  intro i
  cases i with
  | wrNts d => exact Laws.RoundTrip.wrNts d
  | wr4op d => exact Laws.RoundTrip.wr4op d
  | wrMode d => exact Laws.RoundTrip.wrMode d
  | wrBd d => exact Laws.RoundTrip.wrBd d
  | wrOp20 o d => exact Laws.RoundTrip.wrOp20 o d
  | wrOp40 o d => exact Laws.RoundTrip.wrOp40 o d
  | wrOp60 o d => exact Laws.RoundTrip.wrOp60 o d
  | wrOp80 o d => exact Laws.RoundTrip.wrOp80 o d
  | wrOpe0 o d => exact Laws.RoundTrip.wrOpe0 o d
  | wrCha0 c d => exact Laws.RoundTrip.wrCha0 c d
  | wrChb0 c d => exact Laws.RoundTrip.wrChb0 c d
  | wrChc0 c d => exact Laws.RoundTrip.wrChc0 c d
  | wrChd0 c d => exact Laws.RoundTrip.wrChd0 c d
  | wrIgn a d => exact Laws.RoundTrip.wrIgn a d
  | wrb a d => exact Laws.RoundTrip.wrb a d
  | tick => exact Laws.RoundTrip.tick
  | tickr => exact Laws.RoundTrip.tickr
  | reset rate => exact Laws.RoundTrip.reset rate
  | stream n => exact Laws.RoundTrip.stream n

/-- The address the encoder writes for a class; `a` stands for the class IGN, which is of no one address. -/
def RegClass.addr (a : Addr) : RegClass → Addr
  | .nts => 0x008
  | .fourOp => 0x104
  | .mode => 0x105
  | .bd => 0x0BD
  | .op20 o => operatorAddr 0x20 o
  | .op40 o => operatorAddr 0x40 o
  | .op60 o => operatorAddr 0x60 o
  | .op80 o => operatorAddr 0x80 o
  | .ope0 o => operatorAddr 0xE0 o
  | .cha0 c => channelAddr 0xA0 c
  | .chb0 c => channelAddr 0xB0 c
  | .chc0 c => channelAddr 0xC0 c
  | .chd0 c => channelAddr 0xD0 c
  | .ign => a

/-- The class with its operator or channel determines the address (R62 to R65): none has two. -/
theorem addr_classify (a : Addr) : (classify a).addr a = a := by
  have all : ∀ a : Fin 512, (classify (BitVec.ofFin a)).addr (BitVec.ofFin a) = BitVec.ofFin a := by decide +kernel
  exact all a.toFin

theorem encode_decodeWrite (a : Addr) (d : Byte) : encode (decodeWrite a d) = regWord 0 a d := by
  have hword : encode (decodeWrite a d) = regWord 0 ((classify a).addr a) d := by
    unfold decodeWrite
    cases classify a <;> rfl
  rw [hword, addr_classify]

theorem decodeWrite_wf (a : Addr) (d : Byte) : (decodeWrite a d).wf = true := by
  unfold decodeWrite
  cases h : classify a with
  | ign => exact congrArg (! ·) (unmapped_of_classify_ign a h)
  | _ => rfl

/-- Settles O2: each layout is the encoder's, for `WR` because a class has no second address. -/
theorem encodeOfDecode : Obligations.EncodeOfDecode := by
  intro w i hdecode
  cases layout_of_decode hdecode with
  | wr a d h => exact ⟨decodeWrite_wf a d, (encode_decodeWrite a d).trans h.symm⟩
  | wrb a d h => exact ⟨rfl, h.symm⟩
  | tick h => exact ⟨rfl, h.symm⟩
  | tickr h => exact ⟨rfl, h.symm⟩
  | reset rate h => exact ⟨rfl, h.symm⟩
  | stream n h => exact ⟨rfl, h.symm⟩

/-- Settles O3: each word is what the encoder writes for its command. -/
theorem sampleWords : Obligations.SampleWords :=
  ⟨decodeOfEncode (.wrNts 0x40) rfl, decodeOfEncode (.wr4op 0x01) rfl, decodeOfEncode (.wrMode 0x03) rfl,
    decodeOfEncode (.wrBd 0xC0) rfl, decodeOfEncode (.wrOp20 35 0x21) rfl, decodeOfEncode (.wrOp40 3 0x3F) rfl,
    decodeOfEncode (.wrChb0 0 0x32) rfl, decodeOfEncode (.wrChd0 17 0x00) rfl, decodeOfEncode (.wrIgn 0x1BD 0xFF) rfl,
    decodeOfEncode (.wrb 0x020 0x01) rfl, decodeOfEncode .tick rfl, decodeOfEncode .tickr rfl,
    decodeOfEncode (.reset 49716) rfl, decodeOfEncode (.stream 128) rfl⟩

/-! ### The words that are no command -/

theorem kind_cases (k : BitVec 4) : 6 ≤ k.toNat ∨ k = 0 ∨ k = 1 ∨ k = 2 ∨ k = 3 ∨ k = 4 ∨ k = 5 := by
  revert k
  decide

theorem decode_unknownKind {w : Word} (h : 6 ≤ (w.extractLsb' 28 4).toNat) :
    decode w = .error (.unknownKind (w.extractLsb' 28 4)) := by
  have other (n : Nat) (hn : n < 6) : w.extractLsb' 28 4 ≠ BitVec.ofNat 4 n := by
    intro hk
    rw [hk, BitVec.toNat_ofNat] at h
    omega
  simp [decode, other 0, other 1, other 2, other 3, other 4, other 5]

theorem exists_ite_eq_error_iff (p : Prop) [Decidable p] (i : Instr) (e : DecodeError) :
    (∃ e', (if p then Except.ok i else Except.error e) = .error e') ↔ ¬p := by
  split <;> simp_all

/-- Settles O4: below kind 6 a word is refused by the test of its must-be-zero bits alone, and kind 5 has none. -/
theorem refusedWords : Obligations.RefusedWords := by
  intro w
  obtain hlarge | hkind := kind_cases (w.extractLsb' 28 4)
  · exact iff_of_true ⟨_, decode_unknownKind hlarge⟩ (.inl hlarge)
  · obtain hk | hk | hk | hk | hk | hk := hkind
    all_goals simp [decode, hk, exists_ite_eq_error_iff]

end Sys2Proof
end

section
/-! The opcode table against the decoder (30_encoding.md R84). Every row tests the whole kind and the must-be-zero bits of its
kind; the bits it leaves untested decide nothing. -/

namespace Sys2Proof

/-- The mnemonics of the rows a word selects. -/
def selected (w : Word) : List String := (opcodeTable.filter (·.selects w)).map OpcodeRow.mnemonic

theorem field_of_selects {r : OpcodeRow} {w : Word} (h : r.selects w = true) (start len : Nat) :
    w.extractLsb' start len &&& r.mask.extractLsb' start len = r.pattern.extractLsb' start len := by
  rw [← BitVec.extractLsb'_and, eq_of_beq h]

/-- Every row tests the whole kind. -/
theorem kind_of_selects {r : OpcodeRow} {w : Word} (hr : r ∈ opcodeTable) (h : r.selects w = true) :
    w.extractLsb' 28 4 = r.pattern.extractLsb' 28 4 := by
  have tests : ∀ r ∈ opcodeTable, r.mask.extractLsb' 28 4 = BitVec.allOnes 4 := by decide +kernel
  rw [← field_of_selects h, tests r hr, BitVec.and_allOnes]

/-- Words that differ only in bits the row does not test select it alike. -/
theorem selects_congr {r : OpcodeRow} {n : Nat} {v w : Word} (hfree : r.mask.extractLsb' 0 n = 0)
    (hsame : ∀ j, n ≤ j → v.getLsbD j = w.getLsbD j) : r.selects v = r.selects w := by
  suffices hmasked : v &&& r.mask = w &&& r.mask by rw [OpcodeRow.selects, hmasked, OpcodeRow.selects]
  ext j hj
  by_cases hn : n ≤ j
  · simp [← BitVec.getLsbD_eq_getElem, hsame j hn]
  · have hbit : r.mask.getLsbD j = false := by
      simpa [BitVec.getLsbD_extractLsb', Nat.lt_of_not_le hn] using congrArg (BitVec.getLsbD · j) hfree
    simp [← BitVec.getLsbD_eq_getElem, hbit]

/-- Only the rows of the word's kind count: words of one kind that differ only in bits those rows do not test select the same
rows. -/
theorem selected_congr (n : Nat) {k : BitVec 4} {v w : Word} (hn : n ≤ 28) (hv : v.extractLsb' 28 4 = k)
    (hsame : ∀ j, n ≤ j → v.getLsbD j = w.getLsbD j)
    (hfree : ∀ r ∈ opcodeTable, r.pattern.extractLsb' 28 4 = k → r.mask.extractLsb' 0 n = 0) :
    selected w = selected v := by
  have hw : w.extractLsb' 28 4 = k := by
    rw [← hv]
    ext j hj
    simp [hsame (28 + j) (by omega)]
  unfold selected
  congr 1
  refine List.filter_congr fun r hr => ?_
  by_cases hk : r.pattern.extractLsb' 28 4 = k
  · exact (selects_congr (hfree r hr hk) hsame).symm
  · have notSelected {u : Word} (hu : u.extractLsb' 28 4 = k) : r.selects u = false :=
      Bool.eq_false_iff.mpr fun h => hk ((kind_of_selects hr h).symm.trans hu)
    rw [notSelected hv, notSelected hw]

theorem getLsbD_append_congr {m n : Nat} (x : BitVec m) (y z : BitVec n) (j : Nat) (h : n ≤ j) :
    (x ++ y).getLsbD j = (x ++ z).getLsbD j := by
  simp [BitVec.getLsbD_append, Nat.not_lt.mpr h]

theorem mnemonic_decodeWrite (a : Addr) (d d' : Byte) : mnemonic (decodeWrite a d) = mnemonic (decodeWrite a d') := by
  unfold decodeWrite
  cases classify a <;> rfl

/-- No row of a `WR` tests the data, so one word per address decides. -/
theorem selected_wr (a : Addr) (d : Byte) : selected (regWord 0 a d) = [mnemonic (decodeWrite a d)] := by
  have all : ∀ a : Fin 512, selected (regWord 0 (BitVec.ofFin a) 0) = [mnemonic (decodeWrite (BitVec.ofFin a) 0)] := by
    decide +kernel
  calc selected (regWord 0 a d)
    _ = selected (regWord 0 a 0) :=
      selected_congr 8 (by decide) (regWord_fields 0 a 0).1 (getLsbD_append_congr _ 0 d) (by decide +kernel)
    _ = [mnemonic (decodeWrite a 0)] := all a.toFin
    _ = [mnemonic (decodeWrite a d)] := by rw [mnemonic_decodeWrite a 0 d]

/-- The row of `WRB` tests neither the address nor the data. -/
theorem selected_wrb (a : Addr) (d : Byte) : selected (regWord 1 a d) = ["WRB"] := by
  have hsame (j : Nat) (hj : 17 ≤ j) : (regWord 1 0 0).getLsbD j = (regWord 1 a d).getLsbD j := by
    simp only [regWord, BitVec.getLsbD_append, show ¬j < 8 by omega, show ¬j - 8 < 9 by omega, if_false]
  rw [selected_congr 17 (by decide) (regWord_fields 1 0 0).1 hsame (by decide +kernel)]
  decide +kernel

theorem selected_reset (rate : BitVec 22) : selected (encode (.reset rate)) = ["RESET"] := by
  have h : selected (encode (.reset rate)) = selected (encode (.reset 0)) :=
    selected_congr 22 (by decide) rfl (getLsbD_append_congr _ 0 rate) (by decide +kernel)
  rw [h]
  decide +kernel

theorem selected_stream (n : BitVec 28) : selected (encode (.stream n)) = ["STREAM"] := by
  have h : selected (encode (.stream n)) = selected (encode (.stream 0)) :=
    selected_congr 28 (by decide) rfl (getLsbD_append_congr _ 0 n) (by decide +kernel)
  rw [h]
  decide +kernel

theorem selected_of_layout {w : Word} {i : Instr} (h : Layout w i) : selected w = [mnemonic i] := by
  cases h with
  | wr a d h => rw [h, selected_wr]
  | wrb a d h => exact h ▸ selected_wrb a d
  | tick h => rw [h]; decide +kernel
  | tickr h => rw [h]; decide +kernel
  | reset rate h => exact h ▸ selected_reset rate
  | stream n h => exact h ▸ selected_stream n

/-- The kind and the must-be-zero bits R60 allows no command: what `refusedWords` gives for a refused word. -/
def Refused (w : Word) : Prop :=
  6 ≤ (w.extractLsb' 28 4).toNat
    ∨ ((w.extractLsb' 28 4).toNat ≤ 1 ∧ w.extractLsb' 17 11 ≠ 0)
    ∨ (((w.extractLsb' 28 4).toNat = 2 ∨ (w.extractLsb' 28 4).toNat = 3) ∧ w.extractLsb' 0 28 ≠ 0)
    ∨ ((w.extractLsb' 28 4).toNat = 4 ∧ w.extractLsb' 22 6 ≠ 0)

/-- The row tests the bits `[start, start + len)` for 0. -/
def OpcodeRow.TestsZero (r : OpcodeRow) (start len : Nat) : Prop :=
  r.mask.extractLsb' start len = BitVec.allOnes len ∧ r.pattern.extractLsb' start len = 0

theorem zero_of_testsZero {r : OpcodeRow} {w : Word} {start len : Nat} (hzero : r.TestsZero start len)
    (h : r.selects w = true) : w.extractLsb' start len = 0 := by
  obtain ⟨hmask, hpattern⟩ := hzero
  rw [← hpattern, ← field_of_selects h, hmask, BitVec.and_allOnes]

/-- Each row is of a known kind and tests the must-be-zero bits of its kind. -/
theorem row_tests {r : OpcodeRow} (hr : r ∈ opcodeTable) :
    (r.pattern.extractLsb' 28 4).toNat < 6
      ∧ ((r.pattern.extractLsb' 28 4).toNat ≤ 1 → r.TestsZero 17 11)
      ∧ ((r.pattern.extractLsb' 28 4).toNat = 2 ∨ (r.pattern.extractLsb' 28 4).toNat = 3 → r.TestsZero 0 28)
      ∧ ((r.pattern.extractLsb' 28 4).toNat = 4 → r.TestsZero 22 6) := by
  revert r
  unfold OpcodeRow.TestsZero
  decide +kernel

theorem not_refused_of_selects {r : OpcodeRow} {w : Word} (hr : r ∈ opcodeTable) (h : r.selects w = true) : ¬Refused w := by
  obtain ⟨hkind, hreg, htick, hreset⟩ := row_tests hr
  unfold Refused
  rw [kind_of_selects hr h]
  rintro (hk | ⟨hk, hne⟩ | ⟨hk, hne⟩ | ⟨hk, hne⟩)
  · omega
  · exact hne (zero_of_testsZero (hreg hk) h)
  · exact hne (zero_of_testsZero (htick hk) h)
  · exact hne (zero_of_testsZero (hreset hk) h)

/-- Settles O6: a row tests the kind and its must-be-zero bits, so it selects no refused word; what it leaves untested decides
nothing, so one word per address and per other kind decides for the commands. -/
theorem opcodeTableRows : Obligations.OpcodeTableRows := by
  intro w
  cases hdecode : decode w with
  | ok i => exact List.map_eq_singleton_iff.mp (selected_of_layout (layout_of_decode hdecode))
  | error e =>
    have hrefused : Refused w := (refusedWords w).mp ⟨e, hdecode⟩
    exact List.filter_eq_nil_iff.mpr fun r hr h => not_refused_of_selects hr h hrefused

end Sys2Proof
end

section
/-! What the router installs and what it leaves alone (44_router.md R176 to R183), for a channel of each type. -/

namespace Sys2Proof.Machine

/-! ### Frames by channel -/

/-- The channels `P` and their operators are the same. -/
structure SameVoices (P : Fin 18 → Prop) (c d : Chip) : Prop where
  op : ∀ o, P (chanOf o) → d.op o = c.op o
  ch : ∀ i, P i → d.ch i = c.ch i

section
variable {P Q : Fin 18 → Prop} {c d e : Chip}

theorem SameVoices.refl (c : Chip) : SameVoices P c c := ⟨fun _ _ => rfl, fun _ _ => rfl⟩

theorem SameVoices.trans (h : SameVoices P c d) (h' : SameVoices P d e) : SameVoices P c e :=
  ⟨fun o ho => (h'.op o ho).trans (h.op o ho), fun i hi => (h'.ch i hi).trans (h.ch i hi)⟩

theorem SameVoices.mono (h : SameVoices P c d) (hQ : ∀ i, Q i → P i) : SameVoices Q c d :=
  ⟨fun o ho => h.op o (hQ _ ho), fun i hi => h.ch i (hQ i hi)⟩

theorem SameVoices.modCh (i : Fin 18) (f : Channel → Channel) (hP : ¬P i) : SameVoices P c (c.modCh i f) :=
  ⟨fun _ _ => rfl, fun _ hj => ch_modCh_ne _ _ _ _ fun e => hP (e ▸ hj)⟩

theorem SameVoices.modOp (o : Fin 36) (f : Operator → Operator) (hP : ¬P (chanOf o)) : SameVoices P c (c.modOp o f) :=
  ⟨fun _ ho => op_modOp_ne _ _ _ _ fun e => hP (e ▸ ho), fun _ _ => rfl⟩

end

theorem pairOf_pairOf (i : Fin 18) : pairOf (pairOf i) = i := by
  revert i
  decide

/-- Both operators of a channel rewritten the same way. -/
theorem op_modOp_both (c : Chip) (i : Fin 18) (f : Operator → Operator) (o : Fin 36) :
    ((c.modOp (slot0 i) f).modOp (slot1 i) f).op o = if chanOf o = i then f (c.op o) else c.op o := by
  have ne := slot0_ne_slot1 i
  split
  · next h =>
    rcases (chanOf_eq_iff o i).mp h with rfl | rfl
    · simp [op_modOp, ne.symm]
    · simp [op_modOp, ne]
  · next h =>
    rw [chanOf_eq_iff, not_or] at h
    simp [op_modOp, Ne.symm h.1, Ne.symm h.2]

/-- Two-operator wiring is a matter of the sources of the channel's operators and its taps. -/
theorem Chip.TwoOpWired.of_sources {c d : Chip} {i : Fin 18} {con : Bool} (h : c.TwoOpWired i con)
    (hop : ∀ o, chanOf o = i → (d.op o).modsrc = (c.op o).modsrc) (htap : (d.ch i).tap = (c.ch i).tap) :
    d.TwoOpWired i con where
  first := (hop _ (chanOf_slot0 i)).trans h.first
  second := (hop _ (chanOf_slot1 i)).trans h.second
  taps := htap.trans h.taps

theorem Chip.TwoOpWired.of_sameVoices {c d : Chip} {i : Fin 18} {con : Bool} (h : c.TwoOpWired i con)
    (hs : SameVoices (· = i) c d) : d.TwoOpWired i con :=
  h.of_sources (fun o ho => congrArg Operator.modsrc (hs.op o ho)) (congrArg Channel.tap (hs.ch i rfl))

/-- Four-operator wiring is a matter of the sources of the pair's operators and of its taps. -/
theorem Chip.FourOpWired.of_sources {c d : Chip} {b : Fin 18} {conA conB : Bool} (h : c.FourOpWired b conA conB)
    (hop : ∀ o, chanOf o = b ∨ chanOf o = pairOf b → (d.op o).modsrc = (c.op o).modsrc)
    (htap : ∀ i, i = b ∨ i = pairOf b → (d.ch i).tap = (c.ch i).tap) : d.FourOpWired b conA conB where
  p0 := (hop _ (.inr (chanOf_slot0 _))).trans h.p0
  p1 := (hop _ (.inr (chanOf_slot1 _))).trans h.p1
  s0 := (hop _ (.inl (chanOf_slot0 b))).trans h.s0
  s1 := (hop _ (.inl (chanOf_slot1 b))).trans h.s1
  tapsB := (htap _ (.inl rfl)).trans h.tapsB
  tapsA := (htap _ (.inr rfl)).trans h.tapsA

theorem Chip.FourOpWired.of_sameVoices {c d : Chip} {b : Fin 18} {conA conB : Bool} (h : c.FourOpWired b conA conB)
    (hs : SameVoices (fun j => j = b ∨ j = pairOf b) c d) : d.FourOpWired b conA conB :=
  h.of_sources (fun o ho => congrArg Operator.modsrc (hs.op o ho)) fun i hi => congrArg Channel.tap (hs.ch i hi)

/-! ### `SetupAlg` (44_router.md R177 to R183) -/

section
variable {c : Chip} {i : Fin 18}

theorem wireTwo_outside (b : Bool) : SameVoices (· ≠ i) c (wireTwo i b c) :=
  ⟨(wireTwo_spec c i b).2.1, (wireTwo_spec c i b).2.2⟩

/-- The drum branch writes the two modulation sources of its channel and nothing else: silence, or those of a serial pair. -/
theorem wireDrum_eq_setModsrc (i : Fin 18) (c : Chip) :
    ∃ x y, wireDrum i c = setModsrc (slot1 i) y (setModsrc (slot0 i) x c) ∧ (x = .zero ∨ x = .fb (slot0 i))
      ∧ (y = .zero ∨ y = .out (slot0 i)) := by
  unfold wireDrum
  dsimp only
  split
  · exact ⟨_, _, rfl, .inl rfl, .inl rfl⟩
  · rw [ch_setModsrc]
    cases (c.ch i).alg
    case two1 => exact ⟨_, _, rfl, .inr rfl, .inl rfl⟩
    case four5 => exact ⟨_, _, rfl, .inr rfl, .inl rfl⟩
    case four7 => exact ⟨_, _, rfl, .inr rfl, .inl rfl⟩
    all_goals exact ⟨_, _, rfl, .inr rfl, .inr rfl⟩

theorem wireDrum_ch (i j : Fin 18) (c : Chip) : (wireDrum i c).ch j = c.ch j := by
  obtain ⟨x, y, h, -, -⟩ := wireDrum_eq_setModsrc i c
  rw [h, ch_setModsrc, ch_setModsrc]

theorem wireDrum_outside : SameVoices (· ≠ i) c (wireDrum i c) := by
  obtain ⟨x, y, h, -, -⟩ := wireDrum_eq_setModsrc i c
  rw [h]
  exact (SameVoices.modOp _ _ (not_not_intro (chanOf_slot0 i))).trans (.modOp _ _ (not_not_intro (chanOf_slot1 i)))

theorem wireDrum_drumSources (hi : i = 6 ∨ i = 7 ∨ i = 8) {con : Bool} (halg : i = 6 → (c.ch i).alg = twoOpAlg con) :
    (wireDrum i c).DrumSources i con := by
  have ne := slot0_ne_slot1 i
  unfold Chip.DrumSources wireDrum
  rcases hi with rfl | rfl | rfl
  · replace halg := halg rfl
    cases con
    all_goals
      simp only [twoOpAlg, Bool.false_eq_true, if_false, if_true] at halg
      simp [op_setModsrc, halg, show slot0 6 = 12 from rfl, show slot1 6 = 15 from rfl]
  · simp [op_setModsrc, ne.symm]
  · simp [op_setModsrc, ne.symm]

theorem setupAlg_of_drum (ht : (c.ch i).chtype = .tdrum) : setupAlg i c = wireDrum i c := if_pos ht

theorem setupAlg_of_twoOp (ht : (c.ch i).chtype ≠ .tdrum) {con : Bool} (halg : (c.ch i).alg = twoOpAlg con) :
    setupAlg i c = wireTwo i con c := by
  cases con
  all_goals
    simp only [twoOpAlg, Bool.false_eq_true, if_false, if_true] at halg
    simp only [setupAlg, ht, halg, if_false]

/-- A channel with a two-operator code is wired without its pair, whatever its type. -/
theorem setupAlg_twoOp_outside {con : Bool} (halg : (c.ch i).alg = twoOpAlg con) :
    SameVoices (· ≠ i) c (setupAlg i c) := by
  by_cases ht : (c.ch i).chtype = .tdrum
  · exact setupAlg_of_drum ht ▸ wireDrum_outside
  · exact setupAlg_of_twoOp ht halg ▸ wireTwo_outside con

/-- A 4OP-B channel with a merged code wires its pair (44_router.md R179 to R182). -/
theorem setupAlg_fourOpWired (ht : (c.ch i).chtype ≠ .tdrum) (hi : i.val % 9 < 6) {conA conB : Bool}
    (halg : (c.ch i).alg = mergedAlg conA conB) : (setupAlg i c).FourOpWired i conA conB := by
  have four (s1 s2 s3 : Source) (t : Quad Source) := wireFour_spec c i hi s1 s2 s3 t
  cases conA <;> cases conB
  all_goals
    simp only [mergedAlg] at halg
    simp only [setupAlg, ht, halg, if_false]
    obtain ⟨p0, p1, s0, s1, tapB, tapA, -, -⟩ := four _ _ _ _
    exact ⟨p0, p1, s0, s1, tapB, tapA⟩

theorem setupAlg_outside_pair (i : Fin 18) (c : Chip) :
    SameVoices (fun j => j ≠ i ∧ j ≠ pairOf i) c (setupAlg i c) :=
  ⟨fun o h => (setupAlg_outside c i).1 o h.1 h.2, fun j h => (setupAlg_outside c i).2 j h.1 h.2⟩

end

/-! ### `UpdateAlg` (44_router.md R176) -/

section
variable {c : Chip} {i : Fin 18}

/-- The channel is part of a four-operator voice: new mode and a paired type (44_router.md R176). -/
def Chip.Merged (c : Chip) (i : Fin 18) : Prop :=
  c.reg.newm = true ∧ ((c.ch i).chtype = .t4opA ∨ (c.ch i).chtype = .t4opB)

theorem setAlgCode_outside (i : Fin 18) (x : Alg) (c : Chip) : SameVoices (· ≠ i) c (setAlgCode i x c) :=
  .modCh i _ (not_not_intro rfl)

theorem setAlgCode_con (i j : Fin 18) (x : Alg) (c : Chip) : ((setAlgCode i x c).ch j).con = (c.ch j).con :=
  ch_modCh_proj _ _ _ Channel.con _ fun _ => rfl

theorem setAlgCode_chtype (i j : Fin 18) (x : Alg) (c : Chip) : ((setAlgCode i x c).ch j).chtype = (c.ch j).chtype :=
  ch_modCh_proj _ _ _ Channel.chtype _ fun _ => rfl

theorem setAlgCode_tap (i j : Fin 18) (x : Alg) (c : Chip) : ((setAlgCode i x c).ch j).tap = (c.ch j).tap :=
  ch_modCh_proj _ _ _ Channel.tap _ fun _ => rfl

theorem updateAlg_of_not_merged (h : ¬c.Merged i) :
    updateAlg i c = setupAlg i (setAlgCode i (twoOpAlg (c.ch i).con) c) := by
  unfold updateAlg
  dsimp only
  rw [if_neg, if_neg]
  · rfl
  · rw [setAlgCode_chtype]
    exact fun hB => h ⟨hB.1, .inr hB.2⟩
  · rw [setAlgCode_chtype]
    exact fun hA => h ⟨hA.1, .inl hA.2⟩

theorem updateAlg_of_leads (hnew : c.reg.newm = true) (ht : (c.ch i).chtype = .t4opA) :
    updateAlg i c = setupAlg (pairOf i) (setAlgCode i .merged8 (setAlgCode (pairOf i)
      (mergedAlg (c.ch i).con (c.ch (pairOf i)).con) (setAlgCode i (twoOpAlg (c.ch i).con) c))) := by
  unfold updateAlg
  dsimp only
  rw [if_pos, setAlgCode_con]
  · rfl
  · rw [setAlgCode_chtype]
    exact ⟨hnew, ht⟩

theorem updateAlg_of_follows (hnew : c.reg.newm = true) (ht : (c.ch i).chtype = .t4opB) :
    updateAlg i c = setupAlg i (setAlgCode (pairOf i) .merged8 (setAlgCode i
      (mergedAlg (c.ch (pairOf i)).con (c.ch i).con) (setAlgCode i (twoOpAlg (c.ch i).con) c))) := by
  unfold updateAlg
  dsimp only
  rw [if_neg, if_pos, setAlgCode_con]
  · rfl
  · rw [setAlgCode_chtype]
    exact ⟨hnew, ht⟩
  · rw [setAlgCode_chtype, ht]
    exact fun hA => nomatch hA.2

/-- The router reaches the pair of a channel only as part of a four-operator voice. -/
theorem updateAlg_outside (i : Fin 18) (c : Chip) :
    SameVoices (fun j => j ≠ i ∧ ¬(c.Merged i ∧ j = pairOf i)) c (updateAlg i c) := by
  by_cases h : c.Merged i
  · have codes {j k l : Fin 18} {x y z : Alg} (hj : j = i ∨ j = pairOf i) (hk : k = i ∨ k = pairOf i)
        (hl : l = i ∨ l = pairOf i) : SameVoices (fun j => j ≠ i ∧ j ≠ pairOf i) c
          (setAlgCode j x (setAlgCode k y (setAlgCode l z c))) := by
      have code {j : Fin 18} (c' : Chip) (x : Alg) (hj : j = i ∨ j = pairOf i) :
          SameVoices (fun j => j ≠ i ∧ j ≠ pairOf i) c' (setAlgCode j x c') := .modCh j _ (by tauto)
      exact ((code _ z hl).trans (code _ y hk)).trans (code _ x hj)
    refine SameVoices.mono (P := fun j => j ≠ i ∧ j ≠ pairOf i) ?_ fun j hj => ⟨hj.1, fun e => hj.2 ⟨h, e⟩⟩
    rcases h with ⟨hnew, ht | ht⟩
    · rw [updateAlg_of_leads hnew ht]
      refine (codes (.inl rfl) (.inr rfl) (.inl rfl)).trans ((setupAlg_outside_pair ..).mono fun j hj => ?_)
      exact ⟨hj.2, (pairOf_pairOf i).symm ▸ hj.1⟩
    · rw [updateAlg_of_follows hnew ht]
      exact (codes (.inr rfl) (.inl rfl) (.inl rfl)).trans (setupAlg_outside_pair ..)
  · rw [updateAlg_of_not_merged h]
    refine SameVoices.mono ?_ fun j hj => hj.1
    exact (setAlgCode_outside ..).trans (setupAlg_twoOp_outside (setAlgCode_alg ..))

/-- The algorithm codes after the router. -/
theorem setupAlg_ch_alg (i j : Fin 18) (c : Chip) : ((setupAlg i c).ch j).alg = (c.ch j).alg := (setupAlg_alg i c).ch j

theorem updateAlg_twoOp (h : ¬c.Merged i) : ((updateAlg i c).ch i).alg = twoOpAlg (c.ch i).con
    ∧ ((c.ch i).chtype ≠ .tdrum → (updateAlg i c).TwoOpWired i (c.ch i).con) := by
  rw [updateAlg_of_not_merged h]
  refine ⟨by rw [setupAlg_ch_alg, setAlgCode_alg], fun ht => ?_⟩
  rw [setupAlg_of_twoOp (by rwa [setAlgCode_chtype]) (setAlgCode_alg ..)]
  exact (wireTwo_spec ..).1

theorem updateAlg_outside_single (h : ¬c.Merged i) : SameVoices (· ≠ i) c (updateAlg i c) :=
  (updateAlg_outside i c).mono fun _ hj => ⟨hj, fun h' => h h'.1⟩

theorem updateAlg_drum (ht : (c.ch i).chtype = .tdrum) (hi : i = 6 ∨ i = 7 ∨ i = 8) :
    ((updateAlg i c).ch i).tap = (c.ch i).tap ∧ (updateAlg i c).DrumSources i (c.ch i).con := by
  have h : ¬c.Merged i := by
    rintro ⟨-, hA | hB⟩
    · cases ht.symm.trans hA
    · cases ht.symm.trans hB
  rw [updateAlg_of_not_merged h, setupAlg_of_drum (by rwa [setAlgCode_chtype]), wireDrum_ch, setAlgCode_tap]
  exact ⟨rfl, wireDrum_drumSources hi fun _ => setAlgCode_alg ..⟩

/-- A 4OP-A channel hands its wiring to its pair. -/
theorem updateAlg_leads (hnew : c.reg.newm = true) (ht : (c.ch i).chtype = .t4opA) (hi : i.val % 9 < 6)
    (htp : (c.ch (pairOf i)).chtype ≠ .tdrum) :
    ((updateAlg i c).ch i).alg = .merged8
      ∧ ((updateAlg i c).ch (pairOf i)).alg = mergedAlg (c.ch i).con (c.ch (pairOf i)).con
      ∧ (updateAlg i c).FourOpWired (pairOf i) (c.ch i).con (c.ch (pairOf i)).con := by
  obtain ⟨hne, -, hp⟩ := pairOf_spec i hi
  rw [updateAlg_of_leads hnew ht, setupAlg_ch_alg, setupAlg_ch_alg, setAlgCode_alg]
  have halg (x y z : Alg) : ((setAlgCode i x (setAlgCode (pairOf i) y (setAlgCode i z c))).ch (pairOf i)).alg = y := by
    rw [(setAlgCode_outside i _ _).ch _ hne, setAlgCode_alg]
  exact ⟨rfl, halg .., setupAlg_fourOpWired (by simpa only [setAlgCode_chtype] using htp) hp (halg ..)⟩

/-- A 4OP-B channel wires its pair. -/
theorem updateAlg_follows (hnew : c.reg.newm = true) (ht : (c.ch i).chtype = .t4opB) (hi : i.val % 9 < 6) :
    ((updateAlg i c).ch i).alg = mergedAlg (c.ch (pairOf i)).con (c.ch i).con
      ∧ ((updateAlg i c).ch (pairOf i)).alg = .merged8
      ∧ (updateAlg i c).FourOpWired i (c.ch (pairOf i)).con (c.ch i).con := by
  have hne := (pairOf_spec i hi).1
  rw [updateAlg_of_follows hnew ht, setupAlg_ch_alg, setupAlg_ch_alg, setAlgCode_alg]
  have halg (x y z : Alg) : ((setAlgCode (pairOf i) x (setAlgCode i y (setAlgCode i z c))).ch i).alg = y := by
    rw [(setAlgCode_outside (pairOf i) _ _).ch _ hne.symm, setAlgCode_alg]
  have ht' : (c.ch i).chtype ≠ .tdrum := by simp [ht]
  exact ⟨halg .., rfl, setupAlg_fourOpWired (by simpa only [setAlgCode_chtype] using ht') hi (halg ..)⟩

end

end Sys2Proof.Machine
end

section
/-! WR_4OP (40_register_writes.md R92): what one turn of its loop makes of its pair, and that the other turns do not see it. -/

namespace Sys2Proof.Machine

/-! ### The elements a routing write may touch -/

/-- A channel without its taps, algorithm code and type. -/
def Channel.eraseRouting (ch : Channel) : Channel := { ch with tap := Quad.all .zero, alg := .two0, chtype := .t2op }

theorem Operator.eq_of_eraseMod {a b : Operator} (h : a.eraseMod = b.eraseMod) : a = { b with modsrc := a.modsrc } :=
  congrArg (fun op : Operator => { op with modsrc := a.modsrc }) h

theorem Channel.eq_of_eraseRouting {a b : Channel} (h : a.eraseRouting = b.eraseRouting) :
    a = { b with chtype := a.chtype, alg := a.alg, tap := a.tap } :=
  congrArg (fun ch : Channel => { ch with chtype := a.chtype, alg := a.alg, tap := a.tap }) h

theorem Channel.eraseRouting_of_eraseWire {a b : Channel} (h : a.eraseWire = b.eraseWire) :
    a.eraseRouting = b.eraseRouting := (congrArg Channel.eraseRouting h :)

/-- The chip around its programmed state. -/
theorem Chip.eq_of_run {c d : Chip} (h : d.run = c.run) : d = { c with ops := d.ops, chs := d.chs, reg := d.reg } :=
  chip_ext (fun _ => rfl) (fun _ => rfl) rfl h

/-- Only MODSRC, TAP, ALG and CHTYPE may differ. -/
abbrev KeepsRouting : Chip → Chip → Prop := Keeps Operator.eraseMod Channel.eraseRouting

theorem setChtype_routing (i : Fin 18) (t : ChType) (c : Chip) : KeepsRouting c (setChtype i t c) :=
  Keeps.modCh i _ fun _ => rfl

theorem updateAlg_routing (i : Fin 18) (c : Chip) : KeepsRouting c (updateAlg i c) :=
  (updateAlg_frame i c).mono (fun _ _ h => h) fun _ _ => Channel.eraseRouting_of_eraseWire

theorem wr4opPair_routing (b : Byte) (c : Chip) (k : Nat) : KeepsRouting c (wr4opPair b c k) := by
  have types (i j : Fin 18) (t u : ChType) : KeepsRouting c (setChtype j u (setChtype i t c)) :=
    (setChtype_routing ..).trans (setChtype_routing ..)
  unfold wr4opPair
  dsimp only
  split
  · exact (types ..).trans (updateAlg_routing ..)
  · exact ((types ..).trans (updateAlg_routing ..)).trans (updateAlg_routing ..)

theorem foldl_keeps {α β ι : Type} {gO : Operator → α} {gC : Channel → β} {f : Chip → ι → Chip}
    (hf : ∀ c k, Keeps gO gC c (f c k)) (l : List ι) (c : Chip) : Keeps gO gC c (l.foldl f c) := by
  induction l generalizing c with
  | nil => exact Keeps.refl c
  | cons k l ih => exact (hf c k).trans (ih _)

/-- The first line of WR_4OP: the mask is stored. -/
def setFourop (b : Byte) (c : Chip) : Chip := { c with reg := { c.reg with fourop := b.extractLsb' 0 6 } }

theorem wr4op_routing (b : Byte) (c : Chip) : KeepsRouting (setFourop b c) (wr4op b c) :=
  foldl_keeps (wr4opPair_routing b) _ _

/-! ### Loops whose turns stay apart -/

section
variable {ι : Type} {f : Chip → ι → Chip} {R : ι → Fin 18 → Prop}

/-- A loop leaves alone what lies outside the region of every turn. -/
theorem foldl_outside {P : Fin 18 → Prop} {l : List ι} (outside : ∀ k ∈ l, ∀ c, SameVoices (fun j => ¬R k j) c (f c k))
    (hP : ∀ k ∈ l, ∀ j, P j → ¬R k j) (c : Chip) : SameVoices P c (l.foldl f c) := by
  induction l generalizing c with
  | nil => exact SameVoices.refl c
  | cons k l ih =>
    have turn := (outside k List.mem_cons_self c).mono (hP k List.mem_cons_self)
    exact turn.trans (ih (fun m hm => outside m (List.mem_cons_of_mem k hm)) (fun m hm => hP m (List.mem_cons_of_mem k hm)) _)

/-- Where regions are disjoint, the region of turn `k` sees its own turn only. -/
theorem foldl_turn {l : List ι} (outside : ∀ k ∈ l, ∀ c, SameVoices (fun j => ¬R k j) c (f c k))
    (disjoint : ∀ {k m j}, R k j → R m j → k = m) (reg : ∀ c k, (f c k).reg = c.reg) {k : ι}
    (hl : l.Nodup) (hk : k ∈ l) (c : Chip) :
    ∃ c₁, c₁.reg = c.reg ∧ SameVoices (R k) c c₁ ∧ SameVoices (R k) (f c₁ k) (l.foldl f c) := by
  induction l generalizing c with
  | nil => cases hk
  | cons m l ih =>
    obtain ⟨hm, hl⟩ := List.nodup_cons.mp hl
    have rest : ∀ k ∈ l, ∀ c, SameVoices (fun j => ¬R k j) c (f c k) := fun k hk => outside k (List.mem_cons_of_mem m hk)
    by_cases e : k = m
    · subst e
      exact ⟨c, rfl, SameVoices.refl c, foldl_outside rest (fun n hn j hj hj' => hm ((disjoint hj hj' : k = n).symm ▸ hn)) _⟩
    · obtain ⟨c₁, hreg, before, after⟩ := ih rest hl ((List.mem_cons.mp hk).resolve_left e) (f c m)
      have turn := (outside m List.mem_cons_self c).mono (Q := R k) fun j hj hm => e (disjoint hj hm)
      exact ⟨c₁, hreg.trans (reg c m), turn.trans before, after⟩

end

/-! ### One turn of the loop -/

/-- The channel is one of the pair that bit `k` of the mask governs. -/
def InPair (k : Fin 6) (j : Fin 18) : Prop := j = pairLower k ∨ j = pairOf (pairLower k)

theorem inPair_unique {k l : Fin 6} {j : Fin 18} (hk : InPair k j) (hl : InPair l j) : k = l := by
  by_contra h
  obtain ⟨h1, h2, h3, h4⟩ := pairLower_inj h
  rcases hk with rfl | rfl
  · exact hl.elim h1 h2
  · exact hl.elim h3 h4

theorem inPair_lt {k : Fin 6} {j : Fin 18} (h : InPair k j) : j.val % 9 < 6 := by
  have hlower := (pairLower_spec k).1
  rcases h with rfl | rfl
  · omega
  · exact (pairOf_spec _ (by omega)).2.2

/-- The types of a pair after both are set. -/
def setPairTypes (i : Fin 18) (s t : ChType) (c : Chip) : Chip := setChtype (pairOf i) t (setChtype i s c)

theorem wr4opPair_eq (b : Byte) (c : Chip) (k : Fin 6) : wr4opPair b c k =
    if b.getLsbD k then updateAlg (pairLower k) (setPairTypes (pairLower k) .t4opA .t4opB c)
    else updateAlg (pairOf (pairLower k)) (updateAlg (pairLower k) (setPairTypes (pairLower k) .t2op .t2op c)) := by
  unfold wr4opPair setPairTypes
  dsimp only
  rw [(pairLower_spec k).2]

section
variable {c : Chip} {i : Fin 18} (s t : ChType)

theorem setPairTypes_lower (h : pairOf i ≠ i) : (setPairTypes i s t c).ch i = { c.ch i with chtype := s } := by
  simp [setPairTypes, ch_setChtype, h]

theorem setPairTypes_upper (h : pairOf i ≠ i) :
    (setPairTypes i s t c).ch (pairOf i) = { c.ch (pairOf i) with chtype := t } := by
  simp [setPairTypes, ch_setChtype, h.symm]

theorem setPairTypes_outside : SameVoices (fun j => j ≠ i ∧ j ≠ pairOf i) c (setPairTypes i s t c) :=
  have type (j : Fin 18) (u : ChType) (c : Chip) (hj : j = i ∨ j = pairOf i) :
      SameVoices (fun j => j ≠ i ∧ j ≠ pairOf i) c (setChtype j u c) := .modCh j _ (by tauto)
  (type _ _ _ (.inl rfl)).trans (type _ _ _ (.inr rfl))

end

/-- Whatever the types, one turn stays inside its pair. -/
theorem wr4opPair_outside (b : Byte) (c : Chip) (k : Fin 6) : SameVoices (fun j => ¬InPair k j) c (wr4opPair b c k) := by
  have reach : ∀ j, ¬InPair k j → j ≠ pairLower k ∧ j ≠ pairOf (pairLower k) := fun j h => not_or.mp h
  have route (c : Chip) (i : Fin 18) (hi : InPair k i) : SameVoices (fun j => ¬InPair k j) c (updateAlg i c) := by
    refine (updateAlg_outside i c).mono fun j hj => ⟨fun e => hj (e ▸ hi), fun e => hj ?_⟩
    rw [e.2]
    exact hi.elim (fun h => h ▸ .inr rfl) fun h => .inl (by rw [h, pairOf_pairOf])
  rw [wr4opPair_eq]
  split
  · exact ((setPairTypes_outside ..).mono reach).trans (route _ _ (.inl rfl))
  · exact (((setPairTypes_outside ..).mono reach).trans (route _ _ (.inl rfl))).trans (route _ _ (.inr rfl))

section
variable {b : Byte} (c : Chip) (k : Fin 6)

theorem pairLower_pairOf_ne (k : Fin 6) : pairOf (pairLower k) ≠ pairLower k :=
  (pairOf_spec _ (inPair_lt (.inl rfl))).1

/-- An enabled pair in new mode is a four-operator voice (44_router.md R176, R179 to R182). -/
theorem wr4opPair_fourOp (hb : b.getLsbD k = true) (hnew : c.reg.newm = true) :
    let a := pairLower k
    let t := wr4opPair b c k
    (t.ch a).chtype = .t4opA ∧ (t.ch (pairOf a)).chtype = .t4opB
      ∧ (t.ch a).alg = .merged8 ∧ (t.ch (pairOf a)).alg = mergedAlg (c.ch a).con (c.ch (pairOf a)).con
      ∧ t.FourOpWired (pairOf a) (c.ch a).con (c.ch (pairOf a)).con := by
  have hne := pairLower_pairOf_ne k
  have hi : (pairLower k).val % 9 < 6 := inPair_lt (.inl rfl)
  dsimp only
  rw [wr4opPair_eq, if_pos hb]
  generalize pairLower k = a at *
  have hA := setPairTypes_lower (c := c) .t4opA .t4opB hne
  have hB := setPairTypes_upper (c := c) .t4opA .t4opB hne
  have hroute := (updateAlg_keeps a (setPairTypes a .t4opA .t4opB c)).ch
  obtain ⟨algA, algB, hwired⟩ := updateAlg_leads (c := setPairTypes a .t4opA .t4opB c) hnew (by rw [hA]) hi (by simp [hB])
  rw [hA, hB] at algB hwired
  refine ⟨?_, ?_, algA, algB, hwired⟩
  · exact (congrArg Prod.snd (hroute a)).trans (by rw [hA])
  · exact (congrArg Prod.snd (hroute _)).trans (by rw [hB])

/-- An enabled pair outside new mode: the lower channel is a two-operator one, the upper only takes its type. -/
theorem wr4opPair_oldMode (hb : b.getLsbD k = true) (hnew : c.reg.newm = false) :
    let a := pairLower k
    let t := wr4opPair b c k
    (t.ch a).chtype = .t4opA ∧ t.ch (pairOf a) = { c.ch (pairOf a) with chtype := .t4opB }
      ∧ (t.ch a).alg = twoOpAlg (c.ch a).con ∧ t.TwoOpWired a (c.ch a).con
      ∧ ∀ o, chanOf o = pairOf a → t.op o = c.op o := by
  have hne := pairLower_pairOf_ne k
  dsimp only
  rw [wr4opPair_eq, if_pos hb]
  generalize pairLower k = a at *
  have hA := setPairTypes_lower (c := c) .t4opA .t4opB hne
  have hB := setPairTypes_upper (c := c) .t4opA .t4opB hne
  have single : ¬(setPairTypes a .t4opA .t4opB c).Merged a := fun h => Bool.false_ne_true (hnew.symm.trans h.1)
  have hroute := (updateAlg_keeps a (setPairTypes a .t4opA .t4opB c)).ch
  have hsame := updateAlg_outside_single single
  obtain ⟨alg, hwired⟩ := updateAlg_twoOp single
  rw [hA] at alg hwired
  refine ⟨?_, ?_, alg, hwired (by simp), fun o ho => ?_⟩
  · exact (congrArg Prod.snd (hroute a)).trans (by rw [hA])
  · rw [hsame.ch _ hne, hB]
  · exact hsame.op o (ho ▸ hne)

/-- The router on a two-operator channel. -/
theorem updateAlg_t2op {c : Chip} {i : Fin 18} (ht : (c.ch i).chtype = .t2op) :
    ((updateAlg i c).ch i).chtype = .t2op ∧ ((updateAlg i c).ch i).alg = twoOpAlg (c.ch i).con
      ∧ (updateAlg i c).TwoOpWired i (c.ch i).con ∧ SameVoices (· ≠ i) c (updateAlg i c) := by
  have single : ¬c.Merged i := fun h => by simpa [ht] using h.2
  obtain ⟨alg, hwired⟩ := updateAlg_twoOp single
  refine ⟨?_, alg, hwired (by simp [ht]), updateAlg_outside_single single⟩
  exact (congrArg Prod.snd ((updateAlg_keeps i c).ch i)).trans ht

/-- A disabled pair is two two-operator channels (44_router.md R178). -/
theorem wr4opPair_disabled (hb : b.getLsbD k = false) {i : Fin 18} (hi : InPair k i) :
    ((wr4opPair b c k).ch i).chtype = .t2op ∧ ((wr4opPair b c k).ch i).alg = twoOpAlg (c.ch i).con
      ∧ (wr4opPair b c k).TwoOpWired i (c.ch i).con := by
  have hne := pairLower_pairOf_ne k
  rw [wr4opPair_eq, if_neg (by simp [hb])]
  unfold InPair at hi
  generalize pairLower k = a at *
  have hA := setPairTypes_lower (c := c) .t2op .t2op hne
  have hB := setPairTypes_upper (c := c) .t2op .t2op hne
  generalize setPairTypes a .t2op .t2op c = c' at *
  obtain ⟨typeA, algA, wiredA, sameA⟩ := updateAlg_t2op (c := c') (i := a) (by rw [hA])
  have hB' : (updateAlg a c').ch (pairOf a) = { c.ch (pairOf a) with chtype := .t2op } := (sameA.ch _ hne).trans hB
  obtain ⟨typeB, algB, wiredB, sameB⟩ := updateAlg_t2op (c := updateAlg a c') (i := pairOf a) (by rw [hB'])
  rcases hi with rfl | rfl
  · rw [hA] at algA wiredA
    rw [sameB.ch _ hne.symm]
    exact ⟨typeA, algA, wiredA.of_sameVoices (sameB.mono fun j hj => hj ▸ hne.symm)⟩
  · rw [hB'] at algB wiredB
    exact ⟨typeB, algB, wiredB⟩

end

/-! ### The loop -/

/-- WR_4OP with the bits of the mask as numbers below 6. -/
theorem wr4op_eq (b : Byte) (c : Chip) : wr4op b c =
    ([0, 1, 2, 3, 4, 5] : List (Fin 6)).foldl (fun c (k : Fin 6) => wr4opPair b c k) (setFourop b c) := rfl

theorem wr4op_turn (b : Byte) (c : Chip) (k : Fin 6) :
    ∃ c₁, c₁.reg.newm = c.reg.newm ∧ SameVoices (InPair k) c c₁ ∧ SameVoices (InPair k) (wr4opPair b c₁ k) (wr4op b c) := by
  obtain ⟨c₁, hreg, hbefore, hafter⟩ := foldl_turn (l := [0, 1, 2, 3, 4, 5]) (fun k _ c => wr4opPair_outside b c k)
    inPair_unique (fun c k => (wr4opPair_routing b c k).reg) (by decide) (k := k) (by revert k; decide) (setFourop b c)
  exact ⟨c₁, (congrArg GlobalRegs.newm hreg :), ⟨hbefore.op, hbefore.ch⟩, wr4op_eq b c ▸ hafter⟩

/-- The six pairs are channels 0 to 5 of each bank; the others are left alone. -/
theorem wr4op_outside (b : Byte) (c : Chip) : SameVoices (fun j => ¬j.val % 9 < 6) c (wr4op b c) := by
  obtain ⟨hop, hch⟩ := foldl_outside (P := fun j => ¬j.val % 9 < 6) (l := [0, 1, 2, 3, 4, 5])
    (fun k _ c => wr4opPair_outside b c k) (fun _ _ _ hj hk => hj (inPair_lt hk)) (setFourop b c)
  exact wr4op_eq b c ▸ ⟨hop, hch⟩

/-! ### What WR_4OP leaves of each pair -/

section
variable {b : Byte} (c : Chip) (k : Fin 6)

theorem wr4op_fourOp (hb : b.getLsbD k = true) (hnew : c.reg.newm = true) :
    let a := pairLower k
    let t := wr4op b c
    (t.ch a).chtype = .t4opA ∧ (t.ch (pairOf a)).chtype = .t4opB
      ∧ (t.ch a).alg = .merged8 ∧ (t.ch (pairOf a)).alg = mergedAlg (c.ch a).con (c.ch (pairOf a)).con
      ∧ t.FourOpWired (pairOf a) (c.ch a).con (c.ch (pairOf a)).con := by
  obtain ⟨c₁, hreg, before, after⟩ := wr4op_turn b c k
  have turn := wr4opPair_fourOp c₁ k hb (hreg.trans hnew)
  dsimp only at turn ⊢
  rw [after.ch _ (.inl rfl), after.ch _ (.inr rfl), ← before.ch _ (.inl rfl), ← before.ch _ (.inr rfl)]
  obtain ⟨typeA, typeB, algA, algB, wired⟩ := turn
  refine ⟨typeA, typeB, algA, algB, wired.of_sameVoices (after.mono fun j hj => ?_)⟩
  rw [pairOf_pairOf] at hj
  exact hj.symm

theorem wr4op_oldMode (hb : b.getLsbD k = true) (hnew : c.reg.newm = false) :
    let a := pairLower k
    let t := wr4op b c
    (t.ch a).chtype = .t4opA ∧ t.ch (pairOf a) = { c.ch (pairOf a) with chtype := .t4opB }
      ∧ (t.ch a).alg = twoOpAlg (c.ch a).con ∧ t.TwoOpWired a (c.ch a).con
      ∧ ∀ o, chanOf o = pairOf a → t.op o = c.op o := by
  obtain ⟨c₁, hreg, before, after⟩ := wr4op_turn b c k
  have turn := wr4opPair_oldMode c₁ k hb (hreg.trans hnew)
  dsimp only at turn ⊢
  rw [after.ch _ (.inl rfl), after.ch _ (.inr rfl), ← before.ch _ (.inl rfl), ← before.ch _ (.inr rfl)]
  obtain ⟨typeA, chB, algA, wired, ops⟩ := turn
  refine ⟨typeA, chB, algA, wired.of_sameVoices (after.mono fun j hj => .inl hj), fun o ho => ?_⟩
  exact (after.op o (.inr ho)).trans ((ops o ho).trans (before.op o (.inr ho)))

theorem wr4op_disabled (hb : b.getLsbD k = false) {i : Fin 18} (hi : InPair k i) :
    ((wr4op b c).ch i).chtype = .t2op ∧ ((wr4op b c).ch i).alg = twoOpAlg (c.ch i).con
      ∧ (wr4op b c).TwoOpWired i (c.ch i).con := by
  obtain ⟨c₁, -, before, after⟩ := wr4op_turn b c k
  obtain ⟨type, alg, wired⟩ := wr4opPair_disabled c₁ k hb hi
  rw [after.ch i hi, ← before.ch i hi]
  exact ⟨type, alg, wired.of_sameVoices (after.mono fun j hj => hj ▸ hi)⟩

end

theorem wr4op_reg (b : Byte) (c : Chip) : (wr4op b c).reg = { c.reg with fourop := b.extractLsb' 0 6 } :=
  (wr4op_routing b c).reg

/-- WR_4OP touches the routing of channels 0 to 5 of each bank, and the mask. -/
theorem wr4op_onlyWiring (b : Byte) (s : State) :
    OnlyWiring (fun o => (chanOf o).val % 9 < 6) (fun i => i.val % 9 < 6) s { s with chip := wr4op b s.chip } := by
  obtain ⟨run, -, op, ch⟩ := wr4op_routing b s.chip
  obtain ⟨opOut, chOut⟩ := wr4op_outside b s.chip
  refine ⟨?_, fun o => ⟨Operator.eq_of_eraseMod (op o), opOut o⟩, fun i => ⟨Channel.eq_of_eraseRouting (ch i), chOut i⟩⟩
  exact congrArg (fun c : Chip => { s with chip := c }) (Chip.eq_of_run run)

/-- Settles O13: each pair keeps what its own turn of the loop made of it; the frame is that of the router. -/
theorem fourOpWrite : Obligations.FourOpWrite := by
  unfold Obligations.FourOpWrite
  refine fun d s hr => ⟨{ s with chip := wr4op d s.chip }, if_pos hr, wr4op_reg d s.chip, wr4op_onlyWiring d s, fun k => ?_⟩
  dsimp only
  cases hb : d.getLsbD k with
  | true =>
    cases hnew : s.chip.reg.newm with
    | true =>
      obtain ⟨typeA, typeB, algA, algB, wired⟩ := wr4op_fourOp s.chip k hb hnew
      exact ⟨typeA, typeB, algA, algB, wired⟩
    | false =>
      obtain ⟨typeA, chB, algA, wired, ops⟩ := wr4op_oldMode s.chip k hb hnew
      rw [chB]
      exact ⟨typeA, rfl, algA, wired, rfl, rfl, ops⟩
  | false =>
    obtain ⟨typeA, algA, wiredA⟩ := wr4op_disabled s.chip k hb (.inl rfl)
    obtain ⟨typeB, algB, wiredB⟩ := wr4op_disabled s.chip k hb (.inr rfl)
    exact ⟨typeA, typeB, algA, wiredA, algB, wiredB⟩

end Sys2Proof.Machine
end

section
/-! WR_BD (40_register_writes.md R99, 42_phase_noise_rhythm.md R152): the drum channels and the drum keys. -/

namespace Sys2Proof.Machine

/-! ### The drum channels and their operators -/

/-- The channel becomes a drum channel in rhythm mode (42_phase_noise_rhythm.md R152). -/
abbrev IsDrum (i : Fin 18) : Prop := 6 ≤ i.val ∧ i.val ≤ 8

theorem isDrum_iff (i : Fin 18) : IsDrum i ↔ i = 6 ∨ i = 7 ∨ i = 8 := by
  unfold IsDrum
  omega

/-- The operators of the drum channels are 12 to 17. -/
theorem isDrum_chanOf_iff (o : Fin 36) : IsDrum (chanOf o) ↔ 12 ≤ o.val ∧ o.val ≤ 17 := by
  unfold IsDrum
  revert o
  decide

theorem pairOf_of_isDrum {i : Fin 18} (h : IsDrum i) : pairOf i = i := by
  rcases (isDrum_iff i).mp h with rfl | rfl | rfl <;> rfl

/-- In a wired block a drum channel has a two-operator code (44_router.md R177). -/
theorem Chip.Wired.twoOpAlg_of_isDrum {c : Chip} (h : c.Wired) {i : Fin 18} (hi : IsDrum i) :
    (c.ch i).alg = twoOpAlg ((c.ch i).alg == .two1) := by
  obtain ⟨hlo, hhi⟩ := hi
  have merged := h.algMerged i
  have four := h.algFour i
  cases halg : (c.ch i).alg
  case two0 => rfl
  case two1 => rfl
  case merged8 => exact absurd (merged halg) (by omega)
  all_goals exact absurd (four (by simp [halg])) (by omega)

theorem Chip.DrumSources.of_modsrc {c d : Chip} {i : Fin 18} {con : Bool} (h : c.DrumSources i con)
    (hs : ∀ o, chanOf o = i → (d.op o).modsrc = (c.op o).modsrc) : d.DrumSources i con := by
  unfold Chip.DrumSources at *
  split
  · next e =>
    subst e
    rwa [if_pos rfl, ← hs 12 rfl, ← hs 15 rfl] at h
  · next e => rwa [if_neg e, ← hs _ (chanOf_slot0 i), ← hs _ (chanOf_slot1 i)] at h

theorem setRhythmKey_eq (v : Bool) (op : Operator) :
    setRhythmKey v op = { op with key := BitVec.ofBool v ++ op.key.extractLsb' 0 1 } := by
  have bits : ∀ (v : Bool) (k : BitVec 2),
      (k &&& 0b01) ||| (if v then 0b10 else 0b00) = BitVec.ofBool v ++ k.extractLsb' 0 1 := by decide
  unfold setRhythmKey
  rw [bits]

/-- The rhythm key of an operator that the router may have given another source. -/
theorem setRhythmKey_of_eraseMod {x y : Operator} (h : x.eraseMod = y.eraseMod) (v : Bool) : setRhythmKey v x =
    { y with modsrc := (setRhythmKey v x).modsrc, key := BitVec.ofBool v ++ y.key.extractLsb' 0 1 } := by
  rw [setRhythmKey_eq, Operator.eq_of_eraseMod h]

theorem Channel.eq_of_eraseTap {a b : Channel} (h : a.eraseTap = b.eraseTap) : a = { b with tap := a.tap } :=
  congrArg (fun ch : Channel => { ch with tap := a.tap }) h

/-! ### Rhythm mode on -/

/-- The fixed taps and the types of the drum channels (44_router.md R183). -/
def setDrumTypes (c : Chip) : Chip := setChtype 8 .tdrum (setChtype 7 .tdrum (setChtype 6 .tdrum (setRhythmTaps params c)))

/-- The drum keys of a value of RHY (42_phase_noise_rhythm.md R152). -/
def setDrumKeys (rhy : BitVec 6) (c : Chip) : Chip :=
  let c := c.modOp 13 (setRhythmKey (rhy.getLsbD 0))
  let c := c.modOp 17 (setRhythmKey (rhy.getLsbD 1))
  let c := c.modOp 14 (setRhythmKey (rhy.getLsbD 2))
  let c := c.modOp 16 (setRhythmKey (rhy.getLsbD 3))
  let c := c.modOp 12 (setRhythmKey (rhy.getLsbD 4))
  c.modOp 15 (setRhythmKey (rhy.getLsbD 4))

/-- The depths and RHY (40_register_writes.md R99). -/
def setDepths (b : Byte) (c : Chip) : Chip :=
  { c with reg := { c.reg with
      tremshift := if b.getLsbD 7 then 2 else 4
      vibshift := if b.getLsbD 6 then 0 else 1
      rhy := b.extractLsb' 0 6 } }

theorem setDrumTypes_ch (c : Chip) (i : Fin 18) : (setDrumTypes c).ch i =
    if IsDrum i then { c.ch i with chtype := .tdrum, tap := ⟨.out (slot0 i), .out (slot1 i), .zero, .zero⟩ } else c.ch i := by
  have taps : setRhythmTaps params c = setTap 8 ⟨.out 14, .out 17, .zero, .zero⟩
      (setTap 7 ⟨.out 13, .out 16, .zero, .zero⟩ (setTap 6 ⟨.out 12, .out 15, .zero, .zero⟩ c)) := rfl
  unfold setDrumTypes
  rw [taps]
  split
  · next h =>
    have slots : slot0 6 = 12 ∧ slot1 6 = 15 ∧ slot0 7 = 13 ∧ slot1 7 = 16 ∧ slot0 8 = 14 ∧ slot1 8 = 17 := by decide
    rcases (isDrum_iff i).mp h with rfl | rfl | rfl
    all_goals simp [ch_setChtype, ch_setTap, slots]
  · next h =>
    rw [isDrum_iff, not_or, not_or] at h
    obtain ⟨h6, h7, h8⟩ := h
    simp [ch_setChtype, ch_setTap, Ne.symm h6, Ne.symm h7, Ne.symm h8]

section
variable (rhy : BitVec 6) (b : Byte) (c : Chip) (o : Fin 36) (i : Fin 18)

@[simp] theorem setDrumTypes_reg : (setDrumTypes c).reg = c.reg := rfl
@[simp] theorem setDrumTypes_op : (setDrumTypes c).op o = c.op o := rfl
@[simp] theorem setDrumKeys_reg : (setDrumKeys rhy c).reg = c.reg := rfl
@[simp] theorem setDrumKeys_ch : (setDrumKeys rhy c).ch i = c.ch i := rfl
@[simp] theorem setDepths_op : (setDepths b c).op o = c.op o := rfl
@[simp] theorem setDepths_ch : (setDepths b c).ch i = c.ch i := rfl

end

theorem setDrumKeys_op (rhy : BitVec 6) (hon : rhy.getLsbD 5 = true) (c : Chip) (o : Fin 36) : (setDrumKeys rhy c).op o =
    if 12 ≤ o.val ∧ o.val ≤ 17 then setRhythmKey (drumKey rhy o) (c.op o) else c.op o := by
  replace hon : rhy[5] = true := hon
  unfold setDrumKeys
  split
  · next h =>
    have six : o = 12 ∨ o = 13 ∨ o = 14 ∨ o = 15 ∨ o = 16 ∨ o = 17 := by omega
    rcases six with rfl | rfl | rfl | rfl | rfl | rfl
    all_goals simp [op_modOp, drumKey, hon]
  · next h =>
    have other {k : Fin 36} (hk : 12 ≤ k.val ∧ k.val ≤ 17) : k ≠ o := fun e => h (e ▸ hk)
    simp [op_modOp, other]

theorem setDrumKeys_modsrc {rhy : BitVec 6} (hon : rhy.getLsbD 5 = true) (c : Chip) (o : Fin 36) :
    ((setDrumKeys rhy c).op o).modsrc = (c.op o).modsrc := by
  rw [setDrumKeys_op _ hon]
  split <;> rfl

/-- The router on the three drum channels. -/
def wireDrums (c : Chip) : Chip := wireDrum 8 (wireDrum 7 (wireDrum 6 c))

theorem wireDrum_keeps (i : Fin 18) (c : Chip) : Keeps Operator.eraseMod id c (wireDrum i c) where
  run := (wireDrum_frame i c).run
  reg := (wireDrum_frame i c).reg
  op := (wireDrum_frame i c).op
  ch := fun j => wireDrum_ch i j c

theorem wireDrums_keeps (c : Chip) : Keeps Operator.eraseMod id c (wireDrums c) :=
  (wireDrum_keeps ..).trans ((wireDrum_keeps ..).trans (wireDrum_keeps ..))

theorem wireDrums_ch (c : Chip) (i : Fin 18) : (wireDrums c).ch i = c.ch i := (wireDrums_keeps c).ch i

theorem wireDrums_outside (c : Chip) : SameVoices (fun j => ¬IsDrum j) c (wireDrums c) := by
  have wire (c : Chip) {i : Fin 18} (hi : IsDrum i) : SameVoices (fun j => ¬IsDrum j) c (wireDrum i c) :=
    wireDrum_outside.mono fun j hj e => hj (e ▸ hi)
  exact ((wire c (by decide)).trans (wire _ (by decide))).trans (wire _ (by decide))

/-- Later channels leave the sources of earlier ones; only channel 6 looks at its connection (44_router.md R183). -/
theorem wireDrums_drumSources {c : Chip} {con : Bool} (halg : (c.ch 6).alg = twoOpAlg con) :
    (wireDrums c).DrumSources 6 con ∧ (wireDrums c).DrumSources 7 false ∧ (wireDrums c).DrumSources 8 false := by
  have keep {c : Chip} {i : Fin 18} {con : Bool} (j : Fin 18) (hij : i ≠ j) (h : c.DrumSources i con) :
      (wireDrum j c).DrumSources i con :=
    h.of_modsrc fun o ho => congrArg Operator.modsrc (wireDrum_outside.op o (ho ▸ hij))
  refine ⟨keep 8 (by decide) (keep 7 (by decide) ?_), keep 8 (by decide) ?_, ?_⟩
  · exact wireDrum_drumSources (.inl rfl) fun _ => halg
  · exact wireDrum_drumSources (.inr (.inl rfl)) fun h => absurd h (by decide)
  · exact wireDrum_drumSources (.inr (.inr rfl)) fun h => absurd h (by decide)

/-- With the rhythm bit set the router runs its drum branch on the three channels. -/
theorem wrBd_on {b : Byte} (hb : b.getLsbD 5 = true) (c : Chip) : wrBd params b c =
    setDrumKeys (b.extractLsb' 0 6) (wireDrums (setDrumTypes (setDepths b c))) := by
  have hrhy : (b.extractLsb' 0 6).getLsbD 5 = true := by simpa using hb
  have on : wrBd params b c = setDrumKeys (b.extractLsb' 0 6)
      (setupAlg 8 (setupAlg 7 (setupAlg 6 (setDrumTypes (setDepths b c))))) := if_pos hrhy
  have type {i : Fin 18} (hi : IsDrum i) : ((setDrumTypes (setDepths b c)).ch i).chtype = .tdrum := by
    rw [setDrumTypes_ch, if_pos hi]
  rw [on, wireDrums]
  generalize setDrumTypes (setDepths b c) = c' at *
  rw [setupAlg_of_drum (i := 6) (type (by decide)),
    setupAlg_of_drum (i := 7) (by rw [wireDrum_ch]; exact type (by decide)),
    setupAlg_of_drum (i := 8) (by rw [wireDrum_ch, wireDrum_ch]; exact type (by decide))]

/-! ### Rhythm mode off -/

section
variable (c : Chip) {i : Fin 18}

theorem undrum_outside (c : Chip) (hi : IsDrum i) : SameVoices (· ≠ i) c (undrum c i) := by
  have route : SameVoices (· ≠ i) (setChtype i .t2op c) (setupAlg i (setChtype i .t2op c)) :=
    (setupAlg_outside_pair ..).mono fun j hj => ⟨hj, (pairOf_of_isDrum hi).symm ▸ hj⟩
  have type : SameVoices (· ≠ i) c (setChtype i .t2op c) := .modCh i _ (not_not_intro rfl)
  exact ((type.trans route).trans (.modOp _ _ (not_not_intro (chanOf_slot0 i)))).trans
    (.modOp _ _ (not_not_intro (chanOf_slot1 i)))

theorem setChtype_ch_same (i : Fin 18) (t : ChType) (c : Chip) : (setChtype i t c).ch i = { c.ch i with chtype := t } := by
  rw [ch_setChtype, if_pos rfl]

theorem undrum_ch (c : Chip) (i : Fin 18) :
    (undrum c i).ch i = { c.ch i with chtype := .t2op, tap := ((undrum c i).ch i).tap } := by
  have route := Channel.eq_of_eraseTap ((setupAlg_frame i (setChtype i .t2op c)).ch i)
  rw [setChtype_ch_same] at route
  exact route

theorem undrum_op (c : Chip) {o : Fin 36} (ho : chanOf o = i) : (undrum c i).op o = { c.op o with
    modsrc := ((undrum c i).op o).modsrc, key := BitVec.ofBool false ++ (c.op o).key.extractLsb' 0 1 } := by
  have keyed : (undrum c i).op o = setRhythmKey false ((setupAlg i (setChtype i .t2op c)).op o) :=
    (op_modOp_both ..).trans (if_pos ho)
  rw [keyed]
  exact setRhythmKey_of_eraseMod ((setupAlg_frame i (setChtype i .t2op c)).op o) false

theorem undrum_twoOpWired {con : Bool} (halg : (c.ch i).alg = twoOpAlg con) : (undrum c i).TwoOpWired i con := by
  have type := setChtype_ch_same i .t2op c
  have wired : (setupAlg i (setChtype i .t2op c)).TwoOpWired i con := by
    rw [setupAlg_of_twoOp (by simp [type]) (by rw [type]; exact halg)]
    exact (wireTwo_spec ..).1
  refine wired.of_sources (fun o ho => ?_) rfl
  exact (congrArg Operator.modsrc ((op_modOp_both ..).trans (if_pos ho)) :)

theorem undrum_reg (c : Chip) (i : Fin 18) : (undrum c i).reg = c.reg := (setupAlg_frame i (setChtype i .t2op c)).reg

end

/-- With the rhythm bit clear each of the three channels is taken back in turn. -/
theorem wrBd_off {b : Byte} (hb : b.getLsbD 5 = false) (c : Chip) :
    wrBd params b c = [6, 7, 8].foldl undrum (setDepths b c) := by
  have hrhy : (b.extractLsb' 0 6).getLsbD 5 = false := by simpa using hb
  exact if_neg (by rw [hrhy]; exact Bool.false_ne_true)

/-- Each drum channel sees its own turn only. -/
theorem wrBd_off_turn {b : Byte} (hb : b.getLsbD 5 = false) (c : Chip) {i : Fin 18} (hi : IsDrum i) :
    ∃ c₁, SameVoices (· = i) c c₁ ∧ SameVoices (· = i) (undrum c₁ i) (wrBd params b c) := by
  have mem : ∀ j ∈ ([6, 7, 8] : List (Fin 18)), IsDrum j := by decide
  obtain ⟨c₁, -, before, after⟩ := foldl_turn (f := undrum) (R := fun k j => j = k) (l := [6, 7, 8])
    (fun k hk c => undrum_outside c (mem k hk)) (fun hk hm => hk.symm.trans hm) undrum_reg (by decide) (k := i)
    (by simpa using (isDrum_iff i).mp hi) (setDepths b c)
  rw [wrBd_off hb]
  exact ⟨c₁, ⟨before.op, before.ch⟩, after⟩

/-! ### WR_BD in either case -/

section
variable (b : Byte) (c : Chip)

theorem wrBd_reg : (wrBd params b c).reg = (setDepths b c).reg := by
  cases hb : b.getLsbD 5 with
  | true =>
    rw [wrBd_on hb, setDrumKeys_reg, (wireDrums_keeps _).reg, setDrumTypes_reg]
  | false =>
    rw [wrBd_off hb]
    exact List.foldlRecOn [6, 7, 8] undrum (motive := fun d => d.reg = (setDepths b c).reg) rfl fun d hd i _ =>
      (undrum_reg d i).trans hd

/-- The drum channels and their operators are all WR_BD reaches. -/
theorem wrBd_outside : SameVoices (fun j => ¬IsDrum j) c (wrBd params b c) := by
  cases hb : b.getLsbD 5 with
  | true =>
    have hrhy : (b.extractLsb' 0 6).getLsbD 5 = true := by simpa using hb
    obtain ⟨hop, hch⟩ := wireDrums_outside (setDrumTypes (setDepths b c))
    rw [wrBd_on hb]
    refine ⟨fun o ho => ?_, fun i hi => ?_⟩
    · rw [setDrumKeys_op _ hrhy, if_neg fun h => ho ((isDrum_chanOf_iff o).mpr h), hop o ho, setDrumTypes_op, setDepths_op]
    · rw [setDrumKeys_ch, hch i hi, setDrumTypes_ch, if_neg hi, setDepths_ch]
  | false =>
    have mem : ∀ j ∈ ([6, 7, 8] : List (Fin 18)), IsDrum j := by decide
    obtain ⟨hop, hch⟩ := foldl_outside (f := undrum) (R := fun k j => j = k) (P := fun j => ¬IsDrum j) (l := [6, 7, 8])
      (fun k hk c => undrum_outside c (mem k hk)) (fun k hk j hj e => hj (e ▸ mem k hk)) (setDepths b c)
    rw [wrBd_off hb]
    exact ⟨hop, hch⟩

variable {c}

theorem wrBd_ch {i : Fin 18} (hi : IsDrum i) : (wrBd params b c).ch i =
    { c.ch i with chtype := if b.getLsbD 5 then .tdrum else .t2op, tap := ((wrBd params b c).ch i).tap } := by
  cases hb : b.getLsbD 5 with
  | true =>
    rw [wrBd_on hb, setDrumKeys_ch, wireDrums_ch, setDrumTypes_ch, if_pos hi, setDepths_ch]
    rfl
  | false =>
    obtain ⟨c₁, before, after⟩ := wrBd_off_turn hb c hi
    rw [after.ch i rfl, ← before.ch i rfl]
    exact undrum_ch c₁ i

theorem wrBd_op {o : Fin 36} (ho : IsDrum (chanOf o)) : (wrBd params b c).op o = { c.op o with
    modsrc := ((wrBd params b c).op o).modsrc
    key := BitVec.ofBool (drumKey (b.extractLsb' 0 6) o) ++ (c.op o).key.extractLsb' 0 1 } := by
  cases hb : b.getLsbD 5 with
  | true =>
    have hrhy : (b.extractLsb' 0 6).getLsbD 5 = true := by simpa using hb
    rw [wrBd_on hb, setDrumKeys_op _ hrhy, if_pos ((isDrum_chanOf_iff o).mp ho)]
    have same := (wireDrums_keeps (setDrumTypes (setDepths b c))).op o
    rw [setDrumTypes_op, setDepths_op] at same
    exact setRhythmKey_of_eraseMod same _
  | false =>
    obtain ⟨c₁, before, after⟩ := wrBd_off_turn hb c ho
    have hrhy : (b.extractLsb' 0 6).getLsbD 5 = false := by simpa using hb
    have nokey : drumKey (b.extractLsb' 0 6) o = false := by rw [drumKey, hrhy, Bool.false_and]
    rw [after.op o rfl, ← before.op o rfl, nokey]
    exact undrum_op c₁ rfl

/-- The taps of the drum channels, and their sources when channel 6 has a two-operator code. -/
theorem wrBd_on_wiring {b : Byte} (hb : b.getLsbD 5 = true) {con : Bool} (halg : (c.ch 6).alg = twoOpAlg con) :
    (∀ i, IsDrum i → ((wrBd params b c).ch i).tap = ⟨.out (slot0 i), .out (slot1 i), .zero, .zero⟩)
      ∧ (wrBd params b c).DrumSources 6 con ∧ (wrBd params b c).DrumSources 7 false
      ∧ (wrBd params b c).DrumSources 8 false := by
  have hrhy : (b.extractLsb' 0 6).getLsbD 5 = true := by simpa using hb
  have alg6 : ((setDrumTypes (setDepths b c)).ch 6).alg = twoOpAlg con := by
    rw [setDrumTypes_ch, if_pos (by decide), setDepths_ch]
    exact halg
  obtain ⟨src6, src7, src8⟩ := wireDrums_drumSources alg6
  have taps (i : Fin 18) (hi : IsDrum i) : ((setDrumTypes (setDepths b c)).ch i).tap =
      ⟨.out (slot0 i), .out (slot1 i), .zero, .zero⟩ := by rw [setDrumTypes_ch, if_pos hi]
  rw [wrBd_on hb]
  generalize setDrumTypes (setDepths b c) = c' at *
  refine ⟨fun i hi => ?_, src6.of_modsrc fun o _ => ?_, src7.of_modsrc fun o _ => ?_, src8.of_modsrc fun o _ => ?_⟩
  · rw [setDrumKeys_ch, wireDrums_ch, taps i hi]
  all_goals exact setDrumKeys_modsrc hrhy ..

theorem wrBd_off_wiring {b : Byte} (hb : b.getLsbD 5 = false) {i : Fin 18} (hi : IsDrum i) {con : Bool}
    (halg : (c.ch i).alg = twoOpAlg con) : (wrBd params b c).TwoOpWired i con := by
  obtain ⟨c₁, before, after⟩ := wrBd_off_turn hb c hi
  exact (undrum_twoOpWired c₁ (by rw [before.ch i rfl]; exact halg)).of_sameVoices after

end

/-- Settles O14: outside channels 6 to 8 nothing changes; those get their type, taps and sources from the branch of the
rhythm bit, their operators the drum keys. -/
theorem rhythmWrite : Obligations.RhythmWrite := by
  unfold Obligations.RhythmWrite
  intro d s hr
  have out := wrBd_outside d s.chip
  refine ⟨{ s with chip := wrBd params d s.chip }, if_pos hr, wrBd_reg d s.chip, ?_, fun i hi => ?_, fun i hi => ?_,
    fun o => ?_, fun o ho => ?_, fun hw => ?_⟩
  · exact congrArg (fun c : Chip => { s with chip := c }) (Chip.eq_of_run (wrBd_write params d s.chip).run)
  · exact out.ch i (by omega)
  · exact wrBd_ch d hi
  · by_cases h : 12 ≤ o.val ∧ o.val ≤ 17
    · rw [if_pos h]
      exact wrBd_op d ((isDrum_chanOf_iff o).mpr h)
    · rw [if_neg h]
      dsimp only
      rw [out.op o fun hd => h ((isDrum_chanOf_iff o).mp hd)]
  · exact out.op o fun hd => by have := (isDrum_chanOf_iff o).mp hd; omega
  · cases hb : d.getLsbD 5 with
    | true =>
      obtain ⟨taps, src6, src7, src8⟩ := wrBd_on_wiring hb (hw.twoOpAlg_of_isDrum (i := 6) (by decide))
      exact ⟨taps 6 (by decide), taps 7 (by decide), taps 8 (by decide), src6, src7, src8⟩
    | false => exact fun i hi => wrBd_off_wiring hb hi (hw.twoOpAlg_of_isDrum hi)

end Sys2Proof.Machine
end

section
/-! WR_CHC0 (40_register_writes.md R100): connection and feedback, then the router, then the enables and pan weights. -/

namespace Sys2Proof.Machine

theorem Channel.eq_of_eraseWire {a b : Channel} (h : a.eraseWire = b.eraseWire) : a = { b with alg := a.alg, tap := a.tap } :=
  congrArg (fun ch : Channel => { ch with alg := a.alg, tap := a.tap }) h

/-! ### The enables and pan weights -/

/-- The last part of WR_CHC0: the enables, and outside stereo extension the pan weights that follow them. -/
def setOutputs (i : Fin 18) (b : Byte) (c : Chip) : Chip := setDirectPan i (setEnables i b c)

section
variable (i : Fin 18) (b : Byte) (c : Chip)

theorem setEnables_ch_same : (setEnables i b c).ch i = { c.ch i with
    cha := if c.reg.newm then b.getLsbD 4 else true
    chb := if c.reg.newm then b.getLsbD 5 else true
    chc := if c.reg.newm then b.getLsbD 6 else false
    chd := if c.reg.newm then b.getLsbD 7 else false } := by
  unfold setEnables
  rw [ch_modCh_same]
  split <;> rfl

theorem setDirectPan_ch_same : (setDirectPan i c).ch i = { c.ch i with
    leftpan := if c.reg.stereoext then (c.ch i).leftpan else unity (c.ch i).cha
    rightpan := if c.reg.stereoext then (c.ch i).rightpan else unity (c.ch i).chb } := by
  unfold setDirectPan
  split
  · rfl
  · rw [ch_modCh_same]
    rfl

theorem setOutputs_ch_ne {j : Fin 18} (h : j ≠ i) : (setOutputs i b c).ch j = c.ch j := by
  unfold setOutputs setDirectPan
  split
  · exact ch_modCh_ne _ _ _ _ h.symm
  · rw [ch_modCh_ne _ _ _ _ h.symm]
    exact ch_modCh_ne _ _ _ _ h.symm

/-- Nothing but the outputs of the channel changes. -/
theorem setOutputs_frame : Keeps id (fun ch => (ch.tap, ch.alg, ch.chtype)) c (setOutputs i b c) := by
  have enables : Keeps id (fun ch => (ch.tap, ch.alg, ch.chtype)) c (setEnables i b c) := Keeps.modCh i _ fun ch => by
    split <;> rfl
  refine enables.trans ?_
  unfold setOutputs setDirectPan
  split
  · exact Keeps.refl _
  · exact Keeps.modCh i _ fun _ => rfl

theorem setOutputs_op (o : Fin 36) : (setOutputs i b c).op o = c.op o := (setOutputs_frame i b c).op o

theorem setOutputs_tap (j : Fin 18) : ((setOutputs i b c).ch j).tap = (c.ch j).tap :=
  congrArg Prod.fst ((setOutputs_frame i b c).ch j)

theorem setOutputs_alg (j : Fin 18) : ((setOutputs i b c).ch j).alg = (c.ch j).alg :=
  congrArg (fun x => x.2.1) ((setOutputs_frame i b c).ch j)

/-! ### The whole write -/

theorem wrChc0_eq_setOutputs : wrChc0 i b c = setOutputs i b (updateAlg i (setConnection i b c)) := rfl

theorem wrChc0_alg (j : Fin 18) : ((wrChc0 i b c).ch j).alg = ((updateAlg i (setConnection i b c)).ch j).alg :=
  setOutputs_alg ..

theorem wrChc0_tap (j : Fin 18) : ((wrChc0 i b c).ch j).tap = ((updateAlg i (setConnection i b c)).ch j).tap :=
  setOutputs_tap ..

theorem wrChc0_modsrc (o : Fin 36) :
    ((wrChc0 i b c).op o).modsrc = ((updateAlg i (setConnection i b c)).op o).modsrc :=
  congrArg Operator.modsrc (setOutputs_op ..)

theorem wrChc0_reg : (wrChc0 i b c).reg = c.reg := (wrChc0_keeps i b c).reg

theorem setConnection_ch_same :
    (setConnection i b c).ch i = { c.ch i with fb := b.extractLsb' 1 3, con := b.getLsbD 0 } := ch_modCh_same ..

theorem setConnection_ch_ne {j : Fin 18} (h : j ≠ i) : (setConnection i b c).ch j = c.ch j := ch_modCh_ne _ _ _ _ h.symm

theorem setConnection_chtype (j : Fin 18) : ((setConnection i b c).ch j).chtype = (c.ch j).chtype :=
  ch_modCh_proj _ _ _ Channel.chtype _ fun _ => by rfl

theorem setConnection_merged : (setConnection i b c).Merged i ↔ c.Merged i := by
  unfold Chip.Merged
  rw [setConnection_chtype]
  rfl

theorem wrChc0_ch_same : (wrChc0 i b c).ch i =
    let cha := if c.reg.newm then b.getLsbD 4 else true
    let chb := if c.reg.newm then b.getLsbD 5 else true
    { c.ch i with
      fb := b.extractLsb' 1 3, con := b.getLsbD 0, cha := cha, chb := chb
      chc := if c.reg.newm then b.getLsbD 6 else false
      chd := if c.reg.newm then b.getLsbD 7 else false
      leftpan := if c.reg.stereoext then (c.ch i).leftpan else unity cha
      rightpan := if c.reg.stereoext then (c.ch i).rightpan else unity chb
      alg := ((wrChc0 i b c).ch i).alg, tap := ((wrChc0 i b c).ch i).tap } := by
  have route := updateAlg_frame i (setConnection i b c)
  have chan := Channel.eq_of_eraseWire (route.ch i)
  have hreg : (updateAlg i (setConnection i b c)).reg = c.reg := route.reg
  rw [wrChc0_alg, wrChc0_tap, wrChc0_eq_setOutputs]
  generalize updateAlg i (setConnection i b c) = c' at *
  unfold setOutputs
  rw [setDirectPan_ch_same, setEnables_ch_same, show (setEnables i b c').reg = c.reg from hreg, hreg, chan,
    setConnection_ch_same]

theorem wrChc0_op (o : Fin 36) :
    (wrChc0 i b c).op o = { c.op o with modsrc := ((wrChc0 i b c).op o).modsrc } := by
  rw [wrChc0_eq_setOutputs, setOutputs_op]
  exact Operator.eq_of_eraseMod ((updateAlg_frame i (setConnection i b c)).op o)

theorem wrChc0_ch_ne {j : Fin 18} (h : j ≠ i) : (wrChc0 i b c).ch j =
    { c.ch j with alg := ((wrChc0 i b c).ch j).alg, tap := ((wrChc0 i b c).ch j).tap } := by
  rw [wrChc0_eq_setOutputs, setOutputs_ch_ne _ _ _ h]
  have chan := Channel.eq_of_eraseWire ((updateAlg_frame i (setConnection i b c)).ch j)
  rw [setConnection_ch_ne _ _ _ h] at chan
  exact chan

/-- The write reaches its channel, and the pair in a four-operator voice. -/
theorem wrChc0_outside : SameVoices (fun j => j ≠ i ∧ ¬(c.Merged i ∧ j = pairOf i)) c (wrChc0 i b c) := by
  obtain ⟨hop, hch⟩ := updateAlg_outside i (setConnection i b c)
  simp only [setConnection_merged] at hop hch
  rw [wrChc0_eq_setOutputs]
  refine ⟨fun o ho => ?_, fun j hj => ?_⟩
  · rw [setOutputs_op]
    exact hop o ho
  · rw [setOutputs_ch_ne _ _ _ hj.1, hch j hj, setConnection_ch_ne _ _ _ hj.1]

variable {i c}

theorem wrChc0_leads (hw : c.Wired) (hnew : c.reg.newm = true) (ht : (c.ch i).chtype = .t4opA) :
    ((wrChc0 i b c).ch i).alg = .merged8
      ∧ ((wrChc0 i b c).ch (pairOf i)).alg = mergedAlg (b.getLsbD 0) (c.ch (pairOf i)).con
      ∧ (wrChc0 i b c).FourOpWired (pairOf i) (b.getLsbD 0) (c.ch (pairOf i)).con := by
  obtain ⟨hlo, htp⟩ := hw.typeA i ht
  have hi : i.val % 9 < 6 := by omega
  have route := updateAlg_leads (c := setConnection i b c) hnew (by rw [setConnection_chtype, ht]) hi
    (by simp [setConnection_chtype, htp])
  rw [setConnection_ch_same, setConnection_ch_ne _ _ _ (pairOf_spec i hi).1] at route
  rw [wrChc0_alg, wrChc0_alg]
  exact ⟨route.1, route.2.1, route.2.2.of_sources (fun o _ => wrChc0_modsrc ..) fun j _ => wrChc0_tap ..⟩

theorem wrChc0_follows (hw : c.Wired) (hnew : c.reg.newm = true) (ht : (c.ch i).chtype = .t4opB) :
    ((wrChc0 i b c).ch i).alg = mergedAlg (c.ch (pairOf i)).con (b.getLsbD 0)
      ∧ ((wrChc0 i b c).ch (pairOf i)).alg = .merged8
      ∧ (wrChc0 i b c).FourOpWired i (c.ch (pairOf i)).con (b.getLsbD 0) := by
  obtain ⟨-, hi, -⟩ := hw.typeB i ht
  have route := updateAlg_follows (c := setConnection i b c) hnew (by rw [setConnection_chtype, ht]) hi
  rw [setConnection_ch_same, setConnection_ch_ne _ _ _ (pairOf_spec i hi).1] at route
  rw [wrChc0_alg, wrChc0_alg]
  exact ⟨route.1, route.2.1, route.2.2.of_sources (fun o _ => wrChc0_modsrc ..) fun j _ => wrChc0_tap ..⟩

theorem wrChc0_single (hw : c.Wired) (hm : ¬c.Merged i) : ((wrChc0 i b c).ch i).alg = twoOpAlg (b.getLsbD 0)
    ∧ if (c.ch i).chtype = .tdrum
      then ((wrChc0 i b c).ch i).tap = (c.ch i).tap ∧ (wrChc0 i b c).DrumSources i (b.getLsbD 0)
      else (wrChc0 i b c).TwoOpWired i (b.getLsbD 0) := by
  obtain ⟨alg, two⟩ := updateAlg_twoOp (mt (setConnection_merged i b c).mp hm)
  rw [setConnection_ch_same] at alg two
  rw [wrChc0_alg, wrChc0_tap]
  refine ⟨alg, ?_⟩
  split
  · next ht =>
    have hi := ((hw.typeDrum i).mp ht).2
    obtain ⟨tap, src⟩ := updateAlg_drum (c := setConnection i b c) ((setConnection_chtype ..).trans ht) hi
    rw [setConnection_ch_same] at tap src
    exact ⟨tap, src.of_modsrc fun o _ => wrChc0_modsrc ..⟩
  · next ht => exact (two ht).of_sources (fun o _ => wrChc0_modsrc ..) (wrChc0_tap ..)

end

theorem merged_iff (s : State) (i : Fin 18) : s.chip.Merged i ↔ followsPair s i ∨ leadsPair s i := by
  unfold Chip.Merged followsPair leadsPair
  tauto

/-- Settles O22: the router runs between the connection and the outputs, each of which leaves alone what the other sets. -/
theorem connectionWrite : Obligations.ConnectionWrite := by
  unfold Obligations.ConnectionWrite
  intro i d s hr
  have out := wrChc0_outside i d s.chip
  simp only [merged_iff] at out
  refine ⟨{ s with chip := wrChc0 i d s.chip }, if_pos hr, ?_, wrChc0_ch_same i d s.chip, fun o => wrChc0_op i d s.chip o,
    fun o h h' => out.op o ⟨h, h'⟩, fun j h h' => out.ch j ⟨h, h'⟩, fun h => wrChc0_ch_ne i d s.chip h, fun hw => ⟨?_, ?_, ?_⟩⟩
  · have frame := Chip.eq_of_run (wrChc0_write i d s.chip).run
    rw [wrChc0_reg] at frame
    exact congrArg (fun c : Chip => { s with chip := c }) frame
  · exact fun h => wrChc0_leads d hw h.1 h.2
  · exact fun h => wrChc0_follows d hw h.1 h.2
  · exact fun hl hf => wrChc0_single d hw fun hm => ((merged_iff s i).mp hm).elim hf hl

end Sys2Proof.Machine
end

section
/-! Properties of the programmed state, which a tick changes only through the writes it drains. -/

namespace Sys2Proof.Machine

/-- The property looks at the channels, the global registers and the programmed part of the operators only. -/
def OfProgram (P : Chip → Prop) : Prop :=
  ∀ c d : Chip, d.chs = c.chs → d.reg = c.reg → (∀ o, (d.op o).prog = (c.op o).prog) → P c → P d

section
variable {P : Chip → Prop} (hP : OfProgram P) (write : ∀ a b c, P c → P (regWrite params a b c))
include hP write

theorem drainFrom_preserves (l : List WbEntry) {c : Chip} (h : P c) : P (drainFrom params l c) := by
  have queue (c : Chip) (w : List WbEntry) (h : P c) : P { c with wb := w } := hP c _ rfl rfl (fun _ => rfl) h
  induction l generalizing c with
  | nil => exact queue c [] h
  | cons e l ih =>
    unfold drainFrom
    split
    · exact ih (write _ _ _ (queue c l h))
    · exact queue c (e :: l) h

theorem tickChip_preserves {c : Chip} (h : P c) : P (tickChip params c) := by
  obtain ⟨-, -, hchs, hprog⟩ := beforeDrain_frame (c := c)
  have hreg : (oscPhase params (soundPhases params c)).reg = c.reg := by
    rw [beforeDrain_eq, (operatorSteps_rest params rfl c allOps).reg]
  have drained := drainFrom_preserves hP write (oscPhase params (soundPhases params c)).wb (hP c _ hchs hreg hprog h)
  exact hP (drainWriteBuffer params (oscPhase params (soundPhases params c))) _ rfl rfl (fun _ => rfl) drained

/-- What every register write keeps of the program, every command but RESET keeps. -/
theorem commandEffect_preserves (c d : Chip) (h : P c) (he : CommandEffect c d) : P d := by
  cases he with
  | write a b => exact write a b c h
  | queue a b _ => exact hP c _ rfl rfl (fun _ => rfl) h
  | tick => exact tickChip_preserves hP write h
  | resampled n _ =>
    exact tickResampled_iterate_keeps (P := P) (fun _ => tickChip_preserves hP write)
      (fun c _ => hP c _ rfl rfl fun _ => rfl) n h

end

end Sys2Proof.Machine
end

section
/-! The wiring invariant (40_register_writes.md R92, 42_phase_noise_rhythm.md R148, R153, 44_router.md R177, R186): the types
agree with the mode registers, and codes, sources and taps stay inside the channel and its pair. -/

namespace Sys2Proof.Machine

/-! ### Its two halves -/

/-- The types agree with FOUROP and RHY. -/
structure Chip.TypesAgree (c : Chip) : Prop where
  typeA : ∀ i : Fin 18, (c.ch i).chtype = .t4opA → i.val % 9 < 3 ∧ (c.ch (pairOf i)).chtype = .t4opB
  typeB : ∀ i : Fin 18, (c.ch i).chtype = .t4opB → 3 ≤ i.val % 9 ∧ i.val % 9 < 6 ∧ (c.ch (pairOf i)).chtype = .t4opA
  typeDrum : ∀ i : Fin 18, (c.ch i).chtype = .tdrum ↔ c.reg.rhy.getLsbD 5 = true ∧ IsDrum i
  mask : ∀ k : Fin 6, c.reg.fourop.getLsbD k = true ↔ (c.ch (pairLower k)).chtype = .t4opA

/-- The code is one the router may give the channel. -/
def codeFits (i : Fin 18) (x : Alg) : Prop :=
  (x = .merged8 → i.val % 9 < 3) ∧ (x ∈ [Alg.four4, .four5, .four6, .four7] → 3 ≤ i.val % 9 ∧ i.val % 9 < 6)

/-- Each of the four taps is inside the channel and its pair. -/
def tapsLocal (i : Fin 18) (t : Quad Source) : Prop := tapLocal i t.a ∧ tapLocal i t.b ∧ tapLocal i t.c ∧ tapLocal i t.d

/-- Codes, sources and taps stay inside the channel and its pair. -/
structure Chip.RoutedLocally (c : Chip) : Prop where
  alg : ∀ i, codeFits i (c.ch i).alg
  modsrc : ∀ o, modsrcLocal o (c.op o).modsrc
  taps : ∀ i, tapsLocal i (c.ch i).tap

theorem Chip.wired_iff (c : Chip) : c.Wired ↔ c.TypesAgree ∧ c.RoutedLocally := by
  constructor
  · intro h
    exact ⟨⟨h.typeA, h.typeB, fun i => by rw [isDrum_iff]; exact h.typeDrum i, h.mask⟩,
      ⟨fun i => ⟨h.algMerged i, h.algFour i⟩, h.modsrc, h.taps⟩⟩
  · rintro ⟨ht, hl⟩
    exact ⟨ht.typeA, ht.typeB, fun i => by rw [← isDrum_iff]; exact ht.typeDrum i, ht.mask, fun i => (hl.alg i).1,
      fun i => (hl.alg i).2, hl.modsrc, hl.taps⟩

/-! ### Sources and taps inside the pair -/

theorem modsrcLocal_zero (o : Fin 36) : modsrcLocal o .zero := .inl rfl

theorem modsrcLocal_fb (o : Fin 36) : modsrcLocal o (.fb o) := .inr (.inl rfl)

theorem modsrcLocal_first (i : Fin 18) : modsrcLocal (slot1 i) (.out (slot0 i)) :=
  .inr (.inr ⟨_, slot0_lt_slot1 i, rfl, .inl ((chanOf_slot0 i).trans (chanOf_slot1 i).symm)⟩)

/-- The pair of an upper channel has the lower operators. -/
theorem modsrcLocal_pair {i : Fin 18} (hi : 3 ≤ i.val % 9 ∧ i.val % 9 < 6) : modsrcLocal (slot0 i) (.out (slot1 (pairOf i))) := by
  have below : ∀ i : Fin 18, 3 ≤ i.val % 9 ∧ i.val % 9 < 6 → slot1 (pairOf i) < slot0 i := by decide
  exact .inr (.inr ⟨_, below i hi, rfl, .inr ((chanOf_slot1 _).trans (congrArg pairOf (chanOf_slot0 i)).symm)⟩)

theorem tapLocal_zero (i : Fin 18) : tapLocal i .zero := .inl rfl

theorem tapLocal_own {i : Fin 18} {o : Fin 36} (h : chanOf o = i) : tapLocal i (.out o) := .inr ⟨o, rfl, .inl h⟩

theorem tapLocal_pair {i : Fin 18} {o : Fin 36} (h : chanOf o = pairOf i) : tapLocal i (.out o) := .inr ⟨o, rfl, .inr h⟩

theorem tapsLocal_zero (i : Fin 18) : tapsLocal i (Quad.all .zero) :=
  ⟨tapLocal_zero i, tapLocal_zero i, tapLocal_zero i, tapLocal_zero i⟩

/-! ### The router keeps them inside -/

section
variable {c d : Chip}

theorem Chip.RoutedLocally.setModsrc (h : c.RoutedLocally) {o : Fin 36} {s : Source} (hs : modsrcLocal o s) :
    (setModsrc o s c).RoutedLocally where
  alg := h.alg
  modsrc o' := by
    rw [op_setModsrc]
    split
    · next e => exact e ▸ hs
    · exact h.modsrc o'
  taps := h.taps

theorem Chip.RoutedLocally.setTap (h : c.RoutedLocally) {i : Fin 18} {t : Quad Source} (ht : tapsLocal i t) :
    (setTap i t c).RoutedLocally where
  alg j := by
    rw [ch_setTap]
    split
    · exact h.alg j
    · exact h.alg j
  modsrc := h.modsrc
  taps j := by
    rw [ch_setTap]
    split
    · next e => exact e ▸ ht
    · exact h.taps j

theorem Chip.RoutedLocally.setAlgCode (h : c.RoutedLocally) {i : Fin 18} {x : Alg} (hx : codeFits i x) :
    (setAlgCode i x c).RoutedLocally where
  alg j := by
    rw [ch_setAlgCode]
    split
    · next e => exact e ▸ hx
    · exact h.alg j
  modsrc := h.modsrc
  taps j := by
    rw [setAlgCode_tap]
    exact h.taps j

/-- What keeps the wiring keeps it inside the channels and their pairs. -/
theorem Chip.RoutedLocally.of_sameWiring (h : c.RoutedLocally) (hs : SameWiring c d) : d.RoutedLocally where
  alg i := (hs.2 i).2.1 ▸ h.alg i
  modsrc o := (hs.1 o) ▸ h.modsrc o
  taps i := (hs.2 i).1 ▸ h.taps i

variable {i : Fin 18}

theorem wireTwo_routedLocally (b : Bool) (h : c.RoutedLocally) : (wireTwo i b c).RoutedLocally := by
  have zero := tapLocal_zero i
  have out0 : tapLocal i (.out (slot0 i)) := tapLocal_own (chanOf_slot0 i)
  have out1 : tapLocal i (.out (slot1 i)) := tapLocal_own (chanOf_slot1 i)
  have first := h.setModsrc (modsrcLocal_fb (slot0 i))
  cases b with
  | false => exact (first.setModsrc (modsrcLocal_first i)).setTap ⟨out1, zero, zero, zero⟩
  | true => exact (first.setModsrc (modsrcLocal_zero _)).setTap ⟨out0, out1, zero, zero⟩

theorem wireFour_routedLocally {s1 s2 s3 : Source} {t : Quad Source} (h : c.RoutedLocally)
    (h1 : modsrcLocal (slot1 (pairOf i)) s1) (h2 : modsrcLocal (slot0 i) s2) (h3 : modsrcLocal (slot1 i) s3)
    (ht : tapsLocal i t) : (wireFour i s1 s2 s3 t c).RoutedLocally :=
  (((((h.setModsrc (modsrcLocal_fb _)).setModsrc h1).setModsrc h2).setModsrc h3).setTap ht).setTap (tapsLocal_zero _)

theorem wireDrum_routedLocally (h : c.RoutedLocally) : (wireDrum i c).RoutedLocally := by
  obtain ⟨x, y, he, hx, hy⟩ := wireDrum_eq_setModsrc i c
  have first : modsrcLocal (slot0 i) x := hx.elim (fun e => e ▸ modsrcLocal_zero _) fun e => e ▸ modsrcLocal_fb _
  have second : modsrcLocal (slot1 i) y := hy.elim (fun e => e ▸ modsrcLocal_zero _) fun e => e ▸ modsrcLocal_first i
  rw [he]
  exact (h.setModsrc first).setModsrc second

theorem setupAlg_routedLocally (h : c.RoutedLocally) : (setupAlg i c).RoutedLocally := by
  have zero := tapLocal_zero i
  have p0 : tapLocal i (.out (slot0 (pairOf i))) := tapLocal_pair (chanOf_slot0 _)
  have p1 : tapLocal i (.out (slot1 (pairOf i))) := tapLocal_pair (chanOf_slot1 _)
  have s0 : tapLocal i (.out (slot0 i)) := tapLocal_own (chanOf_slot0 i)
  have s1 : tapLocal i (.out (slot1 i)) := tapLocal_own (chanOf_slot1 i)
  have serial := modsrcLocal_first i
  have serialPair := modsrcLocal_first (pairOf i)
  have none := modsrcLocal_zero
  have upper (hx : (c.ch i).alg ∈ [Alg.four4, .four5, .four6, .four7]) : modsrcLocal (slot0 i) (.out (slot1 (pairOf i))) :=
    modsrcLocal_pair ((h.alg i).2 hx)
  unfold setupAlg
  dsimp only
  split
  · exact wireDrum_routedLocally h
  · cases halg : (c.ch i).alg with
    | merged8 => exact h
    | four4 => exact wireFour_routedLocally h serialPair (upper (by simp [halg])) serial ⟨s1, zero, zero, zero⟩
    | four5 => exact wireFour_routedLocally h serialPair (none _) serial ⟨p1, s1, zero, zero⟩
    | four6 => exact wireFour_routedLocally h (none _) (upper (by simp [halg])) serial ⟨p0, s1, zero, zero⟩
    | four7 => exact wireFour_routedLocally h (none _) (upper (by simp [halg])) (none _) ⟨p0, s0, s1, zero⟩
    | two0 => exact wireTwo_routedLocally false h
    | two1 => exact wireTwo_routedLocally true h

theorem codeFits_twoOpAlg (i : Fin 18) (con : Bool) : codeFits i (twoOpAlg con) := by
  cases con <;> simp [codeFits, twoOpAlg]

theorem codeFits_mergedAlg {i : Fin 18} (hi : 3 ≤ i.val % 9 ∧ i.val % 9 < 6) (conA conB : Bool) :
    codeFits i (mergedAlg conA conB) := by
  refine ⟨?_, fun _ => hi⟩
  cases conA <;> cases conB <;> simp [mergedAlg]

theorem codeFits_merged8 {i : Fin 18} (hi : i.val % 9 < 3) : codeFits i .merged8 := ⟨fun _ => hi, by simp⟩

theorem updateAlg_routedLocally (h : c.RoutedLocally) (hA : (c.ch i).chtype = .t4opA → i.val % 9 < 3)
    (hB : (c.ch i).chtype = .t4opB → 3 ≤ i.val % 9 ∧ i.val % 9 < 6) : (updateAlg i c).RoutedLocally := by
  have two := h.setAlgCode (codeFits_twoOpAlg i (c.ch i).con)
  by_cases hm : c.Merged i
  · rcases hm with ⟨hnew, ht | ht⟩
    · obtain ⟨hp, hp'⟩ := pairOf_lower i (hA ht)
      have hpair := (pairOf_spec i (by have := hA ht; omega)).2.2
      rw [updateAlg_of_leads hnew ht]
      exact setupAlg_routedLocally
        ((two.setAlgCode (codeFits_mergedAlg ⟨hp', hpair⟩ _ _)).setAlgCode (codeFits_merged8 (hA ht)))
    · rw [updateAlg_of_follows hnew ht]
      exact setupAlg_routedLocally
        ((two.setAlgCode (codeFits_mergedAlg (hB ht) _ _)).setAlgCode (codeFits_merged8 (pairOf_upper i (hB ht))))
  · rw [updateAlg_of_not_merged hm]
    exact setupAlg_routedLocally two

end

end Sys2Proof.Machine
end

section
/-! The wiring invariant under every register write, and under every step. -/

namespace Sys2Proof.Machine

variable {c d : Chip}

/-! ### Writes that do not rewire (44_router.md R185) -/

/-- The global registers and the wiring are the same. -/
abbrev KeepsWiring : Chip → Chip → Prop := Keeps Operator.modsrc fun ch => (ch.tap, ch.alg, ch.chtype)

theorem Keeps.sameWiring (h : KeepsWiring c d) : SameWiring c d := by
  refine ⟨h.op, fun i => ?_⟩
  have hi := h.ch i
  rw [Prod.mk.injEq, Prod.mk.injEq] at hi
  exact hi

theorem Chip.TypesAgree.of_chtype (h : c.TypesAgree) (ht : ∀ i, (d.ch i).chtype = (c.ch i).chtype)
    (hrhy : d.reg.rhy = c.reg.rhy) (hfour : d.reg.fourop = c.reg.fourop) : d.TypesAgree where
  typeA i := by rw [ht, ht]; exact h.typeA i
  typeB i := by rw [ht, ht]; exact h.typeB i
  typeDrum i := by rw [ht, hrhy]; exact h.typeDrum i
  mask k := by rw [ht, hfour]; exact h.mask k

theorem freqFollow_wiring (i : Fin 18) (withBlock : Bool) (c : Chip) : KeepsWiring c (freqFollow i withBlock c) :=
  (freqFollow_frame i withBlock c).mono (fun _ _ h => (congrArg Operator.modsrc h :))
    fun _ _ h => (congrArg (fun ch : Channel => (ch.tap, ch.alg, ch.chtype)) h :)

theorem keySet_wiring (i : Fin 18) (v : Bool) (c : Chip) : KeepsWiring c (keySet i v c) :=
  (keySet_frame i v c).mono (fun _ _ h => (congrArg Operator.modsrc h :))
    fun _ _ h => congrArg (fun ch : Channel => (ch.tap, ch.alg, ch.chtype)) h

theorem wrCha0_wiring (i : Fin 18) (b : Byte) (c : Chip) : KeepsWiring c (wrCha0 i b c) := by
  rw [wrCha0_eq]
  split
  · exact Keeps.refl c
  · exact Keeps.trans (Keeps.modCh i (setFreqLow b) fun _ => rfl) (freqFollow_wiring ..)

theorem wrChb0_wiring (i : Fin 18) (b : Byte) (c : Chip) : KeepsWiring c (wrChb0 i b c) := by
  rw [wrChb0_eq]
  refine Keeps.trans ?_ (keySet_wiring ..)
  split
  · exact Keeps.refl c
  · exact Keeps.trans (Keeps.modCh i (setFreqHigh b) fun _ => rfl) (freqFollow_wiring ..)

theorem wrChd0_wiring (i : Fin 18) (b : Byte) (c : Chip) : KeepsWiring c (wrChd0 i b c) := by
  unfold wrChd0
  split
  · exact Keeps.modCh i _ fun _ => rfl
  · exact Keeps.refl c

theorem wrOp40_wiring (o : Fin 36) (b : Byte) (c : Chip) : KeepsWiring c (wrOp40 o b c) := by
  rw [wrOp40_eq]
  exact Keeps.modOp o _ fun _ => rfl

/-- A write of a class that does not rewire leaves the wiring and the two mode registers alone. -/
theorem regWrite_of_not_rewires {a : Addr} (h : rewires (classify a) = false) (b : Byte) (c : Chip) :
    SameWiring c (regWrite params a b c) ∧ (regWrite params a b c).reg.rhy = c.reg.rhy
      ∧ (regWrite params a b c).reg.fourop = c.reg.fourop := by
  have keeps {d : Chip} (hk : KeepsWiring c d) :
      SameWiring c d ∧ d.reg.rhy = c.reg.rhy ∧ d.reg.fourop = c.reg.fourop :=
    ⟨hk.sameWiring, congrArg GlobalRegs.rhy hk.reg, congrArg GlobalRegs.fourop hk.reg⟩
  have global {r : GlobalRegs} (hrhy : r.rhy = c.reg.rhy) (hfour : r.fourop = c.reg.fourop) :
      SameWiring c { c with reg := r } ∧ r.rhy = c.reg.rhy ∧ r.fourop = c.reg.fourop :=
    ⟨⟨fun _ => rfl, fun _ => ⟨rfl, rfl, rfl⟩⟩, hrhy, hfour⟩
  unfold regWrite
  cases hcl : classify a with
  | fourOp => simp [hcl, rewires] at h
  | bd => simp [hcl, rewires] at h
  | chc0 i => simp [hcl, rewires] at h
  | nts => exact global (r := { c.reg with nts := b.getLsbD 6 }) rfl rfl
  | mode => exact global (r := { c.reg with newm := b.getLsbD 0, stereoext := b.getLsbD 1 }) rfl rfl
  | op20 o => exact keeps (Keeps.modOp o _ fun _ => rfl)
  | op40 o => exact keeps (wrOp40_wiring o b c)
  | op60 o => exact keeps (Keeps.modOp o _ fun _ => rfl)
  | op80 o => exact keeps (Keeps.modOp o _ fun _ => rfl)
  | ope0 o => exact keeps (Keeps.modOp o _ fun _ => rfl)
  | cha0 i => exact keeps (wrCha0_wiring i b c)
  | chb0 i => exact keeps (wrChb0_wiring i b c)
  | chd0 i => exact keeps (wrChd0_wiring i b c)
  | ign => exact keeps (Keeps.refl c)

/-! ### WR_CHC0 -/

theorem wrChc0_typesAgree (i : Fin 18) (b : Byte) (h : c.TypesAgree) : (wrChc0 i b c).TypesAgree := by
  have hreg := wrChc0_reg i b c
  refine h.of_chtype (fun j => ?_) (congrArg GlobalRegs.rhy hreg) (congrArg GlobalRegs.fourop hreg)
  exact (congrArg Prod.snd ((wrChc0_keeps i b c).ch j)).trans (setConnection_chtype i b c j)

theorem wrChc0_routedLocally (i : Fin 18) (b : Byte) (h : c.Wired) : (wrChc0 i b c).RoutedLocally := by
  obtain ⟨-, hlocal⟩ := (Chip.wired_iff c).mp h
  have connection : KeepsWiring c (setConnection i b c) := Keeps.modCh i _ fun _ => rfl
  have routed := updateAlg_routedLocally (i := i) (hlocal.of_sameWiring connection.sameWiring)
    (fun hA => (h.typeA i ((setConnection_chtype ..).symm.trans hA)).1)
    (fun hB => by obtain ⟨hlo, hhi, -⟩ := h.typeB i ((setConnection_chtype ..).symm.trans hB); exact ⟨hlo, hhi⟩)
  have outputs : KeepsWiring (updateAlg i (setConnection i b c)) (wrChc0 i b c) :=
    (setOutputs_frame i b _).mono (fun _ _ h => congrArg Operator.modsrc h) fun _ _ h => h
  exact routed.of_sameWiring outputs.sameWiring

/-! ### WR_4OP -/

theorem Chip.RoutedLocally.setChtype (h : c.RoutedLocally) (i : Fin 18) (t : ChType) : (setChtype i t c).RoutedLocally where
  alg j := by rw [(setChtype_alg i t c).ch j]; exact h.alg j
  modsrc := h.modsrc
  taps j := by
    rw [ch_setChtype]
    split
    · exact h.taps j
    · exact h.taps j

theorem wr4opPair_routedLocally (b : Byte) (k : Fin 6) (h : c.RoutedLocally) : (wr4opPair b c k).RoutedLocally := by
  have hlower := (pairLower_spec k).1
  have hne := pairLower_pairOf_ne k
  have types (s t : ChType) : (setPairTypes (pairLower k) s t c).RoutedLocally := (h.setChtype _ _).setChtype _ _
  have single {c : Chip} {i : Fin 18} (hc : c.RoutedLocally) (ht : (c.ch i).chtype = .t2op) : (updateAlg i c).RoutedLocally :=
    updateAlg_routedLocally hc (fun hA => nomatch ht.symm.trans hA) (fun hB => nomatch ht.symm.trans hB)
  rw [wr4opPair_eq]
  split
  · have typeA : ((setPairTypes (pairLower k) .t4opA .t4opB c).ch (pairLower k)).chtype = .t4opA := by
      rw [setPairTypes_lower _ _ hne]
    exact updateAlg_routedLocally (types ..) (fun _ => hlower) fun hB => nomatch typeA.symm.trans hB
  · have lower : ((setPairTypes (pairLower k) .t2op .t2op c).ch (pairLower k)).chtype = .t2op := by
      rw [setPairTypes_lower _ _ hne]
    refine single (single (types ..) lower) ?_
    rw [(updateAlg_t2op lower).2.2.2.ch _ hne, setPairTypes_upper _ _ hne]

theorem wr4op_routedLocally (b : Byte) (h : c.RoutedLocally) : (wr4op b c).RoutedLocally := by
  have start : (setFourop b c).RoutedLocally := h.of_sameWiring ⟨fun _ => rfl, fun _ => ⟨rfl, rfl, rfl⟩⟩
  rw [wr4op_eq]
  exact List.foldlRecOn _ _ start fun d hd k _ => wr4opPair_routedLocally b k hd

theorem wr4op_types (b : Byte) (c : Chip) (k : Fin 6) :
    ((wr4op b c).ch (pairLower k)).chtype = (if b.getLsbD k then .t4opA else .t2op)
      ∧ ((wr4op b c).ch (pairOf (pairLower k))).chtype = (if b.getLsbD k then .t4opB else .t2op) := by
  cases hb : b.getLsbD k with
  | true =>
    cases hnew : c.reg.newm with
    | true =>
      obtain ⟨typeA, typeB, -⟩ := wr4op_fourOp c k hb hnew
      exact ⟨typeA, typeB⟩
    | false =>
      obtain ⟨typeA, chB, -⟩ := wr4op_oldMode c k hb hnew
      exact ⟨typeA, congrArg Channel.chtype chB⟩
  | false => exact ⟨(wr4op_disabled c k hb (.inl rfl)).1, (wr4op_disabled c k hb (.inr rfl)).1⟩

theorem exists_inPair {i : Fin 18} (hi : i.val % 9 < 6) : ∃ k, InPair k i := by
  unfold InPair
  revert i
  decide

/-- The types of a channel of a pair after WR_4OP, with the place each type has in the pair. -/
theorem wr4op_type_cases (b : Byte) (c : Chip) {i : Fin 18} (hi : i.val % 9 < 6) :
    (((wr4op b c).ch i).chtype = .t4opA ∧ i.val % 9 < 3 ∧ ((wr4op b c).ch (pairOf i)).chtype = .t4opB)
      ∨ (((wr4op b c).ch i).chtype = .t4opB ∧ 3 ≤ i.val % 9 ∧ ((wr4op b c).ch (pairOf i)).chtype = .t4opA)
      ∨ ((wr4op b c).ch i).chtype = .t2op := by
  obtain ⟨k, hk⟩ := exists_inPair hi
  obtain ⟨lower, upper⟩ := wr4op_types b c k
  have hlower := (pairLower_spec k).1
  cases hb : b.getLsbD k with
  | true =>
    rw [hb, if_pos rfl] at lower upper
    rcases hk with rfl | rfl
    · exact .inl ⟨lower, hlower, upper⟩
    · exact .inr (.inl ⟨upper, (pairOf_lower _ hlower).2, (pairOf_pairOf _).symm ▸ lower⟩)
  | false =>
    rw [hb, if_neg Bool.false_ne_true] at lower upper
    rcases hk with rfl | rfl
    · exact .inr (.inr lower)
    · exact .inr (.inr upper)

theorem wr4op_typesAgree (b : Byte) (h : c.TypesAgree) : (wr4op b c).TypesAgree := by
  have other {i : Fin 18} (hi : ¬i.val % 9 < 6) : ((wr4op b c).ch i).chtype = (c.ch i).chtype :=
    congrArg Channel.chtype ((wr4op_outside b c).ch i hi)
  have hrhy : (wr4op b c).reg.rhy = c.reg.rhy := by rw [wr4op_reg]
  constructor
  · intro i ht
    by_cases hi : i.val % 9 < 6
    · rcases wr4op_type_cases b c hi with ⟨-, hlo, hp⟩ | ⟨e, -⟩ | e
      · exact ⟨hlo, hp⟩
      · cases ht.symm.trans e
      · cases ht.symm.trans e
    · have := (h.typeA i ((other hi).symm.trans ht)).1
      omega
  · intro i ht
    by_cases hi : i.val % 9 < 6
    · rcases wr4op_type_cases b c hi with ⟨e, -⟩ | ⟨-, hlo, hp⟩ | e
      · cases ht.symm.trans e
      · exact ⟨hlo, hi, hp⟩
      · cases ht.symm.trans e
    · obtain ⟨-, hhi, -⟩ := h.typeB i ((other hi).symm.trans ht)
      omega
  · intro i
    rw [hrhy]
    by_cases hi : i.val % 9 < 6
    · refine iff_of_false (fun ht => ?_) fun hd => ?_
      · rcases wr4op_type_cases b c hi with ⟨e, -⟩ | ⟨e, -⟩ | e <;> cases ht.symm.trans e
      · obtain ⟨hlo, hhi⟩ := hd.2
        omega
    · rw [other hi]
      exact h.typeDrum i
  · intro k
    have bit : (b.extractLsb' 0 6).getLsbD k = b.getLsbD k := by simp
    rw [wr4op_reg, (wr4op_types b c k).1]
    dsimp only
    rw [bit]
    cases b.getLsbD k <;> simp

/-! ### WR_BD -/

theorem setDrumTypes_routedLocally (h : c.RoutedLocally) : (setDrumTypes c).RoutedLocally where
  alg i := by
    rw [setDrumTypes_ch]
    split <;> exact h.alg i
  modsrc o := by
    rw [setDrumTypes_op]
    exact h.modsrc o
  taps i := by
    rw [setDrumTypes_ch]
    split
    · exact ⟨tapLocal_own (chanOf_slot0 i), tapLocal_own (chanOf_slot1 i), tapLocal_zero i, tapLocal_zero i⟩
    · exact h.taps i

theorem undrum_routedLocally (i : Fin 18) (h : c.RoutedLocally) : (undrum c i).RoutedLocally := by
  have routed := setupAlg_routedLocally (i := i) (h.setChtype i .t2op)
  refine routed.of_sameWiring (Keeps.sameWiring (Keeps.trans ?_ (Keeps.modOp (slot1 i) (setRhythmKey false) fun _ => rfl)))
  exact Keeps.modOp (slot0 i) (setRhythmKey false) fun _ => rfl

theorem wrBd_routedLocally (b : Byte) (h : c.RoutedLocally) : (wrBd params b c).RoutedLocally := by
  have start : (setDepths b c).RoutedLocally := h.of_sameWiring ⟨fun _ => rfl, fun _ => ⟨rfl, rfl, rfl⟩⟩
  cases hb : b.getLsbD 5 with
  | true =>
    have hrhy : (b.extractLsb' 0 6).getLsbD 5 = true := by simpa using hb
    have routed := setDrumTypes_routedLocally start
    rw [wrBd_on hb]
    generalize setDrumTypes (setDepths b c) = c' at *
    refine Chip.RoutedLocally.of_sameWiring (c := wireDrums c') ?_
      ⟨fun o => setDrumKeys_modsrc hrhy .., fun i => by rw [setDrumKeys_ch]; exact ⟨rfl, rfl, rfl⟩⟩
    exact wireDrum_routedLocally (wireDrum_routedLocally (wireDrum_routedLocally routed))
  | false =>
    rw [wrBd_off hb]
    exact List.foldlRecOn _ _ start fun d hd i _ => undrum_routedLocally i hd

theorem wrBd_typesAgree (b : Byte) (h : c.TypesAgree) : (wrBd params b c).TypesAgree := by
  have other {i : Fin 18} (hi : ¬IsDrum i) : ((wrBd params b c).ch i).chtype = (c.ch i).chtype :=
    congrArg Channel.chtype ((wrBd_outside b c).ch i hi)
  have drum {i : Fin 18} (hi : IsDrum i) : ((wrBd params b c).ch i).chtype = if b.getLsbD 5 then .tdrum else .t2op := by
    rw [wrBd_ch b hi]
  have notPaired {i : Fin 18} (hi : i.val % 9 < 6) : ¬IsDrum i := fun hd => by omega
  have pair {i : Fin 18} (hi : i.val % 9 < 6) : ((wrBd params b c).ch (pairOf i)).chtype = (c.ch (pairOf i)).chtype :=
    other (notPaired (pairOf_spec i hi).2.2)
  constructor
  · intro i ht
    by_cases hi : IsDrum i
    · rw [drum hi] at ht
      split at ht <;> cases ht
    · obtain ⟨hlo, hp⟩ := h.typeA i ((other hi).symm.trans ht)
      exact ⟨hlo, (pair (by omega)).trans hp⟩
  · intro i ht
    by_cases hi : IsDrum i
    · rw [drum hi] at ht
      split at ht <;> cases ht
    · obtain ⟨hlo, hhi, hp⟩ := h.typeB i ((other hi).symm.trans ht)
      exact ⟨hlo, hhi, (pair hhi).trans hp⟩
  · intro i
    have bit : (b.extractLsb' 0 6).getLsbD 5 = b.getLsbD 5 := by simp
    by_cases hi : IsDrum i
    · rw [drum hi, wrBd_reg]
      show _ ↔ (b.extractLsb' 0 6).getLsbD 5 = true ∧ IsDrum i
      rw [bit, and_iff_left hi]
      cases b.getLsbD 5 <;> simp
    · rw [other hi]
      exact iff_of_false (fun ht => hi ((h.typeDrum i).mp ht).2) fun hd => hi hd.2
  · intro k
    have hk := (pairLower_spec k).1
    rw [wrBd_reg, other (notPaired (by omega))]
    exact h.mask k

/-! ### Every write and every step -/

theorem regWrite_wired (a : Addr) (b : Byte) (c : Chip) (h : c.Wired) : (regWrite params a b c).Wired := by
  obtain ⟨types, routed⟩ := (Chip.wired_iff c).mp h
  rw [Chip.wired_iff]
  cases hcl : classify a
  case fourOp =>
    have hw : regWrite params a b c = wr4op b c := by simp only [regWrite, hcl]
    exact hw ▸ ⟨wr4op_typesAgree b types, wr4op_routedLocally b routed⟩
  case bd =>
    have hw : regWrite params a b c = wrBd params b c := by simp only [regWrite, hcl]
    exact hw ▸ ⟨wrBd_typesAgree b types, wrBd_routedLocally b routed⟩
  case chc0 i =>
    have hw : regWrite params a b c = wrChc0 i b c := by simp only [regWrite, hcl]
    exact hw ▸ ⟨wrChc0_typesAgree i b types, wrChc0_routedLocally i b h⟩
  all_goals
    obtain ⟨same, hrhy, hfour⟩ := regWrite_of_not_rewires (a := a) (by rw [hcl]; rfl) b c
    exact ⟨types.of_chtype (fun i => (same.2 i).2.2) hrhy hfour, routed.of_sameWiring same⟩

theorem wired_ofProgram : OfProgram Chip.Wired := fun c d hchs hreg hprog h => by
  have hch (i : Fin 18) : d.ch i = c.ch i := congrArg (·[i]) hchs
  obtain ⟨types, routed⟩ := (Chip.wired_iff c).mp h
  refine (Chip.wired_iff d).mpr ⟨types.of_chtype (fun i => by rw [hch]) (by rw [hreg]) (by rw [hreg]), ?_⟩
  exact routed.of_sameWiring ⟨fun o => congrArg OperatorProg.modsrc (hprog o), fun i => by rw [hch]; exact ⟨rfl, rfl, rfl⟩⟩

/-- Settles O58: the types and the routing are kept by every class of write, the invariant looks at programmed state
only, and RESET sets it up. -/
theorem stepKeepsWiring : Obligations.StepKeepsWiring := by
  unfold Obligations.StepKeepsWiring
  exact step_keeps (P := Chip.Wired) (commandEffect_preserves wired_ofProgram regWrite_wired)
    fun rate _ _ => resetChip_wired params rate

end Sys2Proof.Machine
end

section
/-! WR_CHA0 and WR_CHB0 (40_register_writes.md R96 to R98, R102, R110, R111): the derived values in the arithmetic of the rules,
and what the frequency and key procedures make of the voices they reach. -/

namespace Sys2Proof.Machine

/-! ### Derived values -/

/-- The subtraction that stops at 0 (40_register_writes.md R111). -/
theorem kslOf_eq (ch : Channel) : kslOf ch = kslValue ch.fNum ch.block := by
  have stops (r b : Nat) : (if (r : Int) - (b : Int) < 0 then 0 else (r : Int) - (b : Int)) = ((r - b : Nat) : Int) := by omega
  unfold kslOf kslValue
  dsimp only
  rw [stops, BitVec.ofInt_natCast, Nat.shiftLeft_eq, Nat.shiftLeft_eq, Nat.mul_comm _ (2 ^ 2), Nat.mul_comm _ (2 ^ 5)]

theorem ksvOf_eq (nts : Bool) (ch : Channel) : ksvOf nts ch = ksvValue nts ch.fNum ch.block := by
  have join : ∀ (x : BitVec 3) (y : Bool), BitVec.ofNat 4 (2 * x.toNat + bitNat y) = x ++ BitVec.ofBool y := by decide
  unfold ksvOf ksvValue
  rw [join]
  cases nts <;> rfl

/-- F_NUM from its two parts. -/
theorem fNum_eq_append {x : BitVec 10} {high : BitVec 2} {low : BitVec 8} (hhigh : x.extractLsb' 8 2 = high)
    (hlow : x.extractLsb' 0 8 = low) : x = high ++ low :=
  fNum_eq (hlow.trans BitVec.extractLsb'_append_eq_right.symm) (hhigh.trans BitVec.extractLsb'_append_eq_left.symm)

theorem setFreqLow_eq (b : Byte) (ch : Channel) : setFreqLow b ch = { ch with fNum := ch.fNum.extractLsb' 8 2 ++ b } :=
  congrArg (fun f => { ch with fNum := f }) (fNum_eq_append (setFreqLow_high b ch) (setFreqLow_low b ch))

theorem setFreqHigh_eq (b : Byte) (ch : Channel) : setFreqHigh b ch =
    { ch with fNum := b.extractLsb' 0 2 ++ ch.fNum.extractLsb' 0 8, block := b.extractLsb' 2 3 } :=
  congrArg (fun f => { ch with fNum := f, block := b.extractLsb' 2 3 })
    (fNum_eq_append (setFreqHigh_high b ch) (setFreqHigh_low b ch))

theorem setNormalKey_eq (v : Bool) (op : Operator) :
    setNormalKey v op = { op with key := op.key.extractLsb' 1 1 ++ BitVec.ofBool v } := by
  have bits : ∀ (v : Bool) (k : BitVec 2),
      (k &&& 0b10) ||| (if v then 0b01 else 0b00) = k.extractLsb' 1 1 ++ BitVec.ofBool v := by decide
  unfold setNormalKey
  rw [bits]

theorem setNormalKey_idempotent (v : Bool) (op : Operator) : setNormalKey v (setNormalKey v op) = setNormalKey v op := by
  simp only [setNormalKey_eq]
  rw [BitVec.extractLsb'_append_eq_left]

/-! ### The frequency procedure (40_register_writes.md R102) -/

/-- A frequency or key write to channel `i` reaches channel `j`: itself, or the pair it leads (40_register_writes.md R98, R102). -/
def Chip.Reaches (c : Chip) (i j : Fin 18) : Prop :=
  j = i ∨ ((c.reg.newm = true ∧ (c.ch i).chtype = .t4opA) ∧ j = pairOf i)

section
variable (i : Fin 18) (c : Chip)

theorem updateKsl_both_op (o : Fin 36) : (updateKsl (slot1 i) (updateKsl (slot0 i) c)).op o =
    if chanOf o = i then { c.op o with egKsl := kslOf (c.ch i) } else c.op o := by
  have both : updateKsl (slot1 i) (updateKsl (slot0 i) c) =
      (c.modOp (slot0 i) fun op => { op with egKsl := kslOf (c.ch i) }).modOp (slot1 i) fun op =>
        { op with egKsl := kslOf (c.ch i) } := by
    unfold updateKsl
    rw [chanOf_slot0, chanOf_slot1]
    rfl
  rw [both, op_modOp_both]

theorem updateKsl_both_ch (j : Fin 18) : (updateKsl (slot1 i) (updateKsl (slot0 i) c)).ch j = c.ch j := rfl

theorem updateKsv_ch_eq (j : Fin 18) :
    (updateKsv i c).ch j = if j = i then { c.ch i with ksv := ksvOf c.reg.nts (c.ch i) } else c.ch j := by
  unfold updateKsv
  rw [ch_modCh]
  simp only [eq_comm]

/-- The channel's own part of the procedure. -/
def freqOwn (i : Fin 18) (c : Chip) : Chip := updateKsl (slot1 i) (updateKsl (slot0 i) (updateKsv i c))

/-- The part that follows for a pair the channel leads. -/
def freqPair (i : Fin 18) (withBlock : Bool) (c : Chip) : Chip :=
  updateKsl (slot1 (pairOf i)) (updateKsl (slot0 (pairOf i)) (copyFreq (pairOf i) withBlock (c.ch i) c))

theorem freqOwn_ch (j : Fin 18) :
    (freqOwn i c).ch j = if j = i then { c.ch i with ksv := ksvOf c.reg.nts (c.ch i) } else c.ch j := updateKsv_ch_eq i c j

theorem freqOwn_op (o : Fin 36) :
    (freqOwn i c).op o = if chanOf o = i then { c.op o with egKsl := kslOf (c.ch i) } else c.op o := by
  rw [freqOwn, updateKsl_both_op, updateKsv_ch_eq, if_pos rfl]
  rfl

theorem freqPair_ch (withBlock : Bool) (j : Fin 18) : (freqPair i withBlock c).ch j =
    if j = pairOf i then
      { c.ch j with
        fNum := (c.ch i).fNum, block := if withBlock then (c.ch i).block else (c.ch j).block, ksv := (c.ch i).ksv }
    else c.ch j := by
  rw [freqPair, updateKsl_both_ch, copyFreq, ch_modCh]
  by_cases h : j = pairOf i
  · rw [if_pos h, if_pos h.symm, h]
  · rw [if_neg h, if_neg (Ne.symm h)]

theorem freqPair_op (withBlock : Bool) (o : Fin 36) : (freqPair i withBlock c).op o =
    if chanOf o = pairOf i then { c.op o with egKsl := kslOf ((freqPair i withBlock c).ch (chanOf o)) } else c.op o := by
  by_cases h : chanOf o = pairOf i
  · rw [h, if_pos rfl, freqPair, updateKsl_both_op, if_pos h, updateKsl_both_ch]
    rfl
  · rw [if_neg h, freqPair, updateKsl_both_op, if_neg h]
    rfl

variable {i c} {withBlock : Bool}

theorem freqFollow_of_leads (h : c.reg.newm = true ∧ (c.ch i).chtype = .t4opA) :
    freqFollow i withBlock c = freqPair i withBlock (freqOwn i c) := by
  have ht : ((freqOwn i c).ch i).chtype = .t4opA := by rw [freqOwn_ch, if_pos rfl]; exact h.2
  exact if_pos ⟨h.1, ht⟩

theorem freqFollow_of_not_leads (h : ¬(c.reg.newm = true ∧ (c.ch i).chtype = .t4opA)) :
    freqFollow i withBlock c = freqOwn i c := by
  refine if_neg fun h' => h ⟨h'.1, Eq.trans ?_ h'.2⟩
  show (c.ch i).chtype = ((freqOwn i c).ch i).chtype
  rw [freqOwn_ch, if_pos rfl]

/-- The channels the procedure reaches take the frequency of the leading one, and its block where that is written too. -/
theorem freqFollow_ch {j : Fin 18} (hj : c.Reaches i j) : (freqFollow i withBlock c).ch j =
    { c.ch j with
      fNum := (c.ch i).fNum
      block := if j = i ∨ withBlock = true then (c.ch i).block else (c.ch j).block
      ksv := ksvOf c.reg.nts (c.ch i) } := by
  by_cases h : c.reg.newm = true ∧ (c.ch i).chtype = .t4opA
  · rw [freqFollow_of_leads h, freqPair_ch, freqOwn_ch, freqOwn_ch, if_pos rfl]
    by_cases e : j = i
    · subst e
      simp
    · have hp : j = pairOf i := (hj.resolve_left e).2
      rw [if_pos hp, if_neg e]
      simp [e]
  · obtain rfl : j = i := hj.resolve_right fun h' => h h'.1
    rw [freqFollow_of_not_leads h, freqOwn_ch, if_pos rfl]
    simp

theorem freqFollow_op {o : Fin 36} (ho : c.Reaches i (chanOf o)) : (freqFollow i withBlock c).op o =
    { c.op o with egKsl := kslOf ((freqFollow i withBlock c).ch (chanOf o)) } := by
  by_cases h : c.reg.newm = true ∧ (c.ch i).chtype = .t4opA
  · rw [freqFollow_of_leads h, freqPair_op, freqOwn_op]
    by_cases hp : chanOf o = pairOf i
    · rw [if_pos hp]
      split <;> rfl
    · have hi : chanOf o = i := ho.resolve_right fun h' => hp h'.2
      rw [if_neg hp, if_pos hi, freqPair_ch, if_neg hp, hi, freqOwn_ch, if_pos rfl]
      rfl
  · have hi : chanOf o = i := ho.resolve_right fun h' => h h'.1
    rw [freqFollow_of_not_leads h, freqOwn_op, if_pos hi, hi, freqOwn_ch, if_pos rfl]
    rfl

theorem freqFollow_outside : SameVoices (fun j => ¬c.Reaches i j) c (freqFollow i withBlock c) := by
  by_cases h : c.reg.newm = true ∧ (c.ch i).chtype = .t4opA
  · rw [freqFollow_of_leads h]
    refine ⟨fun o ho => ?_, fun j hj => ?_⟩
    · obtain ⟨hi, hp⟩ := not_or.mp ho
      rw [freqPair_op, if_neg fun e => hp ⟨h, e⟩, freqOwn_op, if_neg hi]
    · obtain ⟨hi, hp⟩ := not_or.mp hj
      rw [freqPair_ch, if_neg fun e => hp ⟨h, e⟩, freqOwn_ch, if_neg hi]
  · rw [freqFollow_of_not_leads h]
    exact ⟨fun o ho => by rw [freqOwn_op, if_neg (not_or.mp ho).1], fun j hj => by rw [freqOwn_ch, if_neg (not_or.mp hj).1]⟩

end

/-! ### The frequency writes -/

section
variable {i : Fin 18} {c : Chip}

/-- The channel takes a frequency and block of its own, and the procedure runs. -/
def setFreq (i : Fin 18) (withBlock : Bool) (f : BitVec 10) (b : BitVec 3) (c : Chip) : Chip :=
  freqFollow i withBlock (c.modCh i fun ch => { ch with fNum := f, block := b })

variable {withBlock : Bool} {f : BitVec 10} {b : BitVec 3}

theorem modCh_freq_reaches (j : Fin 18) :
    (c.modCh i fun ch => { ch with fNum := f, block := b }).Reaches i j ↔ c.Reaches i j := by
  unfold Chip.Reaches
  rw [ch_modCh_same]
  rfl

theorem setFreq_ch {j : Fin 18} (hj : c.Reaches i j) : (setFreq i withBlock f b c).ch j =
    { c.ch j with
      fNum := f
      block := if j = i ∨ withBlock = true then b else (c.ch j).block
      ksv := ksvValue c.reg.nts f b } := by
  rw [setFreq, freqFollow_ch ((modCh_freq_reaches j).mpr hj), ch_modCh_same, ksvOf_eq, ch_modCh]
  by_cases e : j = i
  · subst e
    simp
  · rw [if_neg (Ne.symm e)]
    rfl

theorem setFreq_op {o : Fin 36} (ho : c.Reaches i (chanOf o)) : (setFreq i withBlock f b c).op o =
    { c.op o with
      egKsl := kslValue f (if chanOf o = i ∨ withBlock = true then b else (c.ch (chanOf o)).block) } := by
  have hch := setFreq_ch (withBlock := withBlock) (f := f) (b := b) ho
  rw [setFreq] at hch ⊢
  rw [freqFollow_op ((modCh_freq_reaches _).mpr ho), hch, kslOf_eq]
  rfl

theorem setFreq_outside : SameVoices (fun j => ¬c.Reaches i j) c (setFreq i withBlock f b c) := by
  have own : SameVoices (fun j => ¬c.Reaches i j) c (c.modCh i fun ch => { ch with fNum := f, block := b }) :=
    .modCh i _ (not_not_intro (.inl rfl))
  refine own.trans (freqFollow_outside.mono fun j hj => ?_)
  rwa [modCh_freq_reaches]

theorem setFreq_frame : (setFreq i withBlock f b c).run = c.run ∧ (setFreq i withBlock f b c).reg = c.reg := by
  obtain ⟨run, reg, -, -⟩ := freqFollow_frame i withBlock (c.modCh i fun ch => { ch with fNum := f, block := b })
  exact ⟨run, reg⟩

theorem wrCha0_eq_setFreq (d : Byte) (h : freqLocked i c = false) :
    wrCha0 i d c = setFreq i false ((c.ch i).fNum.extractLsb' 8 2 ++ d) (c.ch i).block c := by
  rw [wrCha0_eq, h, if_neg Bool.false_ne_true, setFreq]
  unfold Chip.modCh
  rw [setFreqLow_eq]

theorem wrChb0_eq_setFreq (d : Byte) (h : freqLocked i c = false) : wrChb0 i d c = keySet i (d.getLsbD 5)
    (setFreq i true (d.extractLsb' 0 2 ++ (c.ch i).fNum.extractLsb' 0 8) (d.extractLsb' 2 3) c) := by
  rw [wrChb0_eq, h, if_neg Bool.false_ne_true, setFreq]
  unfold Chip.modCh
  rw [setFreqHigh_eq]

/-! ### The keys (40_register_writes.md R98) -/

/-- The normal key of both operators of a channel. -/
def keyBoth (i : Fin 18) (v : Bool) (c : Chip) : Chip :=
  (c.modOp (slot0 i) (setNormalKey v)).modOp (slot1 i) (setNormalKey v)

theorem keyBoth_op (v : Bool) (o : Fin 36) :
    (keyBoth i v c).op o = if chanOf o = i then setNormalKey v (c.op o) else c.op o := op_modOp_both ..

theorem freqLocked_iff : freqLocked i c = true ↔ c.reg.newm = true ∧ (c.ch i).chtype = .t4opB := by
  simp [freqLocked]

theorem keySet_of_leads (v : Bool) (h : c.reg.newm = true ∧ (c.ch i).chtype = .t4opA) :
    keySet i v c = keyBoth (pairOf i) v (keyBoth i v c) := by
  simp only [keySet, h.1, h.2, if_true]
  rfl

theorem keySet_of_not_leads (v : Bool) (hl : freqLocked i c = false)
    (h : ¬(c.reg.newm = true ∧ (c.ch i).chtype = .t4opA)) : keySet i v c = keyBoth i v c := by
  have hB : ¬(c.reg.newm = true ∧ (c.ch i).chtype = .t4opB) := fun hB => by simp [freqLocked_iff.mpr hB] at hl
  cases hnew : c.reg.newm with
  | false =>
    simp only [keySet, hnew, Bool.false_eq_true, if_false]
    rfl
  | true =>
    simp only [keySet, hnew, if_true]
    cases ht : (c.ch i).chtype with
    | t4opA => exact absurd ⟨hnew, ht⟩ h
    | t4opB => exact absurd ⟨hnew, ht⟩ hB
    | t2op => rfl
    | tdrum => rfl

/-- On a locked channel the key does not move either. -/
theorem keySet_of_locked (v : Bool) (hl : freqLocked i c = true) : keySet i v c = c := by
  obtain ⟨hnew, ht⟩ := freqLocked_iff.mp hl
  simp only [keySet, hnew, ht, if_true]

theorem keySet_op (v : Bool) (hl : freqLocked i c = false) {o : Fin 36} (ho : c.Reaches i (chanOf o)) :
    (keySet i v c).op o = setNormalKey v (c.op o) := by
  by_cases h : c.reg.newm = true ∧ (c.ch i).chtype = .t4opA
  · rw [keySet_of_leads v h, keyBoth_op, keyBoth_op]
    by_cases hi : chanOf o = i
    · rw [if_pos hi, setNormalKey_idempotent, ite_self]
    · rw [if_neg hi, if_pos (ho.resolve_left hi).2]
  · rw [keySet_of_not_leads v hl h, keyBoth_op, if_pos (ho.resolve_right fun h' => h h'.1)]

theorem keySet_ch (i : Fin 18) (v : Bool) (c : Chip) (j : Fin 18) : (keySet i v c).ch j = c.ch j := (keySet_frame i v c).ch j

theorem keySet_outside (v : Bool) (hl : freqLocked i c = false) : SameVoices (fun j => ¬c.Reaches i j) c (keySet i v c) := by
  refine ⟨fun o ho => ?_, fun j _ => keySet_ch i v c j⟩
  obtain ⟨hi, hp⟩ := not_or.mp ho
  by_cases h : c.reg.newm = true ∧ (c.ch i).chtype = .t4opA
  · rw [keySet_of_leads v h, keyBoth_op, if_neg fun e => hp ⟨h, e⟩, keyBoth_op, if_neg hi]
  · rw [keySet_of_not_leads v hl h, keyBoth_op, if_neg hi]

/-! ### The two writes as commands -/

theorem freqLocked_setFreq {j : Fin 18} : freqLocked j (setFreq i withBlock f b c) = freqLocked j c := by
  have hch : ((setFreq i withBlock f b c).ch j).chtype = (c.ch j).chtype :=
    ((freqFollow_chtype i withBlock _).ch j).trans (ch_modCh_proj _ _ _ Channel.chtype _ fun _ => rfl)
  exact freqLocked_congr setFreq_frame.2 hch

theorem reaches_setFreq {j : Fin 18} : (setFreq i withBlock f b c).Reaches i j ↔ c.Reaches i j := by
  unfold Chip.Reaches
  rw [setFreq_frame.2, setFreq_ch (.inl rfl)]

end

theorem freqLocked_eq_false_iff (s : State) (i : Fin 18) : freqLocked i s.chip = false ↔ ¬followsPair s i := by
  rw [← Bool.not_eq_true, freqLocked_iff]
  rfl

/-- The frame of a write that reaches the channel and the pair it leads. -/
theorem onlyVoices_of_reaches {s : State} {i : Fin 18} {d : Chip} (hrun : d.run = s.chip.run) (hreg : d.reg = s.chip.reg)
    (hout : SameVoices (fun j => ¬s.chip.Reaches i j) s.chip d) :
    OnlyVoices (reached s i) (fun j => j = i ∨ (leadsPair s i ∧ j = pairOf i)) s { s with chip := d } := by
  refine ⟨?_, hout.op, hout.ch⟩
  have frame := Chip.eq_of_run hrun
  rw [hreg] at frame
  exact congrArg (fun c : Chip => { s with chip := c }) frame

/-- Settles O20: the write sets the frequency with the block unchanged, which `setFreq` hands to what it reaches. -/
theorem frequencyLowWrite : Obligations.FrequencyLowWrite := by
  unfold Obligations.FrequencyLowWrite
  refine fun i d s hr => ⟨fun hf => ?_, fun hf => ?_⟩
  · have hl : freqLocked i s.chip = true := freqLocked_iff.mpr hf
    show s.onChip (wrCha0 i d) = .next s
    rw [onChip_eq_next_iff, wrCha0_eq, hl, if_pos rfl]
    exact ⟨hr, rfl⟩
  · have hl := (freqLocked_eq_false_iff s i).mpr hf
    have hw := wrCha0_eq_setFreq d hl
    have hblock (j : Fin 18) :
        (if j = i ∨ false = true then (s.chip.ch i).block else (s.chip.ch j).block) = (s.chip.ch j).block := by
      split
      · next h => rw [h.resolve_right Bool.false_ne_true]
      · rfl
    refine ⟨{ s with chip := wrCha0 i d s.chip }, if_pos hr, ?_, ?_, fun hlead => ?_, fun o ho => ?_⟩
    all_goals rw [hw]
    · exact onlyVoices_of_reaches setFreq_frame.1 setFreq_frame.2 setFreq_outside
    · rw [setFreq_ch (.inl rfl), hblock]
    · rw [setFreq_ch (.inr ⟨hlead, rfl⟩), hblock]
    · rw [setFreq_op ho, hblock]

/-- Settles O21: the frequency part hands over the block too, and then the keys of the same operators are set. -/
theorem keyAndFrequencyHighWrite : Obligations.KeyAndFrequencyHighWrite := by
  unfold Obligations.KeyAndFrequencyHighWrite
  refine fun i d s hr => ⟨fun hf => ?_, fun hf => ?_⟩
  · have hl : freqLocked i s.chip = true := freqLocked_iff.mpr hf
    show s.onChip (wrChb0 i d) = .next s
    rw [onChip_eq_next_iff, wrChb0_eq, hl, if_pos rfl, keySet_of_locked _ hl]
    exact ⟨hr, rfl⟩
  · have hl := (freqLocked_eq_false_iff s i).mpr hf
    have hw := wrChb0_eq_setFreq d hl
    have hkey : BitVec.ofBool (d.getLsbD 5) = d.extractLsb' 5 1 := by
      ext k hk
      obtain rfl : k = 0 := by omega
      simp
    refine ⟨{ s with chip := wrChb0 i d s.chip }, if_pos hr, ?_, ?_, fun hlead => ?_, fun o ho => ?_⟩
    all_goals
      rw [hw]
      generalize d.extractLsb' 0 2 ++ (s.chip.ch i).fNum.extractLsb' 0 8 = f
    · have keys := keySet_frame i (d.getLsbD 5) (setFreq i true f (d.extractLsb' 2 3) s.chip)
      refine onlyVoices_of_reaches (keys.run.trans setFreq_frame.1) (keys.reg.trans setFreq_frame.2) ?_
      refine setFreq_outside.trans ((keySet_outside _ (freqLocked_setFreq.trans hl)).mono fun j hj => ?_)
      rwa [reaches_setFreq]
    · rw [keySet_ch, setFreq_ch (.inl rfl), if_pos (.inl rfl)]
    · rw [keySet_ch, setFreq_ch (.inr ⟨hlead, rfl⟩), if_pos (.inr rfl)]
    · rw [keySet_op _ (freqLocked_setFreq.trans hl) (reaches_setFreq.mpr ho), setNormalKey_eq, setFreq_op ho,
        if_pos (.inr rfl), hkey]

end Sys2Proof.Machine
end

section
/-! The native ticks of a run of output-rate steps (47_resampler.md R227, R229), and what they keep of the program. -/

namespace Sys2Proof.Machine

/-! ### Output-rate steps as native ticks -/

theorem tickChip_iterate_rsm (n : Nat) (c : Chip) (x : Resampler) :
    (tickChip params)^[n] { c with rsm := x } = { (tickChip params)^[n] c with rsm := x } := by
  induction n generalizing c with
  | zero => rfl
  | succ n ih =>
    rw [Function.iterate_succ_apply, tickChip_rsm]
    exact ih (tickChip params c)

/-- One output-rate step runs RSM_ACC // RSM_RATIO native ticks and changes the resampler only beside. -/
theorem tickResampled_eq (c : Chip) : tickResampled params c =
    { (tickChip params)^[c.rsm.acc / c.rsm.ratio.toNat] c with rsm := (tickResampled params c).rsm } := by
  have ticks := (resampleTicks_spec (c.rsm.acc / c.rsm.ratio.toNat) c).1
  exact congrArg (fun d : Chip => { d with rsm := (tickResampled params c).rsm }) ticks

theorem tickResampled_ratio (c : Chip) : (tickResampled params c).rsm.ratio = c.rsm.ratio := by
  have spec := (resampleTicks_spec (c.rsm.acc / c.rsm.ratio.toNat) c).2
  exact (congrArg Resampler.ratio spec :)

theorem tickResampled_acc (c : Chip) :
    (tickResampled params c).rsm.acc = c.rsm.acc % c.rsm.ratio.toNat + 1024 := by
  have spec := congrArg Resampler.acc (resampleTicks_spec (c.rsm.acc / c.rsm.ratio.toNat) c).2
  show (resampleTicks params _ c).rsm.acc + 2 ^ fracBits = _
  rw [spec, Nat.mod_eq_sub_div_mul]
  rfl

/-- The native ticks that `n` output-rate steps owe (47_resampler.md R229). -/
def Chip.owedTicks (c : Chip) (n : Nat) : Nat :=
  if n = 0 then 0 else (c.rsm.acc + 1024 * (n - 1)) / c.rsm.ratio.toNat

theorem owedTicks_succ (c : Chip) (n : Nat) (hratio : c.rsm.ratio ≠ 0) :
    (tickResampled params c).owedTicks n + c.rsm.acc / c.rsm.ratio.toNat = c.owedTicks (n + 1) := by
  have hpos : 0 < c.rsm.ratio.toNat := Nat.pos_of_ne_zero fun h => hratio (BitVec.eq_of_toNat_eq h)
  unfold Chip.owedTicks
  rw [tickResampled_ratio, tickResampled_acc, if_neg (Nat.succ_ne_zero n), Nat.add_sub_cancel]
  cases n with
  | zero => simp
  | succ n =>
    have hsum : c.rsm.acc % c.rsm.ratio.toNat + 1024 + 1024 * n + c.rsm.ratio.toNat * (c.rsm.acc / c.rsm.ratio.toNat) =
        c.rsm.acc + 1024 * (n + 1) := by
      have := Nat.mod_add_div c.rsm.acc c.rsm.ratio.toNat
      omega
    rw [if_neg (Nat.succ_ne_zero n), Nat.add_sub_cancel, ← Nat.add_mul_div_left _ _ hpos, hsum]

/-- `n` output-rate steps are the native ticks they owe, as far as anything but the resampler goes. -/
theorem tickResampled_iterate_eq (n : Nat) (c : Chip) (hratio : n ≠ 0 → c.rsm.ratio ≠ 0) :
    ∃ x, (tickResampled params)^[n] c = { (tickChip params)^[c.owedTicks n] c with rsm := x } := by
  induction n generalizing c with
  | zero => exact ⟨c.rsm, rfl⟩
  | succ n ih =>
    have hc := hratio (Nat.succ_ne_zero n)
    obtain ⟨x, hx⟩ := ih (tickResampled params c) fun _ => (tickResampled_ratio c).symm ▸ hc
    refine ⟨x, ?_⟩
    rw [Function.iterate_succ_apply, hx, ← owedTicks_succ c n hc, Function.iterate_add_apply]
    generalize (tickResampled params c).owedTicks n = m
    rw [tickResampled_eq, tickChip_iterate_rsm]

/-- What every write that comes due keeps, a run of output-rate steps keeps. -/
theorem tickResampled_iterate_keep {α : Type} {f : Chip → α} (hf : SeesProgram f) (n : Nat) {c : Chip}
    (hratio : n ≠ 0 → c.rsm.ratio ≠ 0)
    (h : ∀ e ∈ c.wb.takeWhile fun e => decide (e.time < c.wbSamplecnt + c.owedTicks n),
      ∀ d, f (regWrite params e.addr e.data d) = f d) : f ((tickResampled params)^[n] c) = f c := by
  obtain ⟨x, hx⟩ := tickResampled_iterate_eq n c hratio
  rw [hx]
  exact (hf ((tickChip params)^[c.owedTicks n] c) { (tickChip params)^[c.owedTicks n] c with rsm := x } rfl
    fun _ => rfl).trans (ticks_keep hf _ h)

/-! ### The commands that tick -/

section
variable {α : Type} {f : Chip → α} {p : RegClass → Bool} (hf : SeesProgram f)
  (write : ∀ a d c, p (classify a) = false → f (regWrite params a d c) = f c) {s t : State}
include hf write

theorem execTick_keeps (h : exec .tick s = .next t) (due : drainsNo p s 1) : f t.chip = f s.chip := by
  obtain ⟨-, rfl⟩ := execTick_eq_next_iff.mp h
  exact tick_keeps hf fun e he d => write _ _ d (due e he)

theorem execStream_keeps {n : BitVec 28} (h : exec (.stream n) s = .next t)
    (due : drainsNo p s (nativeTicks s n.toNat)) : f t.chip = f s.chip := by
  obtain ⟨-, ratio, rfl⟩ := execStream_eq_next_iff.mp h
  rw [resampledFrames_chip]
  exact tickResampled_iterate_keep hf _ (fun hn => ratio fun h0 => hn (congrArg BitVec.toNat h0)) fun e he d =>
    write _ _ d (due e he)

theorem execTickr_keeps (h : exec .tickr s = .next t) (due : drainsNo p s (nativeTicks s 1)) : f t.chip = f s.chip :=
  execStream_keeps hf write (n := 1) ((execTickr_eq_execStream s).symm.trans h) due

end

end Sys2Proof.Machine
end

section
/-! Which writes reach the key bits (40_register_writes.md R98, 42_phase_noise_rhythm.md R151). -/

namespace Sys2Proof.Machine

/-- Every immediate write has a word of format REG. -/
theorem encode_of_isWrite {i : Instr} (h : isWrite i = true) : ∃ a d, encode i = regWord 0 a d := by
  cases i
  case wrb => cases h
  case tick => cases h
  case tickr => cases h
  case reset => cases h
  case stream => cases h
  all_goals exact ⟨_, _, rfl⟩

/-- An immediate write is what its address decodes to, but for a WR_IGN that names an address of the map. -/
theorem eq_decodeWrite_or_ign {i : Instr} (h : isWrite i = true) :
    (∃ a d, i = decodeWrite a d) ∨ ∃ a d, i = .wrIgn a d := by
  by_cases hw : i.wf = true
  · obtain ⟨a, d, he⟩ := encode_of_isWrite h
    have hd := decodeOfEncode i hw
    rw [he, decode_wr] at hd
    exact .inl ⟨a, d, (Except.ok.inj hd).symm⟩
  · cases i
    case wrIgn a d => exact .inr ⟨a, d, rfl⟩
    all_goals exact absurd rfl hw

/-! ### The two key bits under each class -/

theorem setNormalKey_rhythm (v : Bool) (op : Operator) : (setNormalKey v op).key.getLsbD 1 = op.key.getLsbD 1 := by
  cases v <;> simp [setNormalKey]

theorem freqFollow_key (i : Fin 18) (withBlock : Bool) (c : Chip) (o : Fin 36) :
    ((freqFollow i withBlock c).op o).key = (c.op o).key :=
  (congrArg Operator.key ((freqFollow_frame i withBlock c).op o) :)

/-- Neither key bit changes but by a write of the two classes. -/
theorem regWrite_key {a : Addr} (hr : writesRhythmKey (classify a) = false) (hn : writesNormalKey (classify a) = false)
    (d : Byte) (c : Chip) (o : Fin 36) : ((regWrite params a d c).op o).key = (c.op o).key := by
  have mod (o' : Fin 36) (f : Operator → Operator) (hf : ∀ op, (f op).key = op.key) :
      ((c.modOp o' f).op o).key = (c.op o).key := op_modOp_proj _ _ _ Operator.key f hf
  unfold regWrite
  cases hcl : classify a with
  | bd => simp [hcl, writesRhythmKey] at hr
  | chb0 i => simp [hcl, writesNormalKey] at hn
  | fourOp => exact (congrArg Operator.key ((wr4op_routing d c).op o) :)
  | chc0 i => exact (congrArg Operator.key (wrChc0_op i d c o) :)
  | op20 o' => exact mod o' _ fun _ => rfl
  | op40 o' => exact (congrArg (fun c : Chip => (c.op o).key) (wrOp40_eq o' d c)).trans (mod o' _ fun _ => rfl)
  | op60 o' => exact mod o' _ fun _ => rfl
  | op80 o' => exact mod o' _ fun _ => rfl
  | ope0 o' => exact mod o' _ fun _ => rfl
  | cha0 i =>
    show ((wrCha0 i d c).op o).key = _
    rw [wrCha0_eq]
    split
    · rfl
    · exact freqFollow_key ..
  | chd0 i =>
    show ((wrChd0 i d c).op o).key = _
    unfold wrChd0
    split <;> rfl
  | nts => rfl
  | mode => rfl
  | ign => rfl

theorem keySet_rhythmKey (i : Fin 18) (v : Bool) (c : Chip) (o : Fin 36) :
    ((keySet i v c).op o).key.getLsbD 1 = (c.op o).key.getLsbD 1 := by
  have both (j : Fin 18) (c : Chip) : ((keyBoth j v c).op o).key.getLsbD 1 = (c.op o).key.getLsbD 1 := by
    rw [keyBoth_op]
    split
    · exact setNormalKey_rhythm ..
    · rfl
  cases hl : freqLocked i c with
  | true => rw [keySet_of_locked v hl]
  | false =>
    by_cases h : c.reg.newm = true ∧ (c.ch i).chtype = .t4opA
    · rw [keySet_of_leads v h, both, both]
    · rw [keySet_of_not_leads v hl h, both]

theorem wrChb0_rhythmKey (i : Fin 18) (d : Byte) (c : Chip) (o : Fin 36) :
    ((wrChb0 i d c).op o).key.getLsbD 1 = (c.op o).key.getLsbD 1 := by
  rw [wrChb0_eq, keySet_rhythmKey]
  split
  · rfl
  · rw [freqFollow_key]
    rfl

theorem wrBd_normalKey (d : Byte) (c : Chip) (o : Fin 36) :
    ((wrBd params d c).op o).key.getLsbD 0 = (c.op o).key.getLsbD 0 := by
  by_cases h : IsDrum (chanOf o)
  · rw [wrBd_op d h]
    exact BitVec.getLsbD_append.trans (by simp)
  · rw [(wrBd_outside d c).op o h]

/-- Of the writes, immediate or drained, only 0x0BD reaches the rhythm keys and only class CHB0 the normal keys. -/
theorem regWrite_keyBits (a : Addr) (d : Byte) (c : Chip) (o : Fin 36) :
    (writesRhythmKey (classify a) = false → ((regWrite params a d c).op o).key.getLsbD 1 = (c.op o).key.getLsbD 1)
      ∧ (writesNormalKey (classify a) = false →
        ((regWrite params a d c).op o).key.getLsbD 0 = (c.op o).key.getLsbD 0) := by
  cases hcl : classify a
  case bd =>
    have hw : regWrite params a d c = wrBd params d c := by simp only [regWrite, hcl]
    exact ⟨nofun, fun _ => hw ▸ wrBd_normalKey d c o⟩
  case chb0 i =>
    have hw : regWrite params a d c = wrChb0 i d c := by simp only [regWrite, hcl]
    exact ⟨fun _ => hw ▸ wrChb0_rhythmKey i d c o, nofun⟩
  all_goals
    have key := regWrite_key (a := a) (by rw [hcl]; rfl) (by rw [hcl]; rfl) d c o
    exact ⟨fun _ => by rw [key], fun _ => by rw [key]⟩

theorem classify_of_not_wrBd {a : Addr} {d : Byte} (h : ∀ d', decodeWrite a d ≠ .wrBd d') :
    writesRhythmKey (classify a) = false := by
  cases hcl : classify a
  case bd => exact absurd (by simp only [decodeWrite, hcl]) (h d)
  all_goals rfl

theorem classify_of_not_wrChb0 {a : Addr} {d : Byte} (h : ∀ i d', decodeWrite a d ≠ .wrChb0 i d') :
    writesNormalKey (classify a) = false := by
  cases hcl : classify a
  case chb0 i => exact absurd (by simp only [decodeWrite, hcl]) (h i d)
  all_goals rfl

theorem seesProgram_keyBit (o : Fin 36) (k : Nat) : SeesProgram fun c => (c.op o).key.getLsbD k := fun _ _ _ hprog =>
  congrArg (fun x : OperatorProg => x.key.getLsbD k) (hprog o)

/-- Settles O29: the two classes are those of `regWrite_keyBits`; a tick changes the keys only through what it drains. -/
theorem keyBitWriters : Obligations.KeyBitWriters := by
  unfold Obligations.KeyBitWriters
  have rhythm (o : Fin 36) := seesProgram_keyBit o 1
  have normal (o : Fin 36) := seesProgram_keyBit o 0
  have writeR (o : Fin 36) (a : Addr) (d : Byte) (c : Chip) := (regWrite_keyBits a d c o).1
  have writeN (o : Fin 36) (a : Addr) (d : Byte) (c : Chip) := (regWrite_keyBits a d c o).2
  refine ⟨fun i s t hi h => ?_, regWrite_keyBits, fun a d s t h o => ?_, fun s t o h => ?_, fun s t o h => ?_,
    fun n s t o h => ?_⟩
  · rcases eq_decodeWrite_or_ign hi with ⟨a, d, rfl⟩ | ⟨a, d, rfl⟩
    · rw [exec_decodeWrite] at h
      obtain ⟨-, rfl⟩ := onChip_eq_next_iff.mp h
      exact ⟨fun hne o => writeR o a d _ (classify_of_not_wrBd hne), fun hne o => writeN o a d _ (classify_of_not_wrChb0 hne)⟩
    · obtain ⟨-, rfl⟩ := onChip_eq_next_iff.mp h
      exact ⟨fun _ _ => rfl, fun _ _ => rfl⟩
  · obtain ⟨-, -, rfl⟩ := execWrb_eq_next_iff.mp h
    rfl
  · exact ⟨execTick_keeps (rhythm o) (writeR o) h, execTick_keeps (normal o) (writeN o) h⟩
  · exact ⟨execTickr_keeps (rhythm o) (writeR o) h, execTickr_keeps (normal o) (writeN o) h⟩
  · exact ⟨execStream_keeps (rhythm o) (writeR o) h, execStream_keeps (normal o) (writeN o) h⟩

end Sys2Proof.Machine
end

section
/-! The writes to one register (40_register_writes.md R91, R93 to R95, R101, R103 to R106) and the path they share with the drain
(R90). -/

namespace Sys2Proof.Machine

section
variable {s : State}

/-- A write to one operator, as a command. -/
theorem onChip_setOp {g : Chip → Chip} {o : Fin 36} {x : Operator} (hr : s.ready = true)
    (hg : g s.chip = s.chip.setOp o x) :
    ∃ t, s.onChip g = .next t ∧ OnlyOps (· = o) s t ∧ t.chip.op o = x :=
  ⟨{ s with chip := s.chip.setOp o x }, onChip_eq_next_iff.mpr ⟨hr, by rw [hg]⟩,
    ⟨rfl, fun _ h => op_setOp_ne _ _ _ _ (Ne.symm h)⟩, op_setOp_same ..⟩

/-- A write to one channel, as a command. -/
theorem onChip_setCh {g : Chip → Chip} {i : Fin 18} {x : Channel} (hr : s.ready = true)
    (hg : g s.chip = s.chip.setCh i x) :
    ∃ t, s.onChip g = .next t ∧ OnlyChs (· = i) s t ∧ t.chip.ch i = x :=
  ⟨{ s with chip := s.chip.setCh i x }, onChip_eq_next_iff.mpr ⟨hr, by rw [hg]⟩,
    ⟨rfl, fun _ h => (ch_setCh ..).trans (if_neg (Ne.symm h))⟩, ch_setCh_same ..⟩

/-- A write that sets the global registers, as a command. -/
theorem onChip_setReg {r : GlobalRegs} {g : Chip → Chip} (hr : s.ready = true) (hg : g s.chip = { s.chip with reg := r }) :
    ∃ t, s.onChip g = .next t ∧ OnlyRegs s t ∧ t.chip.reg = r :=
  ⟨{ s with chip := { s.chip with reg := r } }, onChip_eq_next_iff.mpr ⟨hr, by rw [hg]⟩, rfl, rfl⟩

end

/-- Settles O11: WR_NTS sets one global register. -/
theorem ntsWrite : Obligations.NtsWrite := fun _ _ hr => onChip_setReg hr rfl

/-- Settles O12: WR_MODE sets two global registers. -/
theorem modeWrite : Obligations.ModeWrite := fun _ _ hr => onChip_setReg hr rfl

/-- Settles O15: WR_OP20 rewrites one operator. -/
theorem operatorControlWrite : Obligations.OperatorControlWrite := fun _ _ _ hr => onChip_setOp hr rfl

/-- Settles O16: `wrOp40_eq` gives both parts of the write as one rewriting of the operator, `kslOf_eq` its arithmetic. -/
theorem operatorLevelWrite : Obligations.OperatorLevelWrite := fun o d s hr =>
  onChip_setOp hr ((wrOp40_eq o d s.chip).trans (by rw [kslOf_eq]; rfl))

/-- Settles O17: WR_OP60 rewrites one operator. -/
theorem operatorAttackWrite : Obligations.OperatorAttackWrite := fun _ _ _ hr => onChip_setOp hr rfl

/-- The sustain level in the arithmetic of the rule (40_register_writes.md R105). -/
theorem sustainLevel_eq (d : Byte) :
    sustainLevel (d.extractLsb' 4 4) = if d.toNat / 16 = 15 then 31 else BitVec.ofNat 5 (d.toNat / 16) := by
  revert d
  decide

/-- Settles O18: WR_OP80 rewrites one operator, the level as `sustainLevel_eq` says. -/
theorem operatorSustainWrite : Obligations.OperatorSustainWrite := fun o d s hr =>
  onChip_setOp hr (by rw [← sustainLevel_eq]; rfl)

/-- The waveform bits in the arithmetic of the rule (40_register_writes.md R106). -/
theorem waveform_eq (newm : Bool) (d : Byte) :
    (if newm then d.extractLsb' 0 3 else (d.extractLsb' 0 2).setWidth 3) =
      BitVec.ofNat 3 (if newm then d.toNat % 8 else d.toNat % 4) := by
  revert newm d
  decide

/-- Settles O19: WR_OPE0 rewrites one operator, the waveform as `waveform_eq` says. -/
theorem operatorWaveformWrite : Obligations.OperatorWaveformWrite := fun o d s hr =>
  onChip_setOp hr (by rw [← waveform_eq]; rfl)

/-- The complemented index of the left weight (40_register_writes.md R101). -/
theorem complement_toNat (d : Byte) : (d ^^^ 0xFF).toNat = 255 - d.toNat := by
  revert d
  decide

/-- Settles O23: outside stereo extension the write is no write, in it WR_CHD0 rewrites one channel. -/
theorem panWrite : Obligations.PanWrite := by
  unfold Obligations.PanWrite
  refine fun i d s hr => ⟨fun h => ?_, fun h => ?_⟩
  · refine onChip_eq_next_iff.mpr ⟨hr, ?_⟩
    rw [wrChd0, h, if_neg Bool.false_ne_true]
  · refine onChip_setCh hr ?_
    rw [wrChd0, h, if_pos rfl, complement_toNat]
    rfl

/-- Settles O24: WR_IGN is the identity on the block. -/
theorem ignoredWrite : Obligations.IgnoredWrite := fun _ _ _ hr => onChip_eq_next_iff.mpr ⟨hr, rfl⟩

/-- Settles O27: by `exec_decodeWrite`, for every address. -/
theorem drainPathIsWritePath : Obligations.DrainPathIsWritePath := fun a d s hr =>
  (exec_decodeWrite a d s).trans (onChip_eq_next_iff.mpr ⟨hr, rfl⟩)

/-- Settles O30: a buffer with room takes the entry, a full one refuses it. -/
theorem bufferedWriteEnqueues : Obligations.BufferedWriteEnqueues := fun _ _ _ hr =>
  ⟨fun room => execWrb_eq_next_iff.mpr ⟨hr, room, rfl⟩, fun full => execWrb_of_full hr full⟩

end Sys2Proof.Machine
end

section
/-! The commands that output and RESET (40_register_writes.md R108, R109, R112). -/

namespace Sys2Proof.Machine

theorem tickChip_rsm_eq (c : Chip) : (tickChip params c).rsm = c.rsm := congrArg ChipRun.rsm (tick_run c).1

/-- Settles O32: TICK runs one native tick, whose running part `tick_run` gives. -/
theorem tickOutputsFrame : Obligations.TickOutputsFrame := by
  unfold Obligations.TickOutputsFrame
  intro s hr
  refine ⟨_, execTick_eq_next_iff.mpr ⟨hr, rfl⟩, rfl, rfl, hr, ?_, ?_, ?_⟩
  · exact tickChip_rsm_eq s.chip
  · exact tickChip_wbSamplecnt s.chip
  · exact tickChip_wbLasttime s.chip

/-! ### STREAM -/

theorem resampledFrames_succ (n : Nat) (s : State) : resampledFrames (n + 1) s = resampledFrame (resampledFrames n s) := by
  induction n generalizing s with
  | zero => rfl
  | succ n ih => exact ih (resampledFrame s)

theorem resampledFrames_ratio (n : Nat) (s : State) : (resampledFrames n s).chip.rsm.ratio = s.chip.rsm.ratio := by
  induction n generalizing s with
  | zero => rfl
  | succ n ih => exact (ih (resampledFrame s)).trans (tickResampled_ratio s.chip)

/-- Settles O51: the states between the frames of STREAM are those between the TICKRs. -/
theorem streamIsTickrs : Obligations.StreamIsTickrs := by
  unfold Obligations.StreamIsTickrs
  refine fun n s hr hratio => ⟨fun k => resampledFrames k s, rfl, fun k _ => ?_, execStream_of_ratio hr fun _ => hratio⟩
  have ready : (resampledFrames k s).ready = true := (resampledFrames_ready k s).trans hr
  have ratio : (resampledFrames k s).chip.rsm.ratio ≠ 0 := (resampledFrames_ratio k s).symm ▸ hratio
  show execTickr (resampledFrames k s) = .next (resampledFrames (k + 1) s)
  rw [execTickr_eq_execStream, execStream_of_ratio ready fun _ => ratio, resampledFrames_succ]
  rfl

/-! ### RESET (70_reset_and_hazards.md R255) -/

section
variable (p : Params) (rate : Nat)

theorem resetChip_latch : (resetChip p rate).latch = ⟨false, false, false, false, false, false⟩ := by
  rw [resetChip_eq_withRun]
  rfl

theorem resetChip_mix : (resetChip p rate).mix = Quad.all 0 := by
  rw [resetChip_eq_withRun]
  rfl

theorem resetChip_outp : (resetChip p rate).outp = Quad.all 0 := by
  rw [resetChip_eq_withRun]
  rfl

end

/-- Settles O52: RESET reads nothing of the state, and each element of `resetChip` is known. -/
theorem resetValues : Obligations.ResetValues := by
  unfold Obligations.ResetValues
  intro rate s hmin hmax
  have hratio : (BitVec.ofNat 32 (ratioOf rate.toNat)).toNat = ratioOf rate.toNat := by
    rw [BitVec.toNat_ofNat, ratioOf_eq]
    exact Nat.mod_eq_of_lt (by omega)
  refine ⟨{ s with chip := resetChip params rate.toNat, ready := true }, execReset_eq_next_iff.mpr ⟨hmin, hmax, rfl⟩, ?_⟩
  dsimp only
  rw [resetChip_reg, resetChip_osc, resetChip_latch, resetChip_mix, resetChip_outp, resetChip_wb, resetChip_wbSamplecnt,
    resetChip_wbLasttime, resetChip_rsm]
  refine ⟨rfl, rfl, rfl, rfl, rfl, rfl, rfl, rfl, fun o => ?_, fun i => ?_, rfl, rfl, rfl, ?_, ?_, rfl, rfl, rfl⟩
  · rw [resetChip_op]
    rfl
  · rw [resetChip_ch]
    rfl
  · exact hratio.trans (ratioOf_eq _)
  · exact ratioOf_eq _

end Sys2Proof.Machine
end

section
/-! What a tick leaves of the dynamic state of an operator; the output level and the envelope state (41_envelope.md R120 to R122,
R132). -/

namespace Sys2Proof.Machine

/-! ### The dynamic state of an operator after a tick -/

/-- The dynamic state of an operator after a tick is what its own step makes of it; the drain does not reach it. -/
theorem tickChip_op_dyn (c : Chip) (o : Fin 36) :
    ((tickChip params c).op o).dyn = ((operatorStep params (beforeStep params c o) o).op o).dyn := by
  rw [(tick_run c).2 o, operatorSteps_op params rfl]

/-- The operator, its channel and the oscillators that an operator's step reads are those from before the tick. -/
theorem beforeStep_same (c : Chip) (o : Fin 36) : (beforeStep params c o).op o = c.op o
    ∧ (beforeStep params c o).ch (chanOf o) = c.ch (chanOf o) ∧ (beforeStep params c o).osc = c.osc := by
  have hrest := beforeStep_rest params rfl c o
  refine ⟨?_, hrest.ch (chanOf o), hrest.osc⟩
  rw [beforeStep_op params rfl, if_neg (lt_irrefl o)]

/-- The envelope of every operator after a tick, from the state before it (41_envelope.md R120). -/
theorem tickChip_envelope (c : Chip) (o : Fin 36) :
    ((tickChip params c).op o).egOut = egLevelOut c.osc (c.op o)
      ∧ ((tickChip params c).op o).pgReset = egResetting (c.op o)
      ∧ ((tickChip params c).op o).egRout = egLevelNext params c.osc (c.ch (chanOf o)).ksv (c.op o)
      ∧ ((tickChip params c).op o).egGen = egGenNext (c.op o) := by
  have hdyn := tickChip_op_dyn c o
  rw [operatorStep_op params rfl] at hdyn
  obtain ⟨hop, hch, hosc⟩ := beforeStep_same c o
  generalize beforeStep params c o = b at hdyn hop hch hosc
  rw [← hop, ← hch, ← hosc]
  exact ⟨congrArg OperatorDyn.egOut hdyn, congrArg OperatorDyn.pgReset hdyn, congrArg OperatorDyn.egRout hdyn,
    congrArg OperatorDyn.egGen hdyn⟩

/-- The same, of TICK. -/
theorem execTick_envelope {s t : State} (h : exec .tick s = .next t) (o : Fin 36) :
    (t.chip.op o).egOut = egLevelOut s.chip.osc (s.chip.op o)
      ∧ (t.chip.op o).pgReset = egResetting (s.chip.op o)
      ∧ (t.chip.op o).egRout = egLevelNext params s.chip.osc (s.chip.ch (chanOf o)).ksv (s.chip.op o)
      ∧ (t.chip.op o).egGen = egGenNext (s.chip.op o) := by
  obtain ⟨-, rfl⟩ := execTick_eq_next_iff.mp h
  exact tickChip_envelope s.chip o

/-! ### The output level (41_envelope.md R121) -/

theorem egLevelOut_toNat (g : Oscillators) (op : Operator) : (egLevelOut g op).toNat =
    (op.egRout.toNat + 4 * op.regTl.toNat + op.egKsl.toNat / 2 ^ kslShift op.regKsl
      + (if op.regTrem then g.tremolo.toNat else 0)) % 65536 := by
  unfold egLevelOut
  rw [BitVec.toNat_ofNat, Nat.shiftLeft_eq, Nat.shiftRight_eq_div_pow, Nat.mul_comm op.regTl.toNat]

/-- Settles O37: `egLevelOut` in the arithmetic of the rule. -/
theorem tickOutputLevel : Obligations.TickOutputLevel := fun s _ o h =>
  (congrArg BitVec.toNat (execTick_envelope h o).1).trans (egLevelOut_toNat s.chip.osc (s.chip.op o))

/-! ### Keys and the envelope state (41_envelope.md R122, R132) -/

theorem keyed_iff {op : Operator} : op.keyed = true ↔ op.key ≠ 0 := by simp [Operator.keyed]

theorem egResetting_iff {op : Operator} : egResetting op = true ↔ op.key ≠ 0 ∧ op.egGen = .release := by
  rw [egResetting, Bool.and_eq_true, keyed_iff, beq_iff_eq]

theorem egGenNext_of_unkeyed {op : Operator} (h : op.key = 0) : egGenNext op = .release := by
  rw [egGenNext, if_pos (by simp [keyed_iff, h])]

/-- A keyed operator goes round the graph, from Release by the reset. -/
theorem egGenNext_of_keyed {op : Operator} (h : op.key ≠ 0) : egGenNext op =
    match op.egGen with
    | .attack => if op.egRout = 0 then .decay else .attack
    | .decay => if op.egRout.toNat / 16 = op.regSl.toNat then .sustain else .decay
    | .sustain => .sustain
    | .release => .attack := by
  have hkeyed := keyed_iff.mpr h
  unfold egGenNext egResetting
  rw [hkeyed]
  cases op.egGen <;> simp [Nat.shiftRight_eq_div_pow]

/-- Settles O38: `egGenNext` by the key and the state, and the reset of the phase by `egResetting_iff`. -/
theorem tickEnvelopeGraph : Obligations.TickEnvelopeGraph := by
  unfold Obligations.TickEnvelopeGraph
  intro s t o h
  obtain ⟨-, hreset, -, hgen⟩ := execTick_envelope h o
  dsimp only
  rw [hreset, hgen]
  refine ⟨egResetting_iff, egGenNext_of_unkeyed, fun hkey => ?_⟩
  rw [egGenNext_of_keyed hkey]
  refine ⟨fun hg => ?_, fun hg => ?_, fun hg => ?_, fun hg => ?_⟩
  all_goals rw [hg]

theorem not_egResetting {op : Operator} (h : op.egGen = .release → op.key = 0) : ¬egResetting op = true := fun hr =>
  have ⟨hkey, hg⟩ := egResetting_iff.mp hr
  hkey (h hg)

end Sys2Proof.Machine
end

section
/-! The level after a tick in the arithmetic of the rules: rates, step size, new level (41_envelope.md R122 to R131). -/

namespace Sys2Proof.Machine

/-! ### The rates (41_envelope.md R122, R123) -/

section
variable (g : Oscillators) (ksv : BitVec 4) (op : Operator)

theorem egRegRate_eq : egRegRate op = rateOf op := by
  unfold egRegRate rateOf
  cases hg : op.egGen with
  | release => simp [egResetting_iff, hg]
  | attack => simp
  | decay => simp [egResetting_iff, hg]
  | sustain => simp [egResetting_iff, hg]

theorem rateOf_of_attack {op : Operator} (hg : op.egGen = .attack) : rateOf op = op.regAr := by simp [rateOf, hg]

theorem egRateSum_eq : egRateSum ksv op = combinedRate ksv op := by
  unfold egRateSum combinedRate
  rw [egRegRate_eq, Nat.shiftLeft_eq, Nat.mul_comm (rateOf op).toNat]
  cases op.regKsr <;> simp [Nat.shiftRight_eq_div_pow]

/-- The high part of the combined rate, saturated (41_envelope.md R123). -/
theorem egRateHi_eq : egRateHi ksv op = min (combinedRate ksv op / 4) 15 := by
  unfold egRateHi
  rw [egRateSum_eq, Nat.shiftRight_eq_div_pow]
  dsimp only
  split <;> omega

/-- The low part of the combined rate, below saturation (41_envelope.md R123). -/
theorem egRateLo_eq (h : combinedRate ksv op < 64) : egRateLo ksv op = combinedRate ksv op % 4 := by
  unfold egRateLo
  rw [egRateSum_eq, Nat.shiftRight_eq_div_pow, if_neg (by omega)]

/-! ### The step size (41_envelope.md R124, R125) -/

/-- The low part of the rate never leaves its two bits. -/
theorem egRateLo_lt : egRateLo ksv op < 4 := by
  unfold egRateLo
  split <;> omega

theorem egIncstep_le {lo sub : Nat} (hlo : lo < 4) (hsub : sub < 4) : egIncstep lo sub ≤ 1 := by
  have all : ∀ lo sub : Fin 4, egIncstep lo sub ≤ 1 := by decide
  exact all ⟨lo, hlo⟩ ⟨sub, hsub⟩

/-- The fine regime counts up to 12, 13 or 14 with EG_ADD (41_envelope.md R124). -/
theorem egShiftFine_eq (rate : Nat) : egShiftFine g (rate / 4) (rate % 4) =
    if g.egState = true
        ∧ (rate / 4 + g.egAdd.toNat = 12
          ∨ (rate / 4 + g.egAdd.toNat = 13 ∧ rate.testBit 1 = true)
          ∨ (rate / 4 + g.egAdd.toNat = 14 ∧ rate.testBit 0 = true))
    then 1 else 0 := by
  have hbit1 : rate.testBit 1 = true ↔ rate % 4 / 2 % 2 = 1 := by
    rw [Nat.testBit_eq_decide_div_mod_eq, decide_eq_true_iff]
    omega
  have hbit0 : rate.testBit 0 = true ↔ rate % 4 % 2 = 1 := by
    rw [Nat.testBit_eq_decide_div_mod_eq, decide_eq_true_iff]
    omega
  simp only [hbit1, hbit0]
  unfold egShiftFine
  cases g.egState with
  | false => simp
  | true =>
    simp only [if_true, true_and]
    split
    · next h => rw [if_pos (.inl h)]
    · next h => split <;> omega
    · next h => split <;> omega
    · next h12 h13 h14 =>
      rw [if_neg fun h => h.elim h12 fun h => h.elim (fun h => h13 h.1) fun h => h14 h.1]

theorem egShiftFine_le (hi lo : Nat) : egShiftFine g hi lo ≤ 1 := by
  unfold egShiftFine
  split
  · split <;> omega
  · omega

/-- The coarse regime adds the table's entry and stops at 3 (41_envelope.md R125). -/
theorem egShiftCoarse_eq {hi lo : Nat} (hlo : lo < 4) : egShiftCoarse params g hi lo =
    if hi % 4 + egIncstep lo (g.timer.toNat % 4) = 0 then bitNat g.egState
    else min (hi % 4 + egIncstep lo (g.timer.toNat % 4)) 3 := by
  have hle := egIncstep_le hlo (Nat.mod_lt g.timer.toNat (show 0 < 4 by decide))
  unfold egShiftCoarse
  rw [show params.egSubstepFromEgTimer = false from rfl, if_neg Bool.false_ne_true]
  dsimp only
  generalize egIncstep lo (g.timer.toNat % 4) = entry at hle
  by_cases h0 : hi % 4 + entry = 0
  · rw [if_pos h0, if_pos h0, if_neg (by omega)]
  · rw [if_neg h0, if_neg h0]
    split <;> omega

theorem egShiftCoarse_le {hi lo : Nat} (hlo : lo < 4) : egShiftCoarse params g hi lo ≤ 3 := by
  rw [egShiftCoarse_eq g hlo]
  split
  · cases g.egState <;> decide
  · omega

theorem stepSize_of_fine (hrate : rateOf op ≠ 0) (h : combinedRate ksv op < 48) :
    stepSize g ksv op (rateOf op) = egShiftFine g (combinedRate ksv op / 4) (combinedRate ksv op % 4) := by
  rw [egShiftFine_eq]
  unfold stepSize
  dsimp only
  rw [← combinedRate, if_neg hrate, if_pos h]

theorem stepSize_of_cap (hrate : rateOf op ≠ 0) (h : 60 ≤ combinedRate ksv op) :
    stepSize g ksv op (rateOf op) = 3 := by
  unfold stepSize
  dsimp only
  rw [← combinedRate, if_neg hrate, if_neg (by omega), if_pos h]

/-- From 48 to 59 the step is the octave above 48 and the entry of R125's table; nothing there reaches the cap. -/
theorem stepSize_of_coarse (hrate : rateOf op ≠ 0) (hmin : 48 ≤ combinedRate ksv op) (hmax : combinedRate ksv op < 60) :
    stepSize g ksv op (rateOf op) =
      if combinedRate ksv op / 4 - 12 + egIncstep (combinedRate ksv op % 4) (g.timer.toNat % 4) = 0 then bitNat g.egState
      else combinedRate ksv op / 4 - 12 + egIncstep (combinedRate ksv op % 4) (g.timer.toNat % 4) := by
  have hlo : combinedRate ksv op % 4 < 4 := Nat.mod_lt _ (by decide)
  have hsub : g.timer.toNat % 4 < 4 := Nat.mod_lt _ (by decide)
  unfold stepSize
  dsimp only
  rw [← combinedRate, if_neg hrate, if_neg (by omega), if_neg (by omega)]
  generalize combinedRate ksv op % 4 = lo at hlo
  generalize g.timer.toNat % 4 = sub at hsub
  interval_cases lo <;> interval_cases sub <;> rfl

/-- The machine's step size is that of the rules at the register rate that applies. -/
theorem egShift_eq : egShift params g ksv op = stepSize g ksv op (rateOf op) := by
  have hhi := egRateHi_eq ksv op
  unfold egShift
  rw [egRegRate_eq]
  by_cases hrate : rateOf op = 0
  · rw [if_pos hrate]
    simp [stepSize, hrate]
  rw [if_neg hrate]
  by_cases hfine : combinedRate ksv op < 48
  · rw [if_pos (by omega), stepSize_of_fine g ksv op hrate hfine, egRateLo_eq ksv op (by omega),
      show egRateHi ksv op = combinedRate ksv op / 4 by omega]
  rw [if_neg (by omega), egShiftCoarse_eq g (egRateLo_lt ksv op)]
  by_cases hcap : 60 ≤ combinedRate ksv op
  · rw [stepSize_of_cap g ksv op hrate hcap, if_neg (by omega)]
    omega
  · have hle := egIncstep_le (egRateLo_lt ksv op) (Nat.mod_lt g.timer.toNat (show 0 < 4 by decide))
    rw [egRateLo_eq ksv op (by omega)] at hle ⊢
    rw [stepSize_of_coarse g ksv op hrate (by omega) (by omega),
      show egRateHi ksv op % 4 = combinedRate ksv op / 4 - 12 by omega, Nat.min_eq_left (by omega)]

theorem stepSize_le : stepSize g ksv op (rateOf op) ≤ 3 := by
  rw [← egShift_eq]
  unfold egShift
  split
  · omega
  · split
    · exact (egShiftFine_le ..).trans (by decide)
    · exact egShiftCoarse_le g (egRateLo_lt ksv op)

theorem levelRise_cases : levelRise g ksv op (rateOf op) = 0 ∨ levelRise g ksv op (rateOf op) = 1
    ∨ levelRise g ksv op (rateOf op) = 2 ∨ levelRise g ksv op (rateOf op) = 4 := by
  have hle := stepSize_le g ksv op
  unfold levelRise
  generalize stepSize g ksv op (rateOf op) = step at hle
  interval_cases step <;> decide

/-! ### The new level (41_envelope.md R126 to R131) -/

/-- The complement of a level, shifted: what R128 takes off. -/
theorem complement_shiftRight (r k : Nat) : (-(r : Int) - 1) >>> k = -((r / 2 ^ k + 1 : Nat) : Int) := by
  have hneg : -(r : Int) - 1 = Int.negSucc r := by rw [Int.negSucc_eq]; omega
  rw [hneg, Int.negSucc_shiftRight, Nat.shiftRight_eq_div_pow, Int.negSucc_eq]
  rfl

/-- A level in range is stored as it is. -/
theorem toNat_ofInt_level {v : Int} {n : Nat} (h : v = n) (hn : n < 512) : (BitVec.ofInt 9 v).toNat = n := by
  rw [h, BitVec.ofInt_natCast, BitVec.toNat_ofNat]
  exact Nat.mod_eq_of_lt hn

theorem egOff_iff : egOff op = true ↔ 0x1F8 ≤ op.egRout.toNat := by
  have all : ∀ r : BitVec 9, (r &&& 0x1F8 == 0x1F8) = true ↔ 0x1F8 ≤ r.toNat := by decide
  exact all op.egRout

variable {op}

/-- The change of the level in Attack: nothing, or its complement shifted (41_envelope.md R128). -/
theorem egInc_of_attack (hg : op.egGen = .attack) : egInc params g ksv op =
    if op.key = 0 ∨ op.egRout.toNat = 0 ∨ stepSize g ksv op op.regAr = 0 ∨ 60 ≤ combinedRate ksv op then 0
    else -((op.egRout.toNat / 2 ^ (4 - stepSize g ksv op op.regAr) + 1 : Nat) : Int) := by
  have hhi := egRateHi_eq ksv op
  have hzero : op.egRout = 0 ↔ op.egRout.toNat = 0 := BitVec.toNat_eq
  have hcap : egRateHi ksv op ≠ 15 ↔ ¬60 ≤ combinedRate ksv op := by omega
  unfold egInc
  simp only [hg, egShift_eq, rateOf_of_attack hg, complement_shiftRight, keyed_iff, hzero, hcap, gt_iff_lt,
    Nat.pos_iff_ne_zero]
  by_cases hlevel : op.egRout.toNat = 0
  · rw [if_pos hlevel, if_pos (.inr (.inl hlevel))]
  · simp only [hlevel, if_false, false_or, ← not_or, ne_eq, ite_not]

/-- In Attack the level falls by its complement, shifted, or holds (41_envelope.md R128). -/
theorem egLevelNext_of_attack (hg : op.egGen = .attack) : (egLevelNext params g ksv op).toNat =
    if op.key = 0 ∨ op.egRout.toNat = 0 ∨ stepSize g ksv op op.regAr = 0 ∨ 60 ≤ combinedRate ksv op then op.egRout.toNat
    else op.egRout.toNat - (op.egRout.toNat / 2 ^ (4 - stepSize g ksv op op.regAr) + 1) := by
  have hr := op.egRout.isLt
  have hle := stepSize_le g ksv op
  have hbase : egBase ksv op = op.egRout.toNat := by simp [egBase, egResetting, hg]
  rw [rateOf_of_attack hg] at hle
  unfold egLevelNext
  rw [hbase, egInc_of_attack g ksv hg]
  generalize stepSize g ksv op op.regAr = step at hle
  split
  · exact toNat_ofInt_level (by omega) hr
  · next hfall =>
    have hhalf : op.egRout.toNat / 2 ^ (4 - step) ≤ op.egRout.toNat / 2 ^ 1 :=
      Nat.div_le_div_left (Nat.pow_le_pow_right (by decide) (by omega)) (by decide)
    generalize op.egRout.toNat / 2 ^ (4 - step) = fall at hhalf
    exact toNat_ofInt_level (by omega) (by omega)

/-- A key-on snaps the level to 0 or holds it (41_envelope.md R126). -/
theorem egLevelNext_of_keyOn (hg : op.egGen = .release) (hkey : op.key ≠ 0) : (egLevelNext params g ksv op).toNat =
    if 60 ≤ combinedRate ksv op then 0 else op.egRout.toNat := by
  have hreset : egResetting op = true := egResetting_iff.mpr ⟨hkey, hg⟩
  have hhi := egRateHi_eq ksv op
  have hinc : egInc params g ksv op = 0 := by simp [egInc, hg, hreset]
  have hbase : egBase ksv op = if egRateHi ksv op = 15 then 0 else (op.egRout.toNat : Int) := by simp [egBase, hreset]
  unfold egLevelNext
  rw [hinc, hbase]
  split
  · rw [if_pos (by omega)]
    rfl
  · rw [if_neg (by omega)]
    exact toNat_ofInt_level (by omega) op.egRout.isLt

section
variable (hg : op.egGen ≠ .attack) (hkey : op.egGen = .release → op.key = 0)
include hg hkey

/-- Outside Attack a level of 0x1F8 or more is clamped to silence (41_envelope.md R127). -/
theorem egLevelNext_of_off (h : 0x1F8 ≤ op.egRout.toNat) : (egLevelNext params g ksv op).toNat = 0x1FF := by
  have hreset := not_egResetting hkey
  have hoff : egOff op = true := (egOff_iff op).mpr h
  have hbase : egBase ksv op = 0x1FF := by simp [egBase, hg, hreset, hoff, egMax]
  have hinc : egInc params g ksv op = 0 := by
    unfold egInc
    cases hgen : op.egGen with
    | attack => exact absurd hgen hg
    | decay => simp [hoff]
    | sustain => simp [hoff]
    | release => simp [hoff]
  unfold egLevelNext
  rw [hbase, hinc]
  rfl

/-- Outside Attack and below the clamp the level rises, but for a Decay that has reached the sustain band (41_envelope.md R129,
R130). -/
theorem egLevelNext_of_low (h : op.egRout.toNat < 0x1F8) : (egLevelNext params g ksv op).toNat =
    if op.egGen = .decay ∧ op.egRout.toNat / 16 = op.regSl.toNat then op.egRout.toNat
    else op.egRout.toNat + levelRise g ksv op (rateOf op) := by
  have hreset := not_egResetting hkey
  have hoff : ¬egOff op = true := fun ho => absurd ((egOff_iff op).mp ho) (Nat.not_le.mpr h)
  have hrise := levelRise_cases g ksv op
  have hbase : egBase ksv op = op.egRout.toNat := by simp [egBase, hreset, hoff]
  have hlive : (if ¬egOff op ∧ ¬egResetting op ∧ egShift params g ksv op > 0 then
      ((1 <<< (egShift params g ksv op - 1) : Nat) : Int) else 0) = levelRise g ksv op (rateOf op) := by
    rw [egShift_eq, levelRise]
    by_cases hzero : stepSize g ksv op (rateOf op) = 0
    · simp [hzero]
    · rw [if_pos ⟨hoff, hreset, Nat.pos_of_ne_zero hzero⟩, if_neg hzero, Nat.one_shiftLeft]
  have hinc : egInc params g ksv op =
      if op.egGen = .decay ∧ op.egRout.toNat / 16 = op.regSl.toNat then 0
      else (levelRise g ksv op (rateOf op) : Int) := by
    unfold egInc
    cases hgen : op.egGen with
    | attack => exact absurd hgen hg
    | decay => simp only [hlive, Nat.shiftRight_eq_div_pow, true_and]
    | sustain => simp only [hlive, reduceCtorEq, false_and, if_false]
    | release => simp only [hlive, reduceCtorEq, false_and, if_false]
  unfold egLevelNext
  rw [hbase, hinc]
  split
  · exact toNat_ofInt_level (by omega) op.egRout.isLt
  · exact toNat_ofInt_level (by omega) (by omega)

end

end

/-- Settles O39: the four rules of the new level, with the step size at most 3 and the rise one of 0, 1, 2 and 4. -/
theorem tickEnvelopeLevel : Obligations.TickEnvelopeLevel := by
  unfold Obligations.TickEnvelopeLevel
  intro s t o h
  obtain ⟨-, -, hlevel, -⟩ := execTick_envelope h o
  dsimp only
  rw [hlevel]
  generalize s.chip.osc = g
  generalize (s.chip.ch (chanOf o)).ksv = ksv
  generalize s.chip.op o = op
  refine ⟨fun hg => ?_, egLevelNext_of_keyOn g ksv, fun hg hkey => ?_⟩
  · rw [egLevelNext_of_attack g ksv hg]
    split
    · exact .inl rfl
    · next hfall =>
      simp only [not_or] at hfall
      obtain ⟨hkey, hzero, hstep, -⟩ := hfall
      have hle := stepSize_le g ksv op
      rw [rateOf_of_attack hg] at hle
      refine .inr ⟨hkey, Nat.pos_of_ne_zero hzero, ?_⟩
      generalize stepSize g ksv op op.regAr = step at hstep hle
      interval_cases step
      · exact absurd rfl hstep
      · exact .inr (.inr rfl)
      · exact .inr (.inl rfl)
      · exact .inl rfl
  · split
    · next hoff => exact egLevelNext_of_off g ksv hg hkey hoff
    · next hlow =>
      rw [egLevelNext_of_low g ksv hg hkey (not_le.mp hlow)]
      split
      · rfl
      · have hrise := levelRise_cases g ksv op
        omega

/-- Settles O40: the rules of the new level, at the register rate of each state. -/
theorem tickEnvelopeRates : Obligations.TickEnvelopeRates := by
  unfold Obligations.TickEnvelopeRates
  intro s t o h
  obtain ⟨-, -, hlevel, -⟩ := execTick_envelope h o
  dsimp only
  rw [hlevel]
  generalize s.chip.osc = g
  generalize (s.chip.ch (chanOf o)).ksv = ksv
  generalize s.chip.op o = op
  refine ⟨fun hg hkey hr => ?_, fun hg hidle => ?_, fun hlow =>
    ⟨fun hg hband => ?_, fun hg htype => ?_, fun hg htype => ?_, fun hg hkey => ?_⟩⟩
  · simp only [egLevelNext_of_attack g ksv hg, hkey, hr, false_or]
  · rw [egLevelNext_of_attack g ksv hg, if_pos (hidle.imp_right .inl)]
  · rw [egLevelNext_of_low g ksv (by simp [hg]) (by simp [hg]) hlow, if_neg fun h => hband h.2]
    simp [rateOf, hg]
  · rw [egLevelNext_of_low g ksv (by simp [hg]) (by simp [hg]) hlow, if_neg (by simp [hg])]
    simp [rateOf, hg, htype]
  · rw [egLevelNext_of_low g ksv (by simp [hg]) (by simp [hg]) hlow, if_neg (by simp [hg])]
    simp [rateOf, hg, htype, levelRise, stepSize]
  · rw [egLevelNext_of_low g ksv (by simp [hg]) (fun _ => hkey) hlow, if_neg (by simp [hg])]
    simp [rateOf, hg, hkey]

end Sys2Proof.Machine
end

section
/-! A silent block stays silent (70_reset_and_hazards.md R257): what each sub-step makes of an operator at rest, then the mix, the
tick and the output-rate steps. -/

namespace Sys2Proof.Machine

/-! ### The sub-steps of an operator at rest -/

/-- Twelve octaves of attenuation leave nothing (43_waveform_feedback.md R162). -/
theorem expLookup_of_faint {level : Nat} (h : 0xC00 ≤ level) : expLookup level = 0 := by
  unfold expLookup
  dsimp only
  have hrom := expRom_le ((if level > 0x1FFF then 0x1FFF else level) % 256)
  have hoctaves : 12 ≤ (if level > 0x1FFF then 0x1FFF else level) / 256 := by split <;> omega
  rw [Nat.shiftRight_eq_div_pow, Nat.shiftLeft_eq]
  refine Nat.div_eq_of_lt (lt_of_lt_of_le ?_ (Nat.pow_le_pow_right (by decide) hoctaves))
  omega

/-- No waveform is negative at phase 0, so an attenuation from 0x180 on gives 0, not -1 (43_waveform_feedback.md R165). -/
theorem wave_zero_of_faint (wf : BitVec 3) {env : BitVec 16} (h : 0x180 ≤ env.toNat) : wave wf 0 env = 0 := by
  have hneg : waveNeg wf 0 = false := by
    revert wf
    decide
  have hlookup : expLookup (waveLog wf 0 + (env.toNat <<< 3)) = 0 :=
    expLookup_of_faint (by rw [Nat.shiftLeft_eq]; omega)
  unfold wave
  rw [hlookup, hneg]
  rfl

/-- Without modulation an operator at phase output 0 gives what its waveform gives at phase 0. -/
theorem waveOut_of_faint {op : Operator} (hphase : op.pgPhaseOut = 0) (hlevel : 0x180 ≤ op.egOut.toNat) :
    waveOut 0 op = 0 := by
  unfold waveOut
  rw [hphase]
  exact congrArg wrapS16 (wave_zero_of_faint op.regWf hlevel)

/-- The output level of a level of silence is one of silence: the other terms only add (41_envelope.md R121). -/
theorem egLevelOut_of_silence (g : Oscillators) {op : Operator} (h : op.egRout = 0x1FF) :
    0x1FF ≤ (egLevelOut g op).toNat := by
  have hlevel : op.egRout.toNat = 0x1FF := congrArg BitVec.toNat h
  have hshift : op.egKsl.toNat / 2 ^ kslShift op.regKsl ≤ op.egKsl.toNat := Nat.div_le_self ..
  rw [egLevelOut_toNat]
  generalize op.egKsl.toNat / 2 ^ kslShift op.regKsl = ksl at hshift
  split <;> omega

/-- At frequency number 0 the phase stands still, with vibrato too (42_phase_noise_rhythm.md R142, R143). -/
theorem phaseIncr_of_fNum_zero (g : Oscillators) (vibshift : BitVec 1) {ch : Channel} (h : ch.fNum = 0) (op : Operator) :
    phaseIncr g vibshift ch op = 0 := by
  have hrange : vibratoRange g.vibpos vibshift 0 = 0 := by simp [vibratoRange]
  have hadjusted : adjustedFnum g vibshift ch op = 0 := by
    unfold adjustedFnum
    rw [h, hrange]
    split <;> rfl
  unfold phaseIncr
  rw [hadjusted]
  simp

/-- The level of silence is held, and with no key the operator is not reset (41_envelope.md R122, R127, R132). -/
theorem Operator.AtRest.envelope {op : Operator} (h : op.AtRest) (g : Oscillators) (ksv : BitVec 4) :
    egResetting op = false ∧ egLevelNext params g ksv op = 0x1FF ∧ egGenNext op = .release := by
  have hattack : op.egGen ≠ .attack := by simp [h.egGen]
  have hlevel : 0x1F8 ≤ op.egRout.toNat := by simp [h.egRout]
  exact ⟨Bool.eq_false_iff.mpr (not_egResetting fun _ => h.key),
    BitVec.eq_of_toNat_eq (egLevelNext_of_off g ksv hattack (fun _ => h.key) hlevel), egGenNext_of_unkeyed h.key⟩

/-! ### One operator step of a silent block -/

variable {c : Chip}

theorem Chip.Silent.setOp (h : c.Silent) (o : Fin 36) {x : Operator} (hx : x.AtRest) : (c.setOp o x).Silent where
  ops j := by
    rw [op_setOp]
    split
    · exact hx
    · exact h.ops j
  fNum := h.fNum
  rhythmOff := h.rhythmOff
  wb := h.wb
  prev := h.prev
  cur := h.cur

/-- Every source reads 0 in a silent block. -/
theorem Chip.Silent.srcValue (h : c.Silent) (s : Source) : srcValue c s = 0 := by
  cases s with
  | zero => rfl
  | fb j => exact congrArg BitVec.toInt (h.ops j).fbmod
  | out j => exact congrArg BitVec.toInt (h.ops j).out

/-- Feedback, envelope and phase leave an operator of a silent block at rest. -/
theorem afterPhase_atRest (h : c.Silent) (o : Fin 36) : (afterPhase params c o).AtRest := by
  have ho := h.ops o
  obtain ⟨hreset, hlevel, hgen⟩ := ho.envelope c.osc (c.ch (chanOf o)).ksv
  have hincr := phaseIncr_of_fNum_zero c.osc c.reg.vibshift (h.fNum (chanOf o)) (c.op o)
  exact {
    key := ho.key
    egGen := hgen
    egRout := hlevel
    pgPhase := by
      show (if egResetting (c.op o) then 0 else (c.op o).pgPhase) + BitVec.ofNat 32 (phaseIncr ..) = 0
      rw [hreset, hincr, ho.pgPhase]
      rfl
    out := ho.out
    prout := ho.out
    fbmod := by
      show feedbackMod (c.ch (chanOf o)).fb (c.op o) = 0
      unfold feedbackMod
      rw [ho.prout, ho.out]
      split
      · rfl
      · simp [wrapS16] }

theorem afterPhase_phaseOut (h : c.Silent) (o : Fin 36) : (afterPhase params c o).pgPhaseOut = 0 := by
  show phaseOut params o (c.reg.rhy.getLsbD 5) _ _ (phase16 (c.op o)) = 0
  unfold phaseOut phase16
  rw [h.rhythmOff, (h.ops o).pgPhase]
  simp

theorem operatorStep_silent (c : Chip) (o : Fin 36) (h : c.Silent) : (operatorStep params c o).Silent := by
  have hafter := afterPhase_atRest h o
  have hout : waveOut (srcValue (c.setOp o (afterPhase params c o)) (c.op o).modsrc) (afterPhase params c o) = 0 := by
    rw [(h.setOp o hafter).srcValue]
    exact waveOut_of_faint (afterPhase_phaseOut h o)
      (Nat.le_trans (by decide) (egLevelOut_of_silence c.osc (h.ops o).egRout))
  have hrest : ({ afterPhase params c o with out := 0 } : Operator).AtRest := { hafter with out := rfl }
  have hset := h.setOp o hrest
  rw [operatorStep_eq params rfl, hout]
  exact { hset with }

/-! ### The tick -/

theorem operatorSteps_silent (h : c.Silent) (l : List (Fin 36)) : (operatorSteps params l c).Silent :=
  List.foldlRecOn l (operatorStep params) h fun c hc o _ => operatorStep_silent c o hc

/-- The channels of a silent block add up to 0 on every lane, panned or masked (45_mixer_lfo.md R191, R192). -/
theorem laneSums_of_silent (h : c.Silent) : laneSums c = Quad.all 0 := by
  have hsum (i : Fin 18) : chanSum c i = 0 := by simp [chanSum, tapSum, h.srcValue, wrapS16]
  have hfront (pan : Channel → BitVec 17) (enable : Channel → Bool) : frontPart c pan enable = fun _ => 0 := by
    funext i
    simp [frontPart, hsum, wrapS16]
  have hrear (enable : Channel → Bool) : rearPart c enable = fun _ => 0 := by
    funext i
    simp [rearPart, hsum]
  unfold laneSums
  rw [hfront, hfront, hrear, hrear]
  rfl

/-- With no write pending a tick is its sound phases, its oscillators and its count. -/
theorem tickChip_silent (h : c.Silent) : (tickChip params c).Silent ∧ (tickChip params c).outp = Quad.all 0 := by
  have hsteps := operatorSteps_silent h allOps
  rw [tick_of_not_due c (by simp [h.wb])]
  generalize operatorSteps params allOps c = d at hsteps
  rw [laneSums_of_silent hsteps]
  exact ⟨{ h with ops := hsteps.ops }, rfl⟩

/-! ### Output-rate steps -/

theorem resampleTick_silent (h : c.Silent) : (resampleTick params c).Silent := by
  obtain ⟨hsilent, hout⟩ := tickChip_silent (c := { c with rsm := { c.rsm with prev := c.rsm.cur } }) { h with prev := h.cur }
  exact { hsilent with cur := hout }

theorem resampleTicks_silent (n : Nat) (h : c.Silent) : (resampleTicks params n c).Silent := by
  induction n generalizing c with
  | zero => exact h
  | succ n ih => exact ih (resampleTick_silent h)

/-- Between two samples of silence there is silence (47_resampler.md R228). -/
theorem interp_zero (r a : Nat) : interp params r a 0 0 = 0 := by simp [interp, params, wrapS16]

theorem interpLanes_of_silent (h : c.Silent) : interpLanes params c.rsm = Quad.all 0 := by
  unfold interpLanes
  rw [h.prev, h.cur]
  simp only [Quad.all, interp_zero]

theorem tickResampled_silent (h : c.Silent) :
    (tickResampled params c).Silent ∧ (tickResampled params c).rsm.out = Quad.all 0 := by
  have hticks := resampleTicks_silent (c.rsm.acc / c.rsm.ratio.toNat) h
  exact ⟨{ hticks with }, interpLanes_of_silent hticks⟩

theorem resampledFrames_silent (n : Nat) {s : State} (h : s.chip.Silent) : (resampledFrames n s).chip.Silent
    ∧ (resampledFrames n s).output = s.output ++ List.replicate n (Quad.all 0) := by
  induction n generalizing s with
  | zero => exact ⟨h, (List.append_nil _).symm⟩
  | succ n ih =>
    obtain ⟨hsilent, hout⟩ := tickResampled_silent h
    obtain ⟨hchip, houtput⟩ := ih (s := resampledFrame s) hsilent
    refine ⟨hchip, houtput.trans ?_⟩
    show (s.output ++ [(tickResampled params s.chip).rsm.out]) ++ _ = _
    rw [hout, List.append_assoc]
    rfl

theorem resetChip_silent (p : Params) (rate : Nat) : (resetChip p rate).Silent where
  ops o := by
    rw [resetChip_op]
    exact ⟨rfl, rfl, rfl, rfl, rfl, rfl, rfl⟩
  fNum i := by
    rw [resetChip_ch]
    rfl
  rhythmOff := by
    rw [resetChip_reg]
    rfl
  wb := resetChip_wb p rate
  prev := by
    rw [resetChip_rsm]
    rfl
  cur := by
    rw [resetChip_rsm]
    rfl

/-- Settles O53: RESET sets up `Chip.Silent`, which a native tick and the output-rate steps keep while they output zeros. -/
theorem silenceLasts : Obligations.SilenceLasts := by
  unfold Obligations.SilenceLasts
  refine ⟨fun rate s t h => ?_, fun s hr h => ⟨?_, fun hratio => ?_⟩⟩
  · obtain ⟨-, -, rfl⟩ := execReset_eq_next_iff.mp h
    dsimp only
    exact resetChip_silent params rate.toNat
  · obtain ⟨hsilent, hout⟩ := tickChip_silent h
    refine ⟨_, execTick_eq_next_iff.mpr ⟨hr, rfl⟩, hsilent, ?_⟩
    dsimp only
    rw [hout]
    rfl
  · have stream (n : BitVec 28) : ∃ t, execStream n s = .next t ∧ t.chip.Silent
        ∧ t.output = s.output ++ List.replicate n.toNat ⟨0, 0, 0, 0⟩ :=
      ⟨_, execStream_of_ratio hr fun _ => hratio, resampledFrames_silent n.toNat h⟩
    obtain ⟨t, ht, hsilent, houtput⟩ := stream 1
    exact ⟨⟨t, (execTickr_eq_execStream s).trans ht, hsilent, houtput⟩, stream⟩

end Sys2Proof.Machine
end

section
/-! The rhythm keys under every register write, and under every step (42_phase_noise_rhythm.md R148, R151 to R153). -/

namespace Sys2Proof.Machine

theorem drumKey_outside (rhy : BitVec 6) {o : Fin 36} (ho : ¬IsDrum (chanOf o)) : drumKey rhy o = false := by
  rw [isDrum_chanOf_iff] at ho
  have hne (j : Fin 36) (hj : 12 ≤ j.val ∧ j.val ≤ 17) : o ≠ j := fun e => ho (e ▸ hj)
  simp [drumKey, hne 12, hne 13, hne 14, hne 15, hne 16, hne 17]

/-- WR_BD stores RHY and gives the drum operators the keys it says; no other operator had one (42_phase_noise_rhythm.md
R152). -/
theorem wrBd_drumKeyed (b : Byte) {c : Chip} (h : c.DrumKeyed) : (wrBd params b c).DrumKeyed := fun o => by
  have hrhy : (wrBd params b c).reg.rhy = b.extractLsb' 0 6 := congrArg GlobalRegs.rhy (wrBd_reg b c)
  rw [hrhy]
  by_cases ho : IsDrum (chanOf o)
  · rw [wrBd_op b ho]
    exact BitVec.getLsbD_append.trans (by simp)
  · rw [(wrBd_outside b c).op o ho, h o, drumKey_outside _ ho, drumKey_outside _ ho]

/-- RHY changes only in the write that changes the rhythm keys (40_register_writes.md R99). -/
theorem regWrite_rhy {a : Addr} (ha : writesRhythmKey (classify a) = false) (b : Byte) (c : Chip) :
    (regWrite params a b c).reg.rhy = c.reg.rhy := by
  cases hcl : classify a
  case bd => simp [hcl, writesRhythmKey] at ha
  case fourOp =>
    have hw : regWrite params a b c = wr4op b c := by simp only [regWrite, hcl]
    rw [hw, wr4op_reg]
  case chc0 i =>
    have hw : regWrite params a b c = wrChc0 i b c := by simp only [regWrite, hcl]
    rw [hw, wrChc0_reg]
  all_goals exact (regWrite_of_not_rewires (by rw [hcl]; rfl) b c).2.1

theorem regWrite_drumKeyed (a : Addr) (b : Byte) (c : Chip) (h : c.DrumKeyed) : (regWrite params a b c).DrumKeyed := by
  cases hcl : classify a
  case bd =>
    have hw : regWrite params a b c = wrBd params b c := by simp only [regWrite, hcl]
    exact hw ▸ wrBd_drumKeyed b h
  all_goals
    have ha : writesRhythmKey (classify a) = false := by rw [hcl]; rfl
    exact fun o => by rw [(regWrite_keyBits a b c o).1 ha, regWrite_rhy ha, h o]

theorem drumKeyed_ofProgram : OfProgram Chip.DrumKeyed := fun c d _ hreg hprog h o => by
  have hkey : (d.op o).key = (c.op o).key := congrArg OperatorProg.key (hprog o)
  rw [hkey, hreg, h o]

/-- Settles O59: WR_BD sets the keys and RHY together, no other write reaches either, the invariant looks at programmed state
only, and RESET sets it up. -/
theorem stepKeepsDrumKeys : Obligations.StepKeepsDrumKeys := by
  unfold Obligations.StepKeepsDrumKeys
  exact step_keeps (P := Chip.DrumKeyed) (commandEffect_preserves drumKeyed_ofProgram regWrite_drumKeyed)
    fun rate _ _ => resetChip_drumKeyed params rate

end Sys2Proof.Machine
end

section
/-! The oscillators after a tick in the arithmetic of the rules: noise, tremolo, vibrato and the sample timer
(42_phase_noise_rhythm.md R146, 45_mixer_lfo.md R200 to R203). -/

namespace Sys2Proof.Machine

/-- The noise register shifted right, the parity of its taps coming in at the top (42_phase_noise_rhythm.md R146). -/
theorem noiseNext_eq (n : BitVec 23) :
    noiseNext n = BitVec.ofBool (n.getLsbD 0 ^^ n.getLsbD 14) ++ n.extractLsb' 1 22 := by
  ext j hj
  rcases Nat.lt_or_eq_of_le (Nat.le_of_lt_succ hj) with hlow | rfl
  · rw [BitVec.getElem_append]
    simp [noiseNext, hlow, Nat.add_comm]
  · rw [BitVec.getElem_append]
    simp [noiseNext]

section
variable (k : BitVec 3) (g : Oscillators)

theorem oscStep_timer : (oscStep params k g).timer = g.timer + 1 := by
  rw [oscStep, egTimerStep_frame]
  rfl

theorem oscStep_vibpos : (oscStep params k g).vibpos = (vibratoStep g).vibpos := by
  rw [oscStep, egTimerStep_frame]
  rfl

theorem vibratoStep_toNat : (vibratoStep g).vibpos.toNat =
    if g.timer.toNat % 1024 = 1023 then (g.vibpos.toNat + 1) % 8 else g.vibpos.toNat := by
  unfold vibratoStep
  dsimp only
  split <;> simp [BitVec.toNat_add]

theorem tremoloStep_trempos : (tremoloStep k g).trempos.toNat =
    if g.timer.toNat % 64 = 63 then (g.trempos.toNat + 1) % 210 else g.trempos.toNat := by
  unfold tremoloStep
  dsimp only
  rw [BitVec.toNat_ofNat]
  have := g.trempos.isLt
  split <;> omega

/-- The tremolo is the triangle over its position, scaled by the depth (45_mixer_lfo.md R201). -/
theorem tremoloStep_tremolo (h : g.trempos.toNat < 210) : (tremoloStep k g).tremolo.toNat =
    min (tremoloStep k g).trempos.toNat (210 - (tremoloStep k g).trempos.toNat) / 2 ^ k.toNat := by
  rw [tremoloStep_trempos]
  unfold tremoloStep
  dsimp only
  generalize hpos : (if g.timer.toNat % 64 = 63 then (g.trempos.toNat + 1) % 210 else g.trempos.toNat) = pos
  have hlt : pos < 210 := by
    rw [← hpos]
    split <;> omega
  have htriangle : (if pos < 105 then pos else 210 - pos) = min pos (210 - pos) := by split <;> omega
  have hle : min pos (210 - pos) / 2 ^ k.toNat ≤ min pos (210 - pos) := Nat.div_le_self ..
  rw [htriangle, BitVec.toNat_ofNat, Nat.shiftRight_eq_div_pow]
  exact Nat.mod_eq_of_lt (by omega)

end

theorem tickChip_osc (c : Chip) : (tickChip params c).osc = oscStep params c.reg.tremshift c.osc :=
  congrArg ChipRun.osc (tick_run c).1

/-- Settles O34: each oscillator's own step, none of which the later ones touch. -/
theorem tickAdvancesLfos : Obligations.TickAdvancesLfos := by
  unfold Obligations.TickAdvancesLfos
  intro s t h
  obtain ⟨-, rfl⟩ := execTick_eq_next_iff.mp h
  dsimp only
  rw [tickChip_osc, oscStep_noise, oscStep_timer, oscStep_vibpos, oscStep_trempos, oscStep_tremolo]
  exact ⟨noiseNext_eq _, BitVec.toNat_add _ _, vibratoStep_toNat _, tremoloStep_trempos ..,
    tremoloStep_tremolo _ _⟩

end Sys2Proof.Machine
end

section
/-! The phase generator after a tick (42_phase_noise_rhythm.md R142 to R145): the increment in the arithmetic of the rules, the
accumulator and the phase output. -/

namespace Sys2Proof.Machine

/-! ### The phase increment (42_phase_noise_rhythm.md R142, R143) -/

/-- The size of the vibrato's change: by the position in its half cycle, scaled by the depth (42_phase_noise_rhythm.md R143). -/
def vibratoSize (vibpos : Nat) (vibshift : BitVec 1) (upper : Nat) : Nat :=
  (if vibpos % 4 = 0 then 0 else if vibpos % 2 = 1 then upper / 2 else upper) / 2 ^ vibshift.toNat

theorem vibratoSize_le (vibpos : Nat) (vibshift : BitVec 1) (upper : Nat) : vibratoSize vibpos vibshift upper ≤ upper := by
  refine (Nat.div_le_self ..).trans ?_
  split
  · exact Nat.zero_le _
  · split <;> omega

/-- The vibrato raises the frequency number in the first half of its cycle and lowers it in the second. -/
theorem vibratoRange_eq (vibpos : BitVec 3) (vibshift : BitVec 1) (fNum : BitVec 10) : vibratoRange vibpos vibshift fNum =
    if vibpos.toNat < 4 then (vibratoSize vibpos.toNat vibshift (fNum.toNat / 128) : Int)
    else -(vibratoSize vibpos.toNat vibshift (fNum.toNat / 128) : Int) := by
  have hupper : (fNum.extractLsb' 7 3).toNat = fNum.toNat / 128 := by
    rw [BitVec.extractLsb'_toNat, Nat.shiftRight_eq_div_pow]
    have := fNum.isLt
    omega
  have hpos : ∀ v : BitVec 3, (v.extractLsb' 0 2 = 0 ↔ v.toNat % 4 = 0) ∧ (v.getLsbD 0 = true ↔ v.toNat % 2 = 1)
      ∧ (v.getLsbD 2 = true ↔ ¬v.toNat < 4) := by decide
  obtain ⟨hquarter, hodd, hhalf⟩ := hpos vibpos
  unfold vibratoRange vibratoSize
  simp only [hupper, hquarter, hodd, hhalf, Nat.shiftRight_eq_div_pow, pow_one, ite_not]

section
variable (g : Oscillators) (vibshift : BitVec 1) (ch : Channel) (op : Operator)

theorem vibratoFnum_eq : vibratoFnum g vibshift ch op =
    if op.regVib = false then ch.fNum.toNat
    else if g.vibpos.toNat < 4 then ch.fNum.toNat + vibratoSize g.vibpos.toNat vibshift (ch.fNum.toNat / 128)
    else ch.fNum.toNat - vibratoSize g.vibpos.toNat vibshift (ch.fNum.toNat / 128) := rfl

theorem adjustedFnum_toNat : (adjustedFnum g vibshift ch op).toNat = vibratoFnum g vibshift ch op := by
  have hlt := ch.fNum.isLt
  have hsize := vibratoSize_le g.vibpos.toNat vibshift (ch.fNum.toNat / 128)
  rw [vibratoFnum_eq, adjustedFnum, vibratoRange_eq]
  generalize vibratoSize g.vibpos.toNat vibshift (ch.fNum.toNat / 128) = size at hsize
  cases op.regVib with
  | false => exact BitVec.toNat_setWidth_of_le (by decide)
  | true =>
    simp only [if_true, Bool.true_eq_false, if_false, BitVec.toNat_ofInt]
    split <;> omega

theorem phaseIncr_eq : phaseIncr g vibshift ch op = increment g vibshift ch op := by
  unfold phaseIncr increment
  rw [adjustedFnum_toNat, Nat.shiftLeft_eq]
  simp only [Nat.shiftRight_eq_div_pow, pow_one]

end

/-! ### The accumulator and the phase output (42_phase_noise_rhythm.md R144, R145) -/

theorem phase16_toNat (op : Operator) : (phase16 op).toNat = phaseBits op := by
  rw [phase16, BitVec.extractLsb'_toNat, Nat.shiftRight_eq_div_pow]
  rfl

/-- The phase of every operator after a tick: from the state before it, but for the rhythm latches its own step finds. -/
theorem tickChip_phase (c : Chip) (o : Fin 36) :
    ((tickChip params c).op o).pgPhase = (if egResetting (c.op o) then 0 else (c.op o).pgPhase)
        + BitVec.ofNat 32 (phaseIncr c.osc c.reg.vibshift (c.ch (chanOf o)) (c.op o))
      ∧ ((tickChip params c).op o).pgPhaseOut = phaseOut params o (c.reg.rhy.getLsbD 5)
        (latchNext o (c.reg.rhy.getLsbD 5) (phase16 (c.op o)) (beforeStep params c o).latch)
        (c.osc.noise.getLsbD 0) (phase16 (c.op o)) := by
  have hdyn := tickChip_op_dyn c o
  rw [operatorStep_op params rfl] at hdyn
  obtain ⟨hop, hch, hosc⟩ := beforeStep_same c o
  have hreg := (beforeStep_rest params rfl c o).reg
  generalize beforeStep params c o = b at *
  rw [← hop, ← hch, ← hosc, ← hreg]
  exact ⟨congrArg OperatorDyn.pgPhase hdyn, congrArg OperatorDyn.pgPhaseOut hdyn⟩

/-- Without rhythm mode, and for every operator it does not override, the phase output is the phase itself. -/
theorem phaseOut_of_plain {o : Fin 36} {rhythm : Bool} (h : rhythm = false ∨ (o ≠ 13 ∧ o ≠ 16 ∧ o ≠ 17))
    (l : RhythmLatches) (n : Bool) (ph : BitVec 16) : phaseOut params o rhythm l n ph = ph := by
  rcases h with rfl | ⟨h13, h16, h17⟩
  · simp [phaseOut]
  · simp [phaseOut, h13, h16, h17]

/-- Settles O41: the accumulator by `phaseIncr_eq`, the output outside rhythm mode by `phaseOut_of_plain`. -/
theorem tickPhase : Obligations.TickPhase := by
  unfold Obligations.TickPhase
  intro s t o h
  obtain ⟨-, rfl⟩ := execTick_eq_next_iff.mp h
  obtain ⟨hphase, hout⟩ := tickChip_phase s.chip o
  dsimp only
  rw [hphase, hout, phaseIncr_eq]
  refine ⟨?_, fun hplain => ?_⟩
  · simp only [egResetting_iff]
    split <;> simp [BitVec.toNat_add]
  · rw [phaseOut_of_plain hplain, phase16_toNat]

end Sys2Proof.Machine
end

section
/-! The rhythm latches after a tick and the phase outputs they override (42_phase_noise_rhythm.md R149, R150). -/

namespace Sys2Proof.Machine

/-! ### The latches during the walk (42_phase_noise_rhythm.md R149) -/

theorem allOps_nodup : allOps.Nodup := by
  have hall : allOps = List.finRange 36 := rfl
  rw [hall]
  exact List.nodup_finRange 36

/-- The latches that the steps of the operators of `l` leave, each with its phase from before the tick. -/
def latchWalk (c : Chip) (l : List (Fin 36)) : RhythmLatches :=
  l.foldl (fun x o => latchNext o (c.reg.rhy.getLsbD 5) (phase16 (c.op o)) x) c.latch

theorem operatorSteps_latch (c : Chip) {l : List (Fin 36)} (hl : l.Nodup) :
    (operatorSteps params l c).latch = latchWalk c l := by
  induction l generalizing c with
  | nil => rfl
  | cons o l ih =>
    obtain ⟨ho, hl⟩ := List.nodup_cons.mp hl
    refine (ih (operatorStep params c o) hl).trans ?_
    unfold latchWalk
    rw [operatorStep_latch params rfl, (operatorStep_rest params rfl c o).reg, List.foldl_cons]
    refine List.foldl_ext _ _ _ fun x j hj => ?_
    rw [operatorStep_op_ne params rfl c o fun e => ho (e ▸ hj)]

theorem beforeStep_latch (c : Chip) (o : Fin 36) : (beforeStep params c o).latch = latchWalk c (allOps.take o.val) :=
  operatorSteps_latch c (allOps_nodup.sublist (List.take_sublist ..))

/-- Only the hi-hat and the top cymbal latch bits of their phase. -/
theorem latchNext_of_other {o : Fin 36} (h13 : o ≠ 13) (h17 : o ≠ 17) (rhythm : Bool) (ph : BitVec 16) (x : RhythmLatches) :
    latchNext o rhythm ph x = x := by
  rw [latchNext, if_neg h13, if_neg fun h => h17 h.1]

/-- So a walk may skip the operators that are neither. -/
theorem latchWalk_filter (c : Chip) (l : List (Fin 36)) :
    latchWalk c (l.filter fun o => o = 13 ∨ o = 17) = latchWalk c l := by
  unfold latchWalk
  rw [List.foldl_filter]
  refine List.foldl_ext _ _ _ fun x o _ => ?_
  split
  · rfl
  · next h =>
    rw [decide_eq_true_iff, not_or] at h
    exact (latchNext_of_other h.1 h.2 ..).symm

theorem phase16_getLsbD (op : Operator) (k : Nat) : (phase16 op).getLsbD k = (phaseBits op).testBit k := by
  rw [← phase16_toNat]
  rfl

/-- The latches once the hi-hat has stepped: its own bits are new, the top cymbal's still those of the last tick. -/
def hiHatLatched (c : Chip) : RhythmLatches :=
  { c.latch with
    hh2 := (phaseBits (c.op 13)).testBit 2
    hh3 := (phaseBits (c.op 13)).testBit 3
    hh7 := (phaseBits (c.op 13)).testBit 7
    hh8 := (phaseBits (c.op 13)).testBit 8 }

/-- The latches once the top cymbal has stepped too, with or without rhythm mode. -/
def cymbalLatched (c : Chip) : RhythmLatches :=
  { hiHatLatched c with
    tc3 := if c.reg.rhy.getLsbD 5 then (phaseBits (c.op 17)).testBit 3 else c.latch.tc3
    tc5 := if c.reg.rhy.getLsbD 5 then (phaseBits (c.op 17)).testBit 5 else c.latch.tc5 }

theorem latchNext_hiHat (c : Chip) (rhythm : Bool) : latchNext 13 rhythm (phase16 (c.op 13)) c.latch = hiHatLatched c := by
  rw [latchNext, if_pos rfl]
  simp only [phase16_getLsbD, hiHatLatched]

theorem latchNext_cymbal (c : Chip) :
    latchNext 17 (c.reg.rhy.getLsbD 5) (phase16 (c.op 17)) (hiHatLatched c) = cymbalLatched c := by
  rw [latchNext, if_neg (by decide), cymbalLatched]
  cases c.reg.rhy.getLsbD 5 with
  | false => rfl
  | true => simp only [phase16_getLsbD, and_self, if_true]

/-- What a walk that has passed the hi-hat but not the top cymbal leaves. -/
theorem latchWalk_hiHat (c : Chip) {l : List (Fin 36)} (hl : l.filter (fun o => o = 13 ∨ o = 17) = [13]) :
    latchWalk c l = hiHatLatched c := by
  rw [← latchWalk_filter, hl]
  exact latchNext_hiHat c (c.reg.rhy.getLsbD 5)

theorem tickChip_latch (c : Chip) : (tickChip params c).latch = cymbalLatched c := by
  have hfilter : allOps.filter (fun o => o = 13 ∨ o = 17) = [13, 17] := rfl
  have hrun : (tickChip params c).latch = (operatorSteps params allOps c).latch := by
    simpa only [Chip.run] using congrArg ChipRun.latch (tick_run c).1
  rw [hrun, operatorSteps_latch c allOps_nodup, ← latchWalk_filter, hfilter, latchWalk, List.foldl_cons, List.foldl_cons,
    latchNext_hiHat, latchNext_cymbal, List.foldl_nil]

/-! ### The overridden phase outputs (42_phase_noise_rhythm.md R150) -/

/-- In rhythm mode the hi-hat and the snare see the top cymbal's latched bits of the last tick, the top cymbal its own of this
one. -/
theorem tickChip_rhythmPhase {c : Chip} (hon : c.reg.rhy.getLsbD 5 = true) :
    ((tickChip params c).op 13).pgPhaseOut = rhythmPhase 13 (hiHatLatched c) (c.osc.noise.getLsbD 0)
      ∧ ((tickChip params c).op 16).pgPhaseOut = rhythmPhase 16 (hiHatLatched c) (c.osc.noise.getLsbD 0)
      ∧ ((tickChip params c).op 17).pgPhaseOut = rhythmPhase 17 (cymbalLatched c) (c.osc.noise.getLsbD 0) := by
  have overridden (o : Fin 36) (ho : o = 13 ∨ o = 16 ∨ o = 17) : ((tickChip params c).op o).pgPhaseOut =
      rhythmPhase o (latchNext o (c.reg.rhy.getLsbD 5) (phase16 (c.op o)) (latchWalk c (allOps.take o.val)))
        (c.osc.noise.getLsbD 0) := by
    rw [(tickChip_phase c o).2, beforeStep_latch]
    exact if_pos ⟨hon, ho⟩
  refine ⟨?_, ?_, ?_⟩
  · have hfirst : latchWalk c (allOps.take (13 : Fin 36).val) = c.latch := by rw [← latchWalk_filter]; rfl
    rw [overridden 13 (by decide), hfirst, latchNext_hiHat]
  · rw [overridden 16 (by decide), latchWalk_hiHat c rfl, latchNext_of_other (by decide) (by decide)]
  · rw [overridden 17 (by decide), latchWalk_hiHat c rfl, latchNext_cymbal]

/-- What the outputs of the hi-hat and the top cymbal test (42_phase_noise_rhythm.md R150). -/
def RhythmLatches.mixed (l : RhythmLatches) : Bool := (l.hh2 != l.hh7) || (l.hh3 != l.tc5) || (l.tc3 != l.tc5)

theorem rhythmPhase_hiHat (l : RhythmLatches) (n : Bool) : rhythmPhase 13 l n =
    match l.mixed, n with
    | false, false => 0x034
    | false, true => 0x0D0
    | true, false => 0x2D0
    | true, true => 0x234 := by
  have hphase : rhythmPhase 13 l n = (if l.mixed then 0x200 else 0) ||| (if l.mixed ^^ n then 0xD0 else 0x34) := rfl
  rw [hphase]
  cases l.mixed <;> cases n <;> rfl

theorem rhythmPhase_snare (l : RhythmLatches) (n : Bool) : rhythmPhase 16 l n =
    match l.hh8, n with
    | false, false => 0x000
    | false, true => 0x100
    | true, false => 0x300
    | true, true => 0x200 := by
  have hphase : rhythmPhase 16 l n = (if l.hh8 then 0x200 else 0) ||| (if l.hh8 ^^ n then 0x100 else 0) := rfl
  rw [hphase]
  cases l.hh8 <;> cases n <;> rfl

theorem rhythmPhase_cymbal (l : RhythmLatches) (n : Bool) : rhythmPhase 17 l n = if l.mixed then 0x280 else 0x080 := by
  have hphase : rhythmPhase 17 l n = (if l.mixed then 0x200 else 0) ||| 0x80 := rfl
  rw [hphase]
  cases l.mixed <;> rfl

/-- Settles O42: the latches are those of `tickChip_latch`, the outputs the values of RHYTHM_PHASE at them. -/
theorem tickRhythmPhases : Obligations.TickRhythmPhases := by
  unfold Obligations.TickRhythmPhases
  intro s t h
  obtain ⟨-, rfl⟩ := execTick_eq_next_iff.mp h
  dsimp only
  rw [tickChip_latch]
  refine ⟨rfl, rfl, rfl, rfl, rfl, rfl, fun hon => ?_⟩
  obtain ⟨hhat, hsnare, hcymbal⟩ := tickChip_rhythmPhase hon
  rw [hhat, hsnare, hcymbal]
  exact ⟨rhythmPhase_hiHat .., rhythmPhase_snare .., rhythmPhase_cymbal ..⟩

end Sys2Proof.Machine
end

section
/-! The feedback buffer and the output of every operator after a tick (43_waveform_feedback.md R164, R166, 44_router.md R186,
45_mixer_lfo.md R190). -/

namespace Sys2Proof.Machine

/-! ### Feedback (43_waveform_feedback.md R166) -/

/-- The arithmetic shift of the rule is a floor division. -/
theorem feedbackMod_eq (fb : BitVec 3) (op : Operator) : feedbackMod fb op =
    if fb.toNat = 0 then 0 else BitVec.ofInt 16 ((op.prout.toInt + op.out.toInt) / 2 ^ (9 - fb.toNat)) := by
  have hzero : fb = 0 ↔ fb.toNat = 0 := BitVec.toNat_inj.symm
  simp only [feedbackMod, hzero, wrapS16, Int.shiftRight_eq_div_pow, Nat.cast_pow, Nat.cast_ofNat]

/-- The feedback history and buffer of every operator after a tick, from the state before it. -/
theorem tickChip_feedback (c : Chip) (o : Fin 36) : ((tickChip params c).op o).prout = (c.op o).out
    ∧ ((tickChip params c).op o).fbmod = feedbackMod (c.ch (chanOf o)).fb (c.op o) := by
  have hdyn := tickChip_op_dyn c o
  rw [operatorStep_op params rfl] at hdyn
  obtain ⟨hop, hch, -⟩ := beforeStep_same c o
  generalize beforeStep params c o = b at hdyn hop hch
  rw [← hop, ← hch]
  exact ⟨congrArg OperatorDyn.prout hdyn, congrArg OperatorDyn.fbmod hdyn⟩

/-- Settles O36: the buffer by `tickChip_feedback`, in the arithmetic of `feedbackMod_eq`. -/
theorem tickFeedback : Obligations.TickFeedback := by
  unfold Obligations.TickFeedback
  intro s t o h
  obtain ⟨-, rfl⟩ := execTick_eq_next_iff.mp h
  obtain ⟨hprout, hfbmod⟩ := tickChip_feedback s.chip o
  exact ⟨hprout, hfbmod.trans (feedbackMod_eq ..)⟩

/-! ### The sources an operator's wave sub-step reads (44_router.md R186, 45_mixer_lfo.md R190) -/

/-- An earlier operator has already made its step when operator `o` makes its own. -/
theorem beforeStep_dyn_of_lt (c : Chip) {o j : Fin 36} (h : j < o) :
    ((beforeStep params c o).op j).dyn = ((tickChip params c).op j).dyn := by
  rw [beforeStep_op params rfl, if_pos h, (tick_run c).2 j]

/-- What operator `o` reads from a source between its phase step and its wave step is what `liveSource` says. -/
theorem srcValue_afterPhase (c : Chip) (o : Fin 36) (x : Source) :
    srcValue ((beforeStep params c o).setOp o (afterPhase params (beforeStep params c o) o)) x =
      liveSource c (tickChip params c) o x := by
  have later : ∀ j, ¬j < o → (beforeStep params c o).op j = c.op j := fun j h => by
    rw [beforeStep_op params rfl, if_neg h]
  cases x with
  | zero => rfl
  | fb j =>
    rcases lt_trichotomy j o with h | rfl | h
    · rw [srcValue, liveSource, op_setOp_ne _ _ _ _ h.ne', if_pos h.le]
      exact congrArg (BitVec.toInt ∘ OperatorDyn.fbmod) (beforeStep_dyn_of_lt c h)
    · obtain ⟨hop, hch, -⟩ := beforeStep_same c j
      rw [srcValue, liveSource, op_setOp_same, if_pos le_rfl, (tickChip_feedback c j).2, ← hop, ← hch]
      rfl
    · rw [srcValue, liveSource, op_setOp_ne _ _ _ _ h.ne, if_neg h.not_ge, later j h.not_gt]
  | out j =>
    rcases lt_trichotomy j o with h | rfl | h
    · rw [srcValue, liveSource, op_setOp_ne _ _ _ _ h.ne', if_pos h]
      exact congrArg (BitVec.toInt ∘ OperatorDyn.out) (beforeStep_dyn_of_lt c h)
    · rw [srcValue, liveSource, op_setOp_same, if_neg (lt_irrefl j), ← (beforeStep_same c j).1]
      rfl
    · rw [srcValue, liveSource, op_setOp_ne _ _ _ _ h.ne, if_neg h.not_gt, later j h.not_gt]

/-! ### The output (43_waveform_feedback.md R164) -/

/-- The low ten bits of the 16-bit sum are the sum modulo 1024. -/
theorem waveOut_eq (m : Int) (op : Operator) : waveOut m op =
    BitVec.ofInt 16 (wave op.regWf (BitVec.ofInt 10 ((op.pgPhaseOut.toNat + m) % 1024)) op.egOut) := by
  have hbits : ∀ v : Int, (BitVec.ofInt 16 v).extractLsb' 0 10 = BitVec.ofInt 10 (v % 1024) := fun v => by
    apply BitVec.eq_of_toNat_eq
    rw [BitVec.extractLsb'_toNat, BitVec.toNat_ofInt, BitVec.toNat_ofInt]
    omega
  unfold waveOut
  rw [← hbits]
  rfl

/-- The output of every operator after a tick: its waveform at the phase output and the level the tick leaves. -/
theorem tickChip_out (c : Chip) (o : Fin 36) : ((tickChip params c).op o).out =
    BitVec.ofInt 16 (wave (c.op o).regWf
      (BitVec.ofInt 10
        ((((tickChip params c).op o).pgPhaseOut.toNat + liveSource c (tickChip params c) o (c.op o).modsrc) % 1024))
      ((tickChip params c).op o).egOut) := by
  have hdyn := tickChip_op_dyn c o
  have hop := (beforeStep_same c o).1
  rw [operatorStep_op params rfl, hop, srcValue_afterPhase] at hdyn
  have hphase := congrArg OperatorDyn.pgPhaseOut hdyn
  have hlevel := congrArg OperatorDyn.egOut hdyn
  have hout := congrArg OperatorDyn.out hdyn
  simp only [Operator.dyn] at hphase hlevel hout
  rw [hout, hphase, hlevel, waveOut_eq, ← hop]
  rfl

/-- Settles O43: `tickChip_out` at the block TICK leaves. -/
theorem tickOperatorOutput : Obligations.TickOperatorOutput := by
  unfold Obligations.TickOperatorOutput
  intro s t o h
  obtain ⟨-, rfl⟩ := execTick_eq_next_iff.mp h
  exact tickChip_out s.chip o

end Sys2Proof.Machine
end

section
/-! The two ROMs, the exponential lookup and the eight waveforms (43_waveform_feedback.md R160 to R163, R165). -/

namespace Sys2Proof.Machine

/-! ### The ROMs and the lookup (43_waveform_feedback.md R160 to R162) -/

/-- Every entry of EXP_ROM, doubled, is within 1 of its power of two: both sides taken to the 256th power (R161). -/
theorem expRom_rounded : ∀ i, i < 256 →
    (2 * expRom i - 1) ^ 256 ≤ 2 ^ (11 * 256 + (255 - i)) ∧ 2 ^ (11 * 256 + (255 - i)) < (2 * expRom i + 1) ^ 256 := by
  decide +kernel

theorem logsinRom_listing : (List.range 256).map logsinRom = logsinListing := by
  decide +kernel

theorem expLookup_eq {level : Nat} (h : level ≤ 0x1FFF) :
    expLookup level = 2 * expRom (level % 256) / 2 ^ (level / 256) := by
  unfold expLookup
  dsimp only
  rw [if_neg (Nat.not_lt.2 h), Nat.shiftLeft_eq, Nat.shiftRight_eq_div_pow, Nat.mul_comm]

/-! ### A waveform by its log and its sign (43_waveform_feedback.md R163, R165) -/

section
variable {wf wf' : BitVec 3} {p p' : BitVec 10} {env : BitVec 16}

theorem wave_of_pos (h : waveNeg wf p = false) : wave wf p env = expLookup (waveLog wf p + 8 * env.toNat) := by
  unfold wave
  rw [h, Nat.shiftLeft_eq, Nat.mul_comm]
  rfl

theorem wave_of_neg (h : waveNeg wf p = true) : wave wf p env = -(expLookup (waveLog wf p + 8 * env.toNat) : Int) - 1 := by
  unfold wave
  rw [h, Nat.shiftLeft_eq, Nat.mul_comm]
  rfl

theorem wave_congr (hlog : waveLog wf p = waveLog wf' p') (hneg : waveNeg wf p = waveNeg wf' p') :
    wave wf p env = wave wf' p' env := by
  unfold wave
  rw [hlog, hneg]

/-- The same log with the other sign is the ones' complement. -/
theorem wave_complement (hlog : waveLog wf p = waveLog wf' p') (hneg : waveNeg wf p = !waveNeg wf' p') :
    wave wf p env = -wave wf' p' env - 1 := by
  cases h : waveNeg wf' p' with
  | false => rw [wave_of_neg (hneg.trans (congrArg not h)), wave_of_pos h, hlog]
  | true =>
    rw [wave_of_pos (hneg.trans (congrArg not h)), wave_of_neg h, hlog]
    omega

/-- From twelve octaves of attenuation on, only the sign is left. -/
theorem wave_of_faint (h : 0xC00 ≤ waveLog wf p + 8 * env.toNat) : wave wf p env = if waveNeg wf p then -1 else 0 := by
  cases hneg : waveNeg wf p with
  | false =>
    rw [wave_of_pos hneg, expLookup_of_faint h]
    rfl
  | true =>
    rw [wave_of_neg hneg, expLookup_of_faint h]
    rfl

/-- A log of sixteen octaves is silence. -/
theorem wave_of_silent (hlog : waveLog wf p = 0x1000) (hneg : waveNeg wf p = false) : wave wf p env = 0 := by
  rw [wave_of_faint (by omega), hneg]
  rfl

end

/-- Settles O45: the ROMs by their tables, the lookup by `expLookup_eq`, the values by `wave_range` and `wave_of_faint`. -/
theorem waveformRange : Obligations.WaveformRange := by
  unfold Obligations.WaveformRange
  refine ⟨expRom_rounded, logsinRom_listing, fun _ => expLookup_eq, fun level => ⟨expLookup_le level, expLookup_of_faint⟩,
    fun wf p env => ⟨wave_range wf p env, fun h => ?_⟩⟩
  rw [wave_of_faint (by omega)]
  cases waveNeg wf p <;> simp

/-! ### The logs at related phases (43_waveform_feedback.md R163) -/

section
variable (p : BitVec 10)

/-- The log of a rectified sine does not see the half period. -/
theorem waveMirror_half : waveMirror (p ^^^ 0x200) = waveMirror p := by
  simp [waveMirror, BitVec.extractLsb'_xor]

theorem waveMirror_mirrored : waveMirror (p ^^^ 0x1FF) = waveMirror p := by
  cases h : p[8] <;> simp [waveMirror, BitVec.extractLsb'_xor, h]

theorem waveDouble_mirrored : waveDouble (p ^^^ 0xFF) = waveDouble p := by
  cases h : p[7] <;> simp [waveDouble, h]

variable {p}

theorem waveMirror_rising (h : p.getLsbD 8 = false) : waveMirror p = logsinRom (p.extractLsb' 0 8).toNat := by
  rw [waveMirror, h]
  rfl

/-- On its rising eighths waveform 4 reads the quarter of waveform 0 at twice the phase. -/
theorem waveDouble_rising (hhalf : p.getLsbD 9 = false) (hrising : p.getLsbD 7 = false) :
    waveDouble p = waveMirror (p <<< 1) := by
  have hquarter : (p <<< 1).getLsbD 8 = false := by simpa using hrising
  have hlow : ((p <<< 1).extractLsb' 0 8).toNat = ((p <<< 1) &&& 0xFF).toNat := by
    rw [BitVec.extractLsb'_toNat, BitVec.toNat_and]
    exact (Nat.and_two_pow_sub_one_eq_mod _ 8).symm
  rw [waveMirror_rising hquarter, waveDouble, hhalf, hrising, hlow]
  rfl

/-- In the second half period, reading backwards within the half is reading the whole period backwards. -/
theorem complement_second_half (h : p.getLsbD 9 = true) : (p &&& 0x1FF) ^^^ 0x1FF = p ^^^ 0x3FF := by
  have hp : p[9] = true := by simpa using h
  ext i hi
  interval_cases i <;> simp [hp]

theorem waveLog_sawtooth_first (h : p.getLsbD 9 = false) : waveLog 7 p = 8 * p.toNat := by
  have hlog : waveLog 7 p = p.toNat <<< 3 := if_neg (Bool.eq_false_iff.mp h)
  rw [hlog, Nat.shiftLeft_eq, Nat.mul_comm]

theorem waveLog_sawtooth_second (h : p.getLsbD 9 = true) : waveLog 7 p = 8 * (p ^^^ 0x3FF).toNat := by
  have hlog : waveLog 7 p = ((p &&& 0x1FF) ^^^ 0x1FF).toNat <<< 3 := if_pos h
  rw [hlog, complement_second_half h, Nat.shiftLeft_eq, Nat.mul_comm]

theorem waveLog_sawtooth_reversed (p : BitVec 10) : waveLog 7 (p ^^^ 0x3FF) = waveLog 7 p := by
  have hbit : (p ^^^ 0x3FF).getLsbD 9 = !p.getLsbD 9 := by simp
  have hback : p ^^^ 0x3FF ^^^ 0x3FF = p := by simp
  cases h : p.getLsbD 9 with
  | false => rw [waveLog_sawtooth_second (hbit.trans (congrArg not h)), waveLog_sawtooth_first h, hback]
  | true => rw [waveLog_sawtooth_first (hbit.trans (congrArg not h)), waveLog_sawtooth_second h]

end

/-! ### The waveforms against one another (43_waveform_feedback.md R163) -/

section
variable (p : BitVec 10) (env : BitVec 16)

theorem wave_sine_first_quarter (h : p.toNat < 256) : wave 0 p env = expLookup (logsinRom p.toNat + 8 * env.toNat) := by
  have hhalf : p.getLsbD 9 = false := Nat.testBit_lt_two_pow (Nat.lt_trans h (by decide))
  have hrising : p.getLsbD 8 = false := Nat.testBit_lt_two_pow h
  have hlog : waveLog 0 p = logsinRom p.toNat := by
    refine (waveMirror_rising hrising).trans (congrArg logsinRom ?_)
    rw [BitVec.extractLsb'_toNat, Nat.shiftRight_zero, Nat.mod_eq_of_lt h]
  rw [wave_of_pos (wf := 0) hhalf, hlog]

theorem wave_square_first_half (h : p.getLsbD 9 = false) : wave 6 p env = expLookup (8 * env.toNat) := by
  have hlog : waveLog 6 p = 0 := rfl
  rw [wave_of_pos (wf := 6) h, hlog, Nat.zero_add]

theorem wave_sawtooth_first_half (h : p.getLsbD 9 = false) : wave 7 p env = expLookup (8 * p.toNat + 8 * env.toNat) := by
  rw [wave_of_pos (wf := 7) h, waveLog_sawtooth_first h]

/-- The second half period: waveforms 0 and 6 turn over, waveform 2 repeats, 1, 4 and 5 are silent. -/
theorem wave_second_half (h : p.getLsbD 9 = false) :
    wave 0 (p ^^^ 0x200) env = -wave 0 p env - 1 ∧ wave 6 (p ^^^ 0x200) env = -wave 6 p env - 1
      ∧ wave 2 (p ^^^ 0x200) env = wave 2 p env
      ∧ wave 1 (p ^^^ 0x200) env = 0 ∧ wave 4 (p ^^^ 0x200) env = 0 ∧ wave 5 (p ^^^ 0x200) env = 0 := by
  have hflip : (p ^^^ 0x200).getLsbD 9 = !p.getLsbD 9 := by simp
  have hhalf : (p ^^^ 0x200).getLsbD 9 = true := hflip.trans (congrArg not h)
  have hneg4 : waveNeg 4 (p ^^^ 0x200) = false := congrArg (!· && (p ^^^ 0x200).getLsbD 8) hhalf
  exact ⟨wave_complement (waveMirror_half p) hflip, wave_complement rfl hflip, wave_congr (waveMirror_half p) rfl,
    wave_of_silent (if_pos hhalf) rfl, wave_of_silent (if_pos hhalf) hneg4, wave_of_silent (if_pos hhalf) rfl⟩

/-- The first half period: waveforms 1 and 2 are waveform 0, and 5 is 4 rectified. -/
theorem wave_first_half (h : p.getLsbD 9 = false) : wave 1 p env = wave 0 p env ∧ wave 2 p env = wave 0 p env
    ∧ wave 5 p env = if p.getLsbD 8 then -wave 4 p env - 1 else wave 4 p env := by
  have hneg4 : waveNeg 4 p = p.getLsbD 8 := congrArg (!· && p.getLsbD 8) h
  refine ⟨wave_congr (if_neg (Bool.eq_false_iff.mp h)) h.symm, wave_congr rfl h.symm, ?_⟩
  cases hfalling : p.getLsbD 8 with
  | false => exact wave_congr rfl (hneg4.trans hfalling).symm
  | true => exact wave_complement rfl (congrArg not (hneg4.trans hfalling)).symm

/-- The second quarter mirrors the first. -/
theorem wave_mirrored : wave 0 (p ^^^ 0x1FF) env = wave 0 p env ∧ wave 1 (p ^^^ 0x1FF) env = wave 1 p env
    ∧ wave 2 (p ^^^ 0x1FF) env = wave 2 p env := by
  have hmirror := waveMirror_mirrored p
  have hhalf : (p ^^^ 0x1FF).getLsbD 9 = p.getLsbD 9 := by simp
  have hlog1 : waveLog 1 (p ^^^ 0x1FF) = waveLog 1 p := by
    show (if (p ^^^ 0x1FF).getLsbD 9 then 0x1000 else waveMirror (p ^^^ 0x1FF)) = _
    rw [hhalf, hmirror]
    rfl
  exact ⟨wave_congr hmirror hhalf, wave_congr hlog1 rfl, wave_congr hmirror rfl⟩

theorem wave_double_mirrored : wave 4 (p ^^^ 0x0FF) env = wave 4 p env ∧ wave 5 (p ^^^ 0x0FF) env = wave 5 p env := by
  have hneg : waveNeg 4 (p ^^^ 0x0FF) = waveNeg 4 p := by simp [waveNeg]
  exact ⟨wave_congr (waveDouble_mirrored p) hneg, wave_congr (waveDouble_mirrored p) rfl⟩

theorem wave_double_rising (hhalf : p.getLsbD 9 = false) (hrising : p.getLsbD 7 = false) :
    wave 4 p env = wave 0 (p <<< 1) env := by
  have hneg : waveNeg 4 p = waveNeg 0 (p <<< 1) := (congrArg (!· && p.getLsbD 8) hhalf).trans (by simp [waveNeg])
  exact wave_congr (waveDouble_rising hhalf hrising) hneg

theorem wave_quarter_falling (h : p.getLsbD 8 = true) : wave 3 p env = 0 := wave_of_silent (if_pos h) rfl

theorem wave_quarter_rising (h : p.getLsbD 8 = false) : wave 3 p env = wave 2 p env := by
  have hlog : waveLog 3 p = logsinRom (p.extractLsb' 0 8).toNat := if_neg (Bool.eq_false_iff.mp h)
  exact wave_congr (hlog.trans (waveMirror_rising h).symm) rfl

theorem wave_sawtooth_reversed : wave 7 (p ^^^ 0x3FF) env = -wave 7 p env - 1 :=
  wave_complement (waveLog_sawtooth_reversed p) (by simp [waveNeg])

end

/-- Settles O46: each clause is the lemma named after it. -/
theorem waveformShapes : Obligations.WaveformShapes := by
  unfold Obligations.WaveformShapes
  intro p env
  refine ⟨wave_sine_first_quarter p env, fun h => ⟨wave_square_first_half p env h, wave_sawtooth_first_half p env h⟩,
    fun h => ?_, wave_mirrored p env, wave_double_mirrored p env, wave_double_rising p env, wave_quarter_falling p env,
    wave_quarter_rising p env, wave_sawtooth_reversed p env⟩
  obtain ⟨h0, h6, h2, h1, h4, h5⟩ := wave_second_half p env h
  exact ⟨h0, h6, h2, h1, h4, h5, wave_first_half p env h⟩

end Sys2Proof.Machine
end

section
/-! The wiring under every command but the three that rewire and RESET (44_router.md R185). -/

namespace Sys2Proof.Machine

/-- The routing elements of a block: MODSRC of every operator; TAP, ALG and CHTYPE of every channel. -/
def Chip.wiring (c : Chip) : (Fin 36 → Source) × (Fin 18 → Quad Source × Alg × ChType) :=
  (fun o => (c.op o).modsrc, fun i => ((c.ch i).tap, (c.ch i).alg, (c.ch i).chtype))

theorem sameWiring_iff {c d : Chip} : SameWiring c d ↔ d.wiring = c.wiring := by
  simp only [SameWiring, Chip.wiring, Prod.mk.injEq, funext_iff]

theorem seesProgram_wiring : SeesProgram Chip.wiring := fun c d hchs hprog => by
  have hch (i : Fin 18) : d.ch i = c.ch i := congrArg (·[i]) hchs
  exact sameWiring_iff.mp
    ⟨fun o => congrArg OperatorProg.modsrc (hprog o), fun i => by rw [hch]; exact ⟨rfl, rfl, rfl⟩⟩

theorem regWrite_wiring (a : Addr) (b : Byte) (c : Chip) (h : rewires (classify a) = false) :
    (regWrite params a b c).wiring = c.wiring :=
  sameWiring_iff.mp (regWrite_of_not_rewires h b c).1

theorem not_rewires_of_decodeWrite {a : Addr} {b : Byte} (fourOp : ∀ d, decodeWrite a b ≠ .wr4op d)
    (bd : ∀ d, decodeWrite a b ≠ .wrBd d) (chc0 : ∀ i d, decodeWrite a b ≠ .wrChc0 i d) :
    rewires (classify a) = false := by
  cases hcl : classify a
  case fourOp => exact absurd (by simp only [decodeWrite, hcl]) (fourOp b)
  case bd => exact absurd (by simp only [decodeWrite, hcl]) (bd b)
  case chc0 i => exact absurd (by simp only [decodeWrite, hcl]) (chc0 i b)
  all_goals rfl

theorem exec_isWrite_sameWiring {i : Instr} {s t : State} (hi : isWrite i = true) (fourOp : ∀ d, i ≠ .wr4op d)
    (bd : ∀ d, i ≠ .wrBd d) (chc0 : ∀ j d, i ≠ .wrChc0 j d) (h : exec i s = .next t) :
    SameWiring s.chip t.chip := by
  rcases eq_decodeWrite_or_ign hi with ⟨a, b, rfl⟩ | ⟨a, b, rfl⟩
  · rw [exec_decodeWrite] at h
    obtain ⟨-, rfl⟩ := onChip_eq_next_iff.mp h
    exact (regWrite_of_not_rewires (not_rewires_of_decodeWrite fourOp bd chc0) b s.chip).1
  · obtain ⟨-, rfl⟩ := onChip_eq_next_iff.mp h
    exact sameWiring_iff.mpr rfl

theorem exec_wrb_sameWiring {a : Addr} {d : Byte} {s t : State} (h : exec (.wrb a d) s = .next t) :
    SameWiring s.chip t.chip := by
  obtain ⟨-, -, rfl⟩ := execWrb_eq_next_iff.mp h
  exact sameWiring_iff.mpr rfl

/-- Settles O28: the classes that do not rewire are those of `regWrite_of_not_rewires`; WRB touches the buffer only, and the
ticks change the wiring only through the writes they drain. -/
theorem wiringIsSticky : Obligations.WiringIsSticky := by
  unfold Obligations.WiringIsSticky
  exact ⟨fun _ _ _ hi fourOp bd chc0 h => exec_isWrite_sameWiring hi fourOp bd chc0 h,
    fun _ d c h => (regWrite_of_not_rewires h d c).1,
    fun _ _ _ _ h => exec_wrb_sameWiring h,
    fun _ _ h due => sameWiring_iff.mpr (execTick_keeps seesProgram_wiring regWrite_wiring h due),
    fun _ _ h due => sameWiring_iff.mpr (execTickr_keeps seesProgram_wiring regWrite_wiring h due),
    fun _ _ _ h due => sameWiring_iff.mpr (execStream_keeps seesProgram_wiring regWrite_wiring h due)⟩

end Sys2Proof.Machine
end

section
/-! The write buffer in a tick (45_mixer_lfo.md R206, 46_writebuf.md R213). -/

namespace Sys2Proof.Machine

/-- The end of a tick drains, then counts; the drain does not touch the counter. -/
theorem tickChip_eq_drain_count (c : Chip) : tickChip params c =
    { drainWriteBuffer params (oscPhase params (soundPhases params c)) with wbSamplecnt := c.wbSamplecnt + 1 } := by
  obtain ⟨-, hcount, -⟩ := beforeDrain_frame (c := c)
  have hdrain (d : Chip) : (drainWriteBuffer params d).wbSamplecnt = d.wbSamplecnt :=
    congrArg ChipRun.wbSamplecnt (drainFrom_frame params d d.wb).1
  unfold tickChip drainPhase
  dsimp only
  rw [hdrain, hcount]

/-- Settles O31: the tick ends in the drain and the count; the loop's turns are `drain_of_not_due` and `drain_of_due`. -/
theorem tickDrainsWriteBuffer : Obligations.TickDrainsWriteBuffer := by
  unfold Obligations.TickDrainsWriteBuffer
  refine ⟨fun s hs => ⟨_, execTick_eq_next_iff.mpr ⟨hs, rfl⟩, tickChip_eq_drain_count s.chip⟩, fun c => ⟨fun hw => ?_, ?_⟩⟩
  · exact drain_of_not_due params c (by simp [hw])
  · intro e rest hw
    exact ⟨fun hlater => drain_of_not_due params c (by simpa [hw] using hlater), drain_of_due params c hw⟩

end Sys2Proof.Machine
end

section
/-! The envelope clock after a tick in the arithmetic of the rules (45_mixer_lfo.md R204, R205). -/

namespace Sys2Proof.Machine

/-! ### The lowest set bit (45_mixer_lfo.md R204) -/

/-- Trailing zeros are counted one by one. -/
theorem lsbIndex_two_pow_mul (fuel k m : Nat) : lsbIndex (fuel + k) (2 ^ k * m) = lsbIndex fuel m + k := by
  induction k with
  | zero => simp
  | succ k ih =>
    have hpow : 2 ^ (k + 1) * m = 2 * (2 ^ k * m) := by ring
    rw [hpow, ← Nat.add_assoc, lsbIndex, if_neg (by omega), Nat.mul_div_cancel_left _ (by decide), ih, Nat.add_assoc]

/-- The lowest set bit of a number that is `2 ^ k` modulo `2 ^ (k + 1)` is bit `k`. -/
theorem lsbIndex_of_mod {k v : Nat} (hk : k < 36) (h : v % 2 ^ (k + 1) = 2 ^ k) : lsbIndex 36 v = k := by
  have hv : v = 2 ^ k * (2 * (v / 2 ^ (k + 1)) + 1) := by
    conv_lhs => rw [← Nat.div_add_mod v (2 ^ (k + 1)), h]
    ring
  have hodd (n : Nat) : lsbIndex (35 - k + 1) (2 * n + 1) = 0 := if_pos (by omega)
  have hfuel : 36 = 35 - k + 1 + k := by omega
  rw [hv, hfuel, lsbIndex_two_pow_mul, hodd, Nat.zero_add]

theorem egAddStep_of_mod {g : Oscillators} {k : Nat} (hk : k ≤ 12) (h : g.egTimer.toNat % 2 ^ (k + 1) = 2 ^ k) :
    (egAddStep g).egAdd.toNat = k + 1 := by
  have hne : g.egTimer ≠ 0 := fun hzero => pow_ne_zero k two_ne_zero (by simpa [hzero] using h.symm)
  unfold egAddStep
  dsimp only
  rw [lsbIndex_of_mod (by omega) h, if_neg hne, if_neg (by omega), BitVec.toNat_ofNat]
  exact Nat.mod_eq_of_lt (by omega)

/-- No set bit among the lowest thirteen, so none at all or one above bit 12. -/
theorem egAddStep_of_low_clear {g : Oscillators} (h : g.egTimer.toNat % 8192 = 0) : (egAddStep g).egAdd = 0 := by
  have hlsb : 12 < lsbIndex 36 g.egTimer.toNat := by
    have hshift : lsbIndex 36 (8192 * (g.egTimer.toNat / 8192)) = lsbIndex 23 (g.egTimer.toNat / 8192) + 13 :=
      lsbIndex_two_pow_mul 23 13 _
    rw [Nat.mul_div_cancel' (Nat.dvd_of_mod_eq_zero h)] at hshift
    omega
  unfold egAddStep
  dsimp only
  rw [if_pos hlsb, ite_self]

/-! ### The envelope timer (45_mixer_lfo.md R205) -/

section
variable {g : Oscillators}

/-- The timer advances on the ticks of phase 1 and on the tick after its wrap; the carry is set by the wrap. -/
theorem egTimerStep_of_counting (h : g.egTimerrem = true ∨ g.egState = true) :
    (egTimerStep g).egTimer = g.egTimer + 1 ∧ ((egTimerStep g).egTimerrem = true ↔ g.egTimer = 0xFFFFFFFFF) := by
  unfold egTimerStep
  dsimp only
  rw [if_pos h]
  split
  case isTrue hwrap => exact ⟨by rw [hwrap]; rfl, iff_of_true rfl hwrap⟩
  case isFalse hwrap => exact ⟨rfl, iff_of_false Bool.false_ne_true hwrap⟩

theorem egTimerStep_of_holding (h : ¬(g.egTimerrem = true ∨ g.egState = true)) :
    (egTimerStep g).egTimer = g.egTimer ∧ (egTimerStep g).egTimerrem = g.egTimerrem := by
  unfold egTimerStep
  dsimp only
  rw [if_neg h]
  exact ⟨rfl, rfl⟩

theorem egTimerStep_egState : (egTimerStep g).egState = !g.egState := by
  unfold egTimerStep
  dsimp only
  split
  · split <;> rfl
  · rfl

/-! The steps before the envelope timer's leave it, its carry and the phase alone. -/

variable (k : BitVec 3)

theorem oscStep_of_counting (h : g.egTimerrem = true ∨ g.egState = true) :
    (oscStep params k g).egTimer = g.egTimer + 1 ∧ ((oscStep params k g).egTimerrem = true ↔ g.egTimer = 0xFFFFFFFFF) :=
  egTimerStep_of_counting h

theorem oscStep_of_holding (h : ¬(g.egTimerrem = true ∨ g.egState = true)) :
    (oscStep params k g).egTimer = g.egTimer ∧ (oscStep params k g).egTimerrem = g.egTimerrem :=
  egTimerStep_of_holding h

theorem oscStep_egState : (oscStep params k g).egState = !g.egState := egTimerStep_egState

end

/-- Settles O35: EG_ADD by the lowest set bit, then the timer. -/
theorem tickAdvancesEnvelopeClock : Obligations.TickAdvancesEnvelopeClock := by
  unfold Obligations.TickAdvancesEnvelopeClock
  intro s t h
  obtain ⟨-, rfl⟩ := execTick_eq_next_iff.mp h
  dsimp only
  rw [tickChip_osc, oscStep_egAdd]
  refine ⟨fun k hk => egAddStep_of_mod hk, egAddStep_of_low_clear, oscStep_egState _, ?_⟩
  split
  case isTrue hcount =>
    obtain ⟨htimer, hcarry⟩ := oscStep_of_counting s.chip.reg.tremshift hcount
    exact ⟨htimer ▸ BitVec.toNat_add .., hcarry.trans BitVec.toNat_inj.symm⟩
  case isFalse hhold => exact oscStep_of_holding _ hhold

end Sys2Proof.Machine
end

section
/-! The mix after a tick in the arithmetic of the rules (45_mixer_lfo.md R191 to R193). -/

namespace Sys2Proof.Machine

/-! ### The lanes of one block -/

theorem laneSum_eq_sum (part : Fin 18 → Int) : laneSum part = ∑ i, part i := by
  have hchs : allChs = List.finRange 18 := by decide
  rw [laneSum, hchs, Fin.sum_univ_def, List.sum_eq_foldl, List.foldl_map]

/-- The arithmetic shift of the panned part (45_mixer_lfo.md R192) is a floor division. -/
theorem frontPart_eq_div (c : Chip) (weight : Channel → BitVec 17) (enable : Channel → Bool) (i : Fin 18) :
    frontPart c weight enable i =
      if c.reg.stereoext then (wrapS16 (chanSum c i * ((weight (c.ch i)).toNat : Int) / 65536)).toInt
      else if enable (c.ch i) then chanSum c i else 0 := by
  have hdiv (v : Int) : v / 65536 = v >>> (16 : Nat) := (Int.shiftRight_eq_div_pow v 16).symm
  unfold frontPart
  dsimp only
  rewrite [hdiv]
  generalize chanSum c i * ((weight (c.ch i)).toNat : Int) = v
  cases v <;> rfl

/-- The one saturating stage (45_mixer_lfo.md R193) clamps to the range of an output lane. -/
theorem clipLane_eq_saturated (m : S32) : clipLane m = saturated m := by
  have hclip : clip16 m.toInt = max (-32768) (min 32767 m.toInt) := by
    unfold clip16
    split
    · omega
    · split <;> omega
  exact congrArg (BitVec.ofInt 16) hclip

/-! ### The outputs a tick sums -/

/-- A source reads dynamic state of an operator. -/
theorem srcValue_of_dyn {c d : Chip} (h : ∀ o, (d.op o).dyn = (c.op o).dyn) (x : Source) : srcValue d x = srcValue c x := by
  cases x with
  | zero => rfl
  | fb j => exact congrArg (BitVec.toInt ∘ OperatorDyn.fbmod) (h j)
  | out j => exact congrArg (BitVec.toInt ∘ OperatorDyn.out) (h j)

section
variable (c : Chip)

/-- The drain reaches no operator output, so the tick leaves every source as the mix read it. -/
theorem srcValue_tickChip (x : Source) : srcValue (tickChip params c) x = srcValue (operatorSteps params allOps c) x :=
  srcValue_of_dyn (tick_run c).2 x

/-- The wiring the mix reads is the one before the tick (45_mixer_lfo.md R191). -/
theorem chanSum_eq_channelSum (i : Fin 18) :
    chanSum (operatorSteps params allOps c) i = channelSum c (tickChip params c) i := by
  have hch := (operatorSteps_rest params rfl c allOps).ch i
  have hsrc := srcValue_tickChip c
  generalize operatorSteps params allOps c = d at hch hsrc ⊢
  simp only [chanSum, tapSum, channelSum, hch, hsrc, wrapS16]

theorem frontPart_eq_panned (weight : Channel → BitVec 17) (enable : Channel → Bool) (i : Fin 18) :
    frontPart (operatorSteps params allOps c) weight enable i = panned c (tickChip params c) weight enable i := by
  have hrest := operatorSteps_rest params rfl c allOps
  rw [frontPart_eq_div, hrest.reg, hrest.ch i, chanSum_eq_channelSum]
  rfl

theorem rearPart_eq_masked (enable : Channel → Bool) (i : Fin 18) :
    rearPart (operatorSteps params allOps c) enable i = masked c (tickChip params c) enable i := by
  unfold rearPart masked
  rw [(operatorSteps_rest params rfl c allOps).ch i, chanSum_eq_channelSum]

/-! ### The accumulators and the latches -/

theorem laneSums_operatorSteps : laneSums (operatorSteps params allOps c) =
    ⟨BitVec.ofInt 32 (∑ i, panned c (tickChip params c) Channel.leftpan Channel.cha i),
      BitVec.ofInt 32 (∑ i, panned c (tickChip params c) Channel.rightpan Channel.chb i),
      BitVec.ofInt 32 (∑ i, masked c (tickChip params c) Channel.chc i),
      BitVec.ofInt 32 (∑ i, masked c (tickChip params c) Channel.chd i)⟩ := by
  simp only [laneSums, laneSum_eq_sum, frontPart_eq_panned, rearPart_eq_masked]

/-- The mix part of a tick: the sums in the accumulators, their saturations in the latches. -/
theorem tickChip_mix_outp : (tickChip params c).mix = laneSums (operatorSteps params allOps c)
    ∧ (tickChip params c).outp = (tickChip params c).mix.map saturated := by
  have hmix := congrArg ChipRun.mix (tick_run c).1
  have houtp := congrArg ChipRun.outp (tick_run c).1
  refine ⟨hmix, houtp.trans ?_⟩
  rw [show (tickChip params c).mix = _ from hmix, funext clipLane_eq_saturated]

end

/-- Settles O44: the lanes by `laneSums_operatorSteps`, the latches by `tickChip_mix_outp`. -/
theorem tickMix : Obligations.TickMix := by
  unfold Obligations.TickMix
  intro s t h
  obtain ⟨-, rfl⟩ := execTick_eq_next_iff.mp h
  obtain ⟨hmix, houtp⟩ := tickChip_mix_outp s.chip
  have hlanes := hmix.trans (laneSums_operatorSteps s.chip)
  exact ⟨congrArg Quad.a hlanes, congrArg Quad.b hlanes, congrArg Quad.c hlanes, congrArg Quad.d hlanes, houtp⟩

end Sys2Proof.Machine
end

section
/-! At most one buffered write is due in a tick (46_writebuf.md R213): an ordered buffer has no entry before the counter, and the
entry behind one due at the counter is at least 2 later. -/

namespace Sys2Proof.Machine

/-- Of a spaced queue with no entry before `m`, only the first can be due at `m`. -/
theorem length_le_length_dropWhile_add_one {l : List WbEntry} {m : Nat} (spaced : l.Pairwise fun e f => e.time + 2 ≤ f.time)
    (pending : ∀ e ∈ l, m ≤ e.time) : l.length ≤ (l.dropWhile fun e => decide (e.time < m + 1)).length + 1 := by
  cases l with
  | nil => exact Nat.zero_le _
  | cons head tail =>
    by_cases hdue : head.time < m + 1
    · have hlater : ∀ e ∈ tail, ¬e.time < m + 1 := fun e he => by
        have := pending head List.mem_cons_self
        have := (List.pairwise_cons.mp spaced).1 e he
        omega
      have htail : (tail.dropWhile fun e => decide (e.time < m + 1)) = tail :=
        List.dropWhile_eq_self_iff.mpr fun hpos => by simpa using hlater _ (List.getElem_mem hpos)
      rw [List.dropWhile_cons_of_pos (by simpa using hdue), htail, List.length_cons]
    · rw [List.dropWhile_cons_of_neg (by simpa using hdue)]
      exact Nat.le_succ _

/-- Settles O60: `length_le_length_dropWhile_add_one` on the queue a tick leaves; the tick keeps the order. -/
theorem atMostOneDrainPerTick : Obligations.AtMostOneDrainPerTick := by
  unfold Obligations.AtMostOneDrainPerTick
  intro s t hordered h
  obtain ⟨-, rfl⟩ := execTick_eq_next_iff.mp h
  have hlength := length_le_length_dropWhile_add_one hordered.spaced hordered.pending
  rw [← tick_wb] at hlength
  obtain ⟨due, hsplit⟩ := tickChip_wb_suffix s.chip
  exact ⟨hlength, ⟨due, hsplit.symm⟩, (tickChip_wbOrdered hordered).pending⟩

end Sys2Proof.Machine
end

section
/-! One output-rate step (47_resampler.md R227 to R230): what TICKR leaves in the resampler, and the interpolation. -/

namespace Sys2Proof.Machine

/-! ### The resampler after one step (R227) -/

theorem execTickr_eq_next_iff {s t : State} :
    execTickr s = .next t ↔ s.ready = true ∧ s.chip.rsm.ratio ≠ 0 ∧ resampledFrame s = t := by
  rw [execTickr_eq_execStream, execStream_eq_next_iff]
  exact and_congr_right fun _ => and_congr_left fun _ => imp_iff_right (by decide)

@[simp] theorem resampledFrame_chip (s : State) : (resampledFrame s).chip = tickResampled params s.chip := rfl

theorem tickResampled_cur (c : Chip) : (tickResampled params c).rsm.cur =
    if c.rsm.acc / c.rsm.ratio.toNat = 0 then c.rsm.cur
    else ((tickChip params)^[c.rsm.acc / c.rsm.ratio.toNat] c).outp :=
  (congrArg Resampler.cur (resampleTicks_spec (c.rsm.acc / c.rsm.ratio.toNat) c).2 :)

theorem tickResampled_prev (c : Chip) : (tickResampled params c).rsm.prev =
    if c.rsm.acc / c.rsm.ratio.toNat = 0 then c.rsm.prev
    else if c.rsm.acc / c.rsm.ratio.toNat = 1 then c.rsm.cur
    else ((tickChip params)^[c.rsm.acc / c.rsm.ratio.toNat - 1] c).outp :=
  (congrArg Resampler.prev (resampleTicks_spec (c.rsm.acc / c.rsm.ratio.toNat) c).2 :)

/-- The lanes are interpolated between the loop and the final addition, where the accumulator is the remainder. -/
theorem tickResampled_out (c : Chip) : (tickResampled params c).rsm.out =
    let f := interp params c.rsm.ratio.toNat (c.rsm.acc % c.rsm.ratio.toNat)
    let prev := (tickResampled params c).rsm.prev
    let cur := (tickResampled params c).rsm.cur
    ⟨f prev.a cur.a, f prev.b cur.b, f prev.c cur.c, f prev.d cur.d⟩ := by
  have hratio : (resampleTicks params (c.rsm.acc / c.rsm.ratio.toNat) c).rsm.ratio = c.rsm.ratio := tickResampled_ratio c
  have hacc : (resampleTicks params (c.rsm.acc / c.rsm.ratio.toNat) c).rsm.acc = c.rsm.acc % c.rsm.ratio.toNat :=
    Nat.add_right_cancel (tickResampled_acc c)
  show interpLanes params (resampleTicks params (c.rsm.acc / c.rsm.ratio.toNat) c).rsm = _
  rw [interpLanes, hratio, hacc]
  rfl

/-- Settles O47: each element of the resampler by the lemma named after it, the rest of the block by `tickResampled_eq`. -/
theorem resampledTick : Obligations.ResampledTick := by
  unfold Obligations.ResampledTick
  intro s hready hratio
  refine ⟨_, execTickr_eq_next_iff.mpr ⟨hready, hratio, rfl⟩, ?_⟩
  have hticks := (resampleTicks_spec (s.chip.rsm.acc / s.chip.rsm.ratio.toNat) s.chip).1
  exact ⟨hticks, tickResampled_ratio s.chip, tickResampled_acc s.chip, tickResampled_cur s.chip, tickResampled_prev s.chip,
    tickResampled_out s.chip, rfl, rfl, hready⟩

/-! ### The interpolation (R228) -/

/-- The default assignment of the weights (log 7). -/
theorem interp_eq (r a : Nat) (p c : S16) :
    interp params r a p c = BitVec.ofInt 16 ((c.toInt * (r - a) + p.toInt * a).tdiv r) := rfl

/-- Settles O48: `tickResampled_out` with `interp_eq` in each lane. -/
theorem resampledLanes : Obligations.ResampledLanes := by
  unfold Obligations.ResampledLanes
  intro s t h
  obtain ⟨-, -, rfl⟩ := execTickr_eq_next_iff.mp h
  simpa only [resampledFrame_chip, interp_eq, Int.natCast_emod] using tickResampled_out s.chip

/-- Truncated division keeps the bounds that are multiples of the divisor. -/
theorem tdiv_between {lo hi x r : Int} (hr : 0 < r) (hlo : lo * r ≤ x) (hhi : x ≤ hi * r) :
    lo ≤ x.tdiv r ∧ x.tdiv r ≤ hi := by
  constructor
  · exact (Int.mul_tdiv_cancel lo hr.ne').symm.trans_le (Int.tdiv_le_tdiv hr hlo)
  · exact (Int.tdiv_le_tdiv hr hhi).trans_eq (Int.mul_tdiv_cancel hi hr.ne')

/-- The weights are not negative and sum to the ratio, so the weighted sum lies between the multiples of the bounds. -/
theorem weighted_between {lo hi p c r a : Int} (ha : 0 ≤ a) (har : a ≤ r) (hp : lo ≤ p ∧ p ≤ hi) (hc : lo ≤ c ∧ c ≤ hi) :
    lo * r ≤ c * (r - a) + p * a ∧ c * (r - a) + p * a ≤ hi * r := by
  have hra : 0 ≤ r - a := Int.sub_nonneg_of_le har
  have hsplit (x : Int) : x * r = x * (r - a) + x * a := by ring
  rw [hsplit lo, hsplit hi]
  constructor
  · exact add_le_add (mul_le_mul_of_nonneg_right hc.1 hra) (mul_le_mul_of_nonneg_right hp.1 ha)
  · exact add_le_add (mul_le_mul_of_nonneg_right hc.2 hra) (mul_le_mul_of_nonneg_right hp.2 ha)

theorem interp_between {r a : Nat} (p c : S16) (har : a < r) :
    min p.toInt c.toInt ≤ (interp params r a p c).toInt ∧ (interp params r a p c).toInt ≤ max p.toInt c.toInt := by
  have hweighted := weighted_between (r := r) (a := a) (by omega) (by omega)
    ⟨min_le_left p.toInt c.toInt, le_max_left p.toInt c.toInt⟩ ⟨min_le_right p.toInt c.toInt, le_max_right p.toInt c.toInt⟩
  have hquotient := tdiv_between (r := r) (by omega) hweighted.1 hweighted.2
  have hp := p.le_toInt
  have hp' := p.toInt_lt
  have hc := c.le_toInt
  have hc' := c.toInt_lt
  rw [interp_eq, ← wrapS16, toInt_wrapS16 (by omega)]
  exact hquotient

/-- With nothing left in the accumulator the current sample passes through. -/
theorem interp_of_no_remainder {r : Nat} (p c : S16) (hr : 0 < r) : interp params r 0 p c = c := by
  have hne : (r : Int) ≠ 0 := by omega
  simp [interp_eq, Int.mul_tdiv_cancel _ hne]

/-- Settles O49: by `interp_between` and `interp_of_no_remainder`. -/
theorem interpolationBetweenSamples : Obligations.InterpolationBetweenSamples := by
  unfold Obligations.InterpolationBetweenSamples
  intro r a p c har
  obtain ⟨hlo, hhi⟩ := interp_between p c har
  refine ⟨hlo, hhi, ?_⟩
  rintro rfl
  exact interp_of_no_remainder p c har

/-! ### The native rate (R230) -/

section
variable {c : Chip} (hratio : c.rsm.ratio = 1024) (hacc : c.rsm.acc = 1024)
include hratio hacc

theorem ticks_of_native : c.rsm.acc / c.rsm.ratio.toNat = 1 := by
  rw [hratio, hacc]
  decide

theorem remainder_of_native : c.rsm.acc % c.rsm.ratio.toNat = 0 := by
  rw [hratio, hacc]
  decide

/-- One tick, and nothing but the resampler beside. -/
theorem tickResampled_of_native :
    tickResampled params c = { tickChip params c with rsm := (tickResampled params c).rsm } := by
  have h := tickResampled_eq c
  rwa [ticks_of_native hratio hacc] at h

/-- The step outputs the native sample. -/
theorem tickResampled_out_of_native : (tickResampled params c).rsm.out = (tickChip params c).outp := by
  have hcur : (tickResampled params c).rsm.cur = (tickChip params c).outp := by
    rw [tickResampled_cur, ticks_of_native hratio hacc]
    rfl
  have hpos : 0 < c.rsm.ratio.toNat := BitVec.toNat_pos_of_ne_zero (hratio ▸ by decide)
  rw [tickResampled_out, remainder_of_native hratio hacc, hcur]
  simp only [interp_of_no_remainder _ _ hpos]

end

/-- Settles O50: at the native rate a step owes one tick and leaves no remainder. -/
theorem resamplerIdentity : Obligations.ResamplerIdentity := by
  unfold Obligations.ResamplerIdentity
  constructor
  · intro s t h
    obtain ⟨-, -, rfl⟩ := execReset_eq_next_iff.mp h
    simp [resetResampler, params, ratioOf_eq]
  · intro s hready hratio hacc
    have hne : s.chip.rsm.ratio ≠ 0 := hratio ▸ by decide
    refine ⟨_, _, execTickr_eq_next_iff.mpr ⟨hready, hne, rfl⟩, execTick_eq_next_iff.mpr ⟨hready, rfl⟩, ?_, ?_, ?_, ?_⟩
    · exact congrArg (s.output ++ [·]) (tickResampled_out_of_native hratio hacc)
    · exact tickResampled_of_native hratio hacc
    · exact (tickResampled_ratio s.chip).trans hratio
    · exact (tickResampled_acc s.chip).trans (congrArg (· + 1024) (remainder_of_native hratio hacc))

end Sys2Proof.Machine
end

section
/-! The bounds of the resampler (47_resampler.md R229, R231) under every effect of a command. -/

namespace Sys2Proof.Machine

variable {c d : Chip}

/-- The bounds look at the resampler only. -/
theorem Chip.RsmBounded.of_eq (h : c.RsmBounded) (heq : d.rsm = c.rsm) : d.RsmBounded where
  ratioPos := heq ▸ h.ratioPos
  ratioMax := heq ▸ h.ratioMax
  acc := heq ▸ h.acc

/-- The step leaves a remainder below the ratio and adds 1024. -/
theorem tickResampled_rsmBounded (h : c.RsmBounded) : (tickResampled params c).RsmBounded where
  ratioPos := tickResampled_ratio c ▸ h.ratioPos
  ratioMax := tickResampled_ratio c ▸ h.ratioMax
  acc := by
    rw [tickResampled_acc, tickResampled_ratio]
    exact Nat.add_lt_add_right (Nat.mod_lt _ (BitVec.toNat_pos_of_ne_zero h.ratioPos)) 1024

theorem commandEffect_rsmBounded (h : c.RsmBounded) (he : CommandEffect c d) : d.RsmBounded := by
  cases he with
  | write a b => exact h.of_eq (congrArg ChipRun.rsm (regWrite_write params a b c).run)
  | queue a b _ => exact h.of_eq rfl
  | tick => exact h.of_eq (tickChip_rsm_eq c)
  | resampled n _ => exact Function.Iterate.rec Chip.RsmBounded h (fun _ => tickResampled_rsmBounded) n

/-- Settles O57: each effect of a command keeps the bounds, and RESET meets them at every rate it accepts. -/
theorem stepKeepsResamplerBound : Obligations.StepKeepsResamplerBound := by
  unfold Obligations.StepKeepsResamplerBound
  exact step_keeps (P := Chip.RsmBounded) (fun _ _ => commandEffect_rsmBounded) resetChip_rsmBounded

end Sys2Proof.Machine
end

section
/-! When a command completes, and the steps that run no command (60_exceptions.md R235, R238, R240, R248). -/

namespace Sys2Proof.Machine

/-- Settles O9: what remains of the refusals of `exec_eq_refused_iff` is excluded, and with a ratio nothing faults. -/
theorem everyCommandCompletes : Obligations.EveryCommandCompletes := by
  unfold Obligations.EveryCommandCompletes
  intro i s hready hratio hroom hrate
  cases h : exec i s with
  | next t => exact ⟨t, rfl⟩
  | fault f => exact absurd h (exec_ne_fault i hratio f)
  | refused r =>
    exfalso
    rcases (exec_eq_refused_iff i s r).mp h with
      ⟨⟨hnot, -⟩, -⟩ | ⟨⟨rate, hi, hout⟩, -⟩ | ⟨⟨-, hfull, a, d, hi⟩, -⟩
    · simp [hready] at hnot
    · have := hrate rate hi
      omega
    · have := hroom a d hi
      omega

theorem step_of_decode_error {s : State} {w : Word} {rest : List Word} {e : DecodeError} (hcmds : s.cmds = w :: rest)
    (hdecode : decode w = .error e) : step s = .refused (.notACommand e) := by
  simp only [step, hcmds, hdecode]

theorem step_of_no_command {s : State} (hcmds : s.cmds = []) : step s = .next s := by
  simp only [step, hcmds]

/-- Settles O8: by `step_of_decode_error` and `step_of_no_command`. -/
theorem stepWithoutCommand : Obligations.StepWithoutCommand := by
  unfold Obligations.StepWithoutCommand
  exact ⟨fun _ _ _ _ hcmds hdecode => step_of_decode_error hcmds hdecode, fun _ hcmds => step_of_no_command hcmds⟩

end Sys2Proof.Machine
end
